-- ==== Sys2Proof/Word.lean ====
section
/-! DEFINITION. The word types of the core: bytes, bus words, residues and binary64 patterns, DMEM entries. -/

namespace Sys2Proof

/-- One byte of the aperture. -/
abbrev Byte := BitVec 8

/-- One bus word: the width of every register and of every host access (10_state.md R31, 20_memory.md R100). -/
abbrev Word := BitVec 32

/-- A 64-bit register pair, a table entry or a binary64 pattern (10_state.md R42, R62, 40_common.md R220). -/
abbrev Dword := BitVec 64

/-- One entry of DMEM or CROOT (10_state.md R60, R63). -/
abbrev Entry := BitVec 128

end Sys2Proof
end

