-- ==== Sys2Proof/Syntax.lean ====
section
/-! DEFINITION. The command set: one constructor for each row of spec/opcode_table.json. -/

namespace Sys2Proof

/-- A command (30_encoding.md R156). `k` is LOGN, the log2 of the buffer length (R152). -/
inductive Instr where
  | nop
  | mcfg
  | ccfg
  | brev (k : Nat)
  | nttFwd (k : Nat)
  | nttInv (k : Nat)
  | nttUsr (k : Nat)
  | fttf (k : Nat)
  | ftti (k : Nat)
  | fft (k : Nat)
  | fftf (k : Nat)
  | ffti (k : Nat)
  | chk (k : Nat)
  | emb (k : Nat)
  | embi (k : Nat)
  deriving DecidableEq, Repr

end Sys2Proof
end

