-- ==== Sys2Proof/WellFormed.lean ====
section
/-! DEFINITION. When a command can be written as a command word. -/

namespace Sys2Proof

/-- The length operand of the commands that take one (30_encoding.md R155). -/
def Instr.logn : Instr → Option Nat
  | .nop | .mcfg | .ccfg => none
  | .brev k | .nttFwd k | .nttInv k | .nttUsr k | .fttf k | .ftti k => some k
  | .fft k | .fftf k | .ffti k | .chk k | .emb k | .embi k => some k

/-- LOGN is a 5-bit field: an assembler rejects any k above 31 (30_encoding.md R152, R161). -/
def Instr.wellFormed (i : Instr) : Bool :=
  match i.logn with
  | none => true
  | some k => decide (k < 32)

end Sys2Proof
end

