-- ==== Sys2Proof/Decode.lean ====
section
/-! DEFINITION. Decoding a command word, total and rejecting by name, and the encoder. -/

namespace Sys2Proof

/-- OPC, bits [5:0] (30_encoding.md R151). -/
def opcField (w : Word) : Nat := (w.extractLsb' 0 6).toNat

/-- LOGN, bits [10:6] (30_encoding.md R152). -/
def lognField (w : Word) : Nat := (w.extractLsb' 6 5).toNat

/-- TBL, bits [12:11] (30_encoding.md R153). -/
def tblField (w : Word) : Nat := (w.extractLsb' 11 2).toNat

/-- RSVD, bits [31:13] (30_encoding.md R154). -/
def rsvdField (w : Word) : Nat := (w.extractLsb' 13 19).toNat

/-- Why a word is no command: one name for each line of 30_encoding.md R158. -/
inductive Reject where
  | reservedBits
  | opcode
  | tableSelect
  | tableNotTaken
  | lengthNotTaken
  deriving DecidableEq, Repr

/-- A command without operand: LOGN and TBL must be 0 (30_encoding.md R152, R153). -/
def decodeBare (w : Word) (i : Instr) : Except Reject Instr :=
  if tblField w ≠ 0 then .error .tableNotTaken
  else if lognField w ≠ 0 then .error .lengthNotTaken
  else .ok i

/-- A command with a length and no table select: TBL must be 0 (30_encoding.md R153). -/
def decodeSized (w : Word) (mk : Nat → Instr) : Except Reject Instr :=
  if tblField w ≠ 0 then .error .tableNotTaken else .ok (mk (lognField w))

/-- NTT: TBL selects the table, 3 is illegal (30_encoding.md R153). -/
def decodeNtt (w : Word) : Except Reject Instr :=
  match tblField w with
  | 0 => .ok (.nttFwd (lognField w))
  | 1 => .ok (.nttInv (lognField w))
  | 2 => .ok (.nttUsr (lognField w))
  | _ => .error .tableSelect

/-- The command a word stands for (30_encoding.md R150 to R159). -/
def decode (w : Word) : Except Reject Instr :=
  if rsvdField w ≠ 0 then .error .reservedBits
  else match opcField w with
    | 0x00 => decodeBare w .nop
    | 0x01 => decodeBare w .mcfg
    | 0x02 => decodeBare w .ccfg
    | 0x03 => decodeSized w .brev
    | 0x08 => decodeNtt w
    | 0x09 => decodeSized w .fttf
    | 0x0A => decodeSized w .ftti
    | 0x10 => decodeSized w .fft
    | 0x11 => decodeSized w .fftf
    | 0x12 => decodeSized w .ffti
    | 0x13 => decodeSized w .chk
    | 0x14 => decodeSized w .emb
    | 0x15 => decodeSized w .embi
    | _ => .error .opcode

/-- The opcode of a command (30_encoding.md R156). -/
def opcodeOf : Instr → Nat
  | .nop => 0x00
  | .mcfg => 0x01
  | .ccfg => 0x02
  | .brev _ => 0x03
  | .nttFwd _ | .nttInv _ | .nttUsr _ => 0x08
  | .fttf _ => 0x09
  | .ftti _ => 0x0A
  | .fft _ => 0x10
  | .fftf _ => 0x11
  | .ffti _ => 0x12
  | .chk _ => 0x13
  | .emb _ => 0x14
  | .embi _ => 0x15

/-- The table select of a command (30_encoding.md R153). -/
def tableOf : Instr → Nat
  | .nttInv _ => 1
  | .nttUsr _ => 2
  | _ => 0

/-- The command word: OPC | (LOGN << 6) | (TBL << 11) (30_encoding.md R157). -/
def encode (i : Instr) : Word :=
  BitVec.ofNat 32 (opcodeOf i) ||| (BitVec.ofNat 32 (i.logn.getD 0) <<< 6) |||
    (BitVec.ofNat 32 (tableOf i) <<< 11)

/-- What the decoder reads from an instruction whose `nbits` bits are `w`. A command is always one 32-bit
word (30_encoding.md R160), so the bits above `nbits` are 0. -/
def decodeTableWord (nbits w : Nat) : Option Instr :=
  if nbits ≤ 32 then (decode (BitVec.ofNat 32 (w % 2 ^ nbits))).toOption else none

end Sys2Proof
end

