-- ==== Sys2Proof/Config.lean ====
section
/-! DEFINITION. What an implementation fixes (the parameters of 00_scope.md R5) and the free values. -/

namespace Sys2Proof.Config

/-- How a complex product is rounded (00_scope.md R5, 40_common.md R224). -/
inductive CMulMode where
  | separate
  | fused
  deriving DecidableEq, Repr

/-- The implementation parameters that CAP reports (00_scope.md R5, 10_state.md R34). -/
structure Params where
  logdMax : Nat
  logmMax : Nat
  dmemLogw : Nat
  cmulMode : CMulMode
  deriving DecidableEq, Repr

/-- The default of each parameter (00_scope.md R5). -/
def defaults : Params :=
  { logdMax := 16, logmMax := 17, dmemLogw := 18, cmulMode := .separate }

/-- Each parameter lies in its range (00_scope.md R5; 92_eei_decisions.md, open parameters). -/
abbrev Params.wf (p : Params) : Prop :=
  p.logdMax ≤ 16 ∧ (2 ≤ p.logmMax ∧ p.logmMax ≤ 17) ∧ (1 ≤ p.dmemLogw ∧ p.dmemLogw ≤ 19)

/-- FREE VALUE: what BK holds where 93_implementation_defined.md U3 gives it no value (log 7). -/
opaque freeBk : Nat → BitVec 7

/-- FREE VALUE: what MU holds where 93_implementation_defined.md U3 gives it no value (log 7). -/
opaque freeMu : Nat → BitVec 66

/-- OPEN parameter: the aperture is the `baseIndex`-th 16 MiB block of the host bus (00_scope.md R5,
92_eei_decisions.md D2; log 19). -/
opaque baseIndex : Nat

/-- BASE, the bus address of the aperture. -/
def base : Nat := baseIndex * 2 ^ 24

/-- The bus address of a byte offset of the aperture (20_memory.md R100). -/
def busAddress (offset : BitVec 24) : Nat := base + offset.toNat

end Sys2Proof.Config
end

