-- ==== Sys2Proof/Machine/State.lean ====
section
/-! DEFINITION. The state of the core as plain data, its faults and refusals, and the state after reset. -/

namespace Sys2Proof.Machine

/-- The error codes of 60_exceptions.md R401. Codes 13 to 15 are never produced (93_implementation_defined.md
U7), so no constructor stands for them. -/
inductive ErrCode where
  | ok | illegal | nomcfg | noccfg | limit | len | range | overlap | operand | pow2 | modulus | root | inv
  deriving DecidableEq, Repr

/-- The fields of STATUS (10_state.md R37). Its reserved bits read 0 and have no storage. -/
structure Status where
  busy : Bool
  err : Bool
  errcode : ErrCode
  mcfgValid : Bool
  ccfgValid : Bool
  deriving DecidableEq, Repr

/-- The three event bits of IRQ_STATUS, or the three enable bits of IRQ_ENABLE (10_state.md R38, R39). -/
structure IrqBits where
  done : Bool
  err : Bool
  ovr : Bool
  deriving DecidableEq, Repr

/-- The staging registers that only mcfg and ccfg sample (10_state.md R42 to R47). -/
structure Staging where
  modulus : Dword
  root : Dword
  rootInv : Dword
  dInv : Dword
  degree : Word
  clen : Word
  deriving DecidableEq, Repr

/-- What the sequencer captures at acceptance: the four values of 10_state.md R70, and of the acceptance
snapshot S0 (40_common.md R200) the part the host can still change while BUSY = 1 (log 3). -/
structure Latch where
  cmd : Word
  src : Word
  dst : Word
  tbl : Word
  s0 : Staging
  deriving DecidableEq, Repr

/-- The named registers of 10_state.md R31. -/
inductive Reg where
  | id | version | cap | ctrl | cmd | status | irqStatus | irqEnable | errInfo
  | srcBase | dstBase | tblBase
  | modLo | modHi | rootLo | rootHi | rootInvLo | rootInvHi | dInvLo | dInvHi
  | degree | clen | actModLo | actModHi | actLogd | actLogm
  deriving DecidableEq, Repr

/-- The width of a host access. Only `word` is a legal access (20_memory.md R103; log 15). -/
inductive AccessSize where
  | byte | half | word
  deriving DecidableEq, Repr

/-- One host-bus access: byte offset, and for a write the data and the four byte strobes (20_memory.md R100). -/
inductive Access where
  | read (addr : BitVec 24) (size : AccessSize)
  | write (addr : BitVec 24) (size : AccessSize) (data : Word) (strobes : BitVec 4)
  deriving DecidableEq, Repr

/-- The port's answer to an access (20_memory.md R100, R108). -/
inductive Resp where
  | readOkay (data : Word)
  | readError (data : Word)
  | writeOkay
  | writeError
  deriving DecidableEq, Repr

/-- What happens next, from outside or by the sequencer (10_state.md R30; log 2): a host access, the
sequencer's turn, a level of the pin rst_n, or the supply going off and on again. -/
inductive Event where
  | access (a : Access)
  | sequencer
  | rst (level : Bool)
  | powerCycle
  deriving DecidableEq, Repr

/-- The memories, one list of aperture bytes: a word is written when its four bytes are listed
(20_memory.md R101, R120; log 5). -/
abbrev Memory := List Host.Cell

/-- The whole state. `inbox`, `responses` and `free` are the model's own (log 2, 16, 7). -/
structure State where
  params : Config.Params
  inbox : List Event
  responses : List Resp
  rstN : Bool
  status : Status
  irqStatus : IrqBits
  irqEnable : IrqBits
  errInfo : Word
  srcBase : Word
  dstBase : Word
  tblBase : Word
  staging : Staging
  actMod : Dword
  actLogd : BitVec 5
  actLogm : BitVec 5
  latch : Latch
  bk : BitVec 7
  mu : BitVec 66
  mem : Memory
  free : Nat
  deriving DecidableEq, Repr

/-- Why the model stops. -/
inductive Fault where
  /-- UNINIT_READ (20_memory.md R120): a command or a host read read the unwritten 32-bit word at this
  aperture offset. Raised by the memory reads of Machine/Ops.lean and Machine/Bus.lean. Safe: the
  hardware goes on with some unspecified pattern. -/
  | uninitRead (offset : Nat)
  /-- A host access was presented while rst_n is low; it is never answered (70_reset_and_hazards.md R450,
  93_implementation_defined.md U16). Raised by the port, Machine/Bus.lean. Safe (log 11). -/
  | portInReset
  deriving DecidableEq, Repr

/-- Why an instruction has no meaning. -/
inductive Refusal where
  /-- Raised by exec's arm of an instruction that has no meaning yet; no arm does so now. Safe. -/
  | notModelled (mnemonic : String)
  deriving DecidableEq, Repr

/-- How a command stops before its completion's success: it raises an error (00_scope.md R10), or the
model faults (20_memory.md R120). -/
inductive Stop where
  | raise (e : ErrCode) (info : Word)
  | fault (f : Fault)
  deriving DecidableEq, Repr

/-- STATUS after reset (10_state.md R37). -/
def Status.reset : Status :=
  { busy := false, err := false, errcode := .ok, mcfgValid := false, ccfgValid := false }

/-- IRQ_STATUS and IRQ_ENABLE after reset (10_state.md R38, R39). -/
def IrqBits.reset : IrqBits := { done := false, err := false, ovr := false }

/-- The staging registers after reset (10_state.md R42 to R47). -/
def Staging.reset : Staging :=
  { modulus := 0, root := 0, rootInv := 0, dInv := 0, degree := 0, clen := 0 }

/-- The latched command after reset (10_state.md R70, 70_reset_and_hazards.md R450). -/
def Latch.reset : Latch := { cmd := 0, src := 0, dst := 0, tbl := 0, s0 := Staging.reset }

/-- The core right after a power-on reset has been released, with the default parameters
(70_reset_and_hazards.md R450, R451). BK and MU are DESIGN CHOICE 0 (log 6); the model's own fields are
log 18. -/
def State.reset : State :=
  { params := Config.defaults, inbox := [], responses := [], rstN := true, status := Status.reset
    irqStatus := IrqBits.reset, irqEnable := IrqBits.reset, errInfo := 0
    srcBase := 0, dstBase := 0, tblBase := 0, staging := Staging.reset
    actMod := 0, actLogd := 0, actLogm := 0, latch := Latch.reset, bk := 0, mu := 0, mem := [], free := 0 }

end Sys2Proof.Machine
end

