-- ==== Sys2Proof/Machine/Ops.lean ====
section
/-! DEFINITION. The named operations over memory and registers: reading and writing the memories,
acceptance of a command, and the two ends of a command (success, and the error completion that stands
for taking an exception). -/

namespace Sys2Proof.Machine

/-- The byte at an aperture offset, if it has been written. -/
def Memory.get : Memory → Nat → Option Byte
  | [], _ => none
  | (b, v) :: m, a => if a = b then some v else Memory.get m a

/-- Writing a byte: the list stays sorted by offset, with one cell for each. -/
def Memory.set : Memory → Nat → Byte → Memory
  | [], a, v => [(a, v)]
  | (b, w) :: m, a, v =>
    if a < b then (a, v) :: (b, w) :: m
    else if a = b then (a, v) :: m
    else (b, w) :: Memory.set m a v

/-- The canonical form: offsets strictly rising. An unlisted offset has no value, so no listed cell can
equal what an unlisted one reads as. -/
abbrev Memory.wf (m : Memory) : Prop := m.Pairwise fun x y => x.1 < y.1

/-- The `n` bytes from `lo` on become unwritten (70_reset_and_hazards.md R453). -/
def Memory.erase (m : Memory) (lo n : Nat) : Memory :=
  m.filter fun c => !(decide (lo ≤ c.1) && decide (c.1 < lo + n))

/-- Byte `b` of a word: bits [8b+7:8b] (20_memory.md R102). -/
def byteOf (w : Word) (b : Nat) : Byte := w.extractLsb' (8 * b) 8

/-- The 32-bit word at an offset, little-endian, if all of it has been written (20_memory.md R102, R120). -/
def Memory.readWord (m : Memory) (a : Nat) : Option Word :=
  match m.get a, m.get (a + 1), m.get (a + 2), m.get (a + 3) with
  | some b0, some b1, some b2, some b3 => some (b3 ++ b2 ++ b1 ++ b0)
  | _, _, _, _ => none

/-- Writing a 32-bit word, little-endian (20_memory.md R102). -/
def Memory.writeWord (m : Memory) (a : Nat) (w : Word) : Memory :=
  (((m.set a (byteOf w 0)).set (a + 1) (byteOf w 1)).set (a + 2) (byteOf w 2)).set (a + 3) (byteOf w 3)

/-- Writing a 64-bit table entry, least significant word first (20_memory.md R102). -/
def Memory.writeDword (m : Memory) (a : Nat) (v : Dword) : Memory :=
  (m.writeWord a (v.extractLsb' 0 32)).writeWord (a + 4) (v.extractLsb' 32 32)

/-- Writing all four words of a 128-bit entry (20_memory.md R102, R120). -/
def Memory.writeEntry (m : Memory) (a : Nat) (v : Entry) : Memory :=
  (m.writeDword a (v.extractLsb' 0 64)).writeDword (a + 8) (v.extractLsb' 64 64)

/-- Successive words of 32 bits from offset `a` on. -/
def Memory.writeWords (m : Memory) (a : Nat) : List Word → Memory
  | [] => m
  | v :: vs => Memory.writeWords (m.writeWord a v) (a + 4) vs

/-- Successive table entries of 64 bits from offset `a` on. -/
def Memory.writeDwords (m : Memory) (a : Nat) : List Dword → Memory
  | [] => m
  | v :: vs => Memory.writeDwords (m.writeDword a v) (a + 8) vs

/-- Successive entries of 128 bits from offset `a` on. -/
def Memory.writeEntries (m : Memory) (a : Nat) : List Entry → Memory
  | [] => m
  | v :: vs => Memory.writeEntries (m.writeEntry a v) (a + 16) vs

/-- A command's read of one word: an unwritten word is the fault UNINIT_READ (20_memory.md R120). -/
def State.loadWord (s : State) (a : Nat) : Except Stop Word :=
  match s.mem.readWord a with
  | some w => .ok w
  | none => .error (.fault (.uninitRead a))

/-- A command's read of two words, least significant first. -/
def State.loadDword (s : State) (a : Nat) : Except Stop Dword := do
  let lo ← s.loadWord a
  let hi ← s.loadWord (a + 4)
  return hi ++ lo

/-- A command's read of all four words of an entry. -/
def State.loadEntry (s : State) (a : Nat) : Except Stop Entry := do
  let lo ← s.loadDword a
  let hi ← s.loadDword (a + 8)
  return hi ++ lo

/-- Where each memory lies in the aperture (20_memory.md R101). -/
def fwdAddr (i : Nat) : Nat := 0x100000 + 8 * i
def invAddr (i : Nat) : Nat := 0x180000 + 8 * i
def sinvAddr (i : Nat) : Nat := 0x200000 + 8 * i
def rotgAddr (j : Nat) : Nat := 0x280000 + 4 * j
def crootAddr (k : Nat) : Nat := 0x400000 + 16 * k
def dmemAddr (e : Nat) : Nat := 0x800000 + 16 * e

/-- Acceptance of the command word `v` (40_common.md R200): the latches, the snapshot, BUSY set and the
error record cleared. -/
def State.accept (s : State) (v : Word) : State :=
  { s with
    latch := { cmd := v, src := s.srcBase, dst := s.dstBase, tbl := s.tblBase, s0 := s.staging }
    status := { s.status with busy := true, err := false, errcode := .ok }
    errInfo := 0 }

/-- A CMD write that is not accepted because BUSY = 1 (40_common.md R201). -/
def State.overrun (s : State) : State := { s with irqStatus := { s.irqStatus with ovr := true } }

/-- Completion with success (40_common.md R203): `s` already holds the writes of the compute phase. -/
def State.succeed (s : State) : State :=
  { s with
    status := { s.status with busy := false }
    irqStatus := { s.irqStatus with done := true } }

/-- Completion with an error (40_common.md R203, 60_exceptions.md R405), the core's counterpart of taking
an exception (R406): the code and the detail value are recorded, BUSY falls, ERR and DONE are set.
`effect` is the error effect the command's rule names (mcfg and ccfg clear their VALID bit). -/
def State.fail (s : State) (effect : Status → Status) (e : ErrCode) (info : Word) : State :=
  { s with
    status := { effect s.status with busy := false, err := true, errcode := e }
    errInfo := info
    irqStatus := { s.irqStatus with done := true, err := true } }

/-- The completion step of a command, from the result of its two phases: the state with its writes
applied, or the reason it stopped (40_common.md R202, R203). -/
def State.finish (s : State) (effect : Status → Status) :
    Except Stop State → Host.Outcome State Fault Refusal
  | .ok t => .next t.succeed
  | .error (.raise e info) => .next (s.fail effect e info)
  | .error (.fault f) => .fault f

/-- No error effect: every command but mcfg and ccfg (40_common.md R203). -/
def noEffect (st : Status) : Status := st

/-- The error effect of mcfg (41_modular.md R250). -/
def dropMcfg (st : Status) : Status := { st with mcfgValid := false }

/-- The error effect of ccfg (42_complex.md R300). -/
def dropCcfg (st : Status) : Status := { st with ccfgValid := false }

/-- The two phases of a command that maps buffers to an output buffer: all outputs go to DST_L on
(40_common.md R204). -/
def State.finishBuffer (s : State) (outs : Except Stop (List Entry)) :
    Host.Outcome State Fault Refusal :=
  s.finish noEffect (outs.map fun vs =>
    { s with mem := s.mem.writeEntries (dmemAddr s.latch.dst.toNat) vs })

end Sys2Proof.Machine
end

