-- ==== Sys2Proof/Machine/Flags.lean ====
section
/-! DEFINITION. The status and interrupt bits: their words as software reads them, the error codes, the
write-one-to-clear rule and the interrupt line. -/

namespace Sys2Proof.Machine

/-- The numbers of the error codes (60_exceptions.md R401). -/
def ErrCode.code : ErrCode → BitVec 4
  | .ok => 0
  | .illegal => 1
  | .nomcfg => 2
  | .noccfg => 3
  | .limit => 4
  | .len => 5
  | .range => 6
  | .overlap => 7
  | .operand => 8
  | .pow2 => 9
  | .modulus => 10
  | .root => 11
  | .inv => 12

/-- One bit at position `n` of a register word. -/
def bitAt (b : Bool) (n : Nat) : Word := (BitVec.ofBool b).setWidth 32 <<< n

/-- STATUS as software reads it (10_state.md R37). -/
def Status.word (st : Status) : Word :=
  bitAt st.busy 0 ||| bitAt st.err 1 ||| (st.errcode.code.setWidth 32 <<< 8) |||
    bitAt st.mcfgValid 16 ||| bitAt st.ccfgValid 17

/-- IRQ_STATUS or IRQ_ENABLE as software reads it (10_state.md R38, R39). -/
def IrqBits.word (b : IrqBits) : Word := bitAt b.done 0 ||| bitAt b.err 1 ||| bitAt b.ovr 2

/-- The three bits of a written word; its other bits are ignored (10_state.md R39). -/
def IrqBits.ofWord (v : Word) : IrqBits :=
  { done := v.getLsbD 0, err := v.getLsbD 1, ovr := v.getLsbD 2 }

/-- Write one to clear (10_state.md R38). -/
def IrqBits.clear (b : IrqBits) (v : Word) : IrqBits :=
  { done := b.done && !v.getLsbD 0, err := b.err && !v.getLsbD 1, ovr := b.ovr && !v.getLsbD 2 }

/-- The interrupt output (60_exceptions.md R408, 10_state.md R73). -/
def State.irq (s : State) : Bool :=
  (s.irqStatus.done && s.irqEnable.done) || (s.irqStatus.err && s.irqEnable.err) ||
    (s.irqStatus.ovr && s.irqEnable.ovr)

end Sys2Proof.Machine
end

