-- ==== Sys2Proof/Machine/Operands.lean ====
section
/-! DEFINITION. The operand forms of the commands: lengths, buffers and tables, the two readings of an
entry, and the checks several commands share. -/

namespace Sys2Proof.Machine

/-- LOGN_MAX = max(LOGD_MAX, LOGM_MAX) (00_scope.md R5). -/
def lognMax (p : Config.Params) : Nat := max p.logdMax p.logmMax

/-- The number of DMEM entries (10_state.md R60). -/
def dmemSize (p : Config.Params) : Nat := 2 ^ p.dmemLogw

/-- a, the modulus of the active context (10_state.md R48). -/
def State.ctxMod (s : State) : Nat := s.actMod.toNat

/-- d = 2^ACT_LOGD (41_modular.md R252). -/
def State.ctxDegree (s : State) : Nat := 2 ^ s.actLogd.toNat

/-- M = 2^ACT_LOGM (42_complex.md R302). -/
def State.ctxLen (s : State) : Nat := 2 ^ s.actLogm.toNat

/-- A complex value: two binary64 patterns (40_common.md R220). -/
structure Cplx where
  re : Dword
  im : Dword
  deriving DecidableEq, Repr

/-- The complex reading of an entry (10_state.md R61). -/
def Cplx.ofEntry (v : Entry) : Cplx := { re := v.extractLsb' 0 64, im := v.extractLsb' 64 64 }

/-- A complex value as an entry (10_state.md R61). -/
def Cplx.toEntry (z : Cplx) : Entry := z.im ++ z.re

/-- A residue as an entry: bits [127:64] are written as 0 (10_state.md R61). -/
def residueEntry (x : Nat) : Entry := (BitVec.ofNat 64 x).setWidth 128

/-- DMEM entry `e`, all four words (20_memory.md R112). -/
def State.dRead (s : State) (e : Nat) : Except Stop Entry := s.loadEntry (dmemAddr e)

/-- The modular reading of DMEM entry `e`: words 0 and 1 only (10_state.md R61, 20_memory.md R120). -/
def State.dReadResidue (s : State) (e : Nat) : Except Stop Nat :=
  (s.loadDword (dmemAddr e)).map BitVec.toNat

/-- The complex reading of DMEM entry `e` (10_state.md R61). -/
def State.dReadCplx (s : State) (e : Nat) : Except Stop Cplx := (s.dRead e).map Cplx.ofEntry

/-- FWD[i], INV[i], SINV[i], CROOT[k], ROTG[j] (10_state.md R62 to R64). -/
def State.fwdAt (s : State) (i : Nat) : Except Stop Nat := (s.loadDword (fwdAddr i)).map BitVec.toNat
def State.invAt (s : State) (i : Nat) : Except Stop Nat := (s.loadDword (invAddr i)).map BitVec.toNat
def State.sinvAt (s : State) (i : Nat) : Except Stop Nat := (s.loadDword (sinvAddr i)).map BitVec.toNat
def State.crootAt (s : State) (k : Nat) : Except Stop Cplx :=
  (s.loadEntry (crootAddr k)).map Cplx.ofEntry
def State.rotgAt (s : State) (j : Nat) : Except Stop Nat := (s.loadWord (rotgAddr j)).map BitVec.toNat

/-- `n` successive reads from index `i` on, in index order. -/
def readFrom {α : Type} (f : Nat → Except Stop α) (i : Nat) : Nat → Except Stop (List α)
  | 0 => .ok []
  | n + 1 => do
    let v ← f i
    let vs ← readFrom f (i + 1) n
    return v :: vs

/-- The check that raises `e` unless `c` holds. -/
def require (c : Prop) [Decidable c] (e : ErrCode) (info : Word) : Except Stop Unit :=
  if c then .ok () else .error (.raise e info)

/-- A modular context is valid (41_modular.md R252 to R254). -/
def State.checkMcfg (s : State) : Except Stop Unit := require (s.status.mcfgValid = true) .nomcfg 0

/-- A complex context is valid (42_complex.md R302 to R306). -/
def State.checkCcfg (s : State) : Except Stop Unit := require (s.status.ccfgValid = true) .noccfg 0

/-- CHECK_LIMIT(k) (40_common.md R206). -/
def State.checkLimit (s : State) (k : Nat) : Except Stop Unit :=
  require (k ≤ lognMax s.params) .limit 0

/-- CHECK_RANGE(n, {SRC, DST}), and the table when `useTbl` (40_common.md R207). -/
def State.checkRange (s : State) (n : Nat) (useTbl : Bool) : Except Stop Unit := do
  require (s.latch.src.toNat + n ≤ dmemSize s.params) .range 1
  require (s.latch.dst.toNat + n ≤ dmemSize s.params) .range 2
  require (useTbl = true → s.latch.tbl.toNat + n ≤ dmemSize s.params) .range 3

/-- The ranges of `n` entries that start at `b` and at `c` have no entry in common. -/
abbrev apart (n b c : Nat) : Prop := b + n ≤ c ∨ c + n ≤ b

/-- CHECK_OVERLAP(n, {}), and the table when `useTbl` (40_common.md R208). -/
def State.checkOverlap (s : State) (n : Nat) (useTbl : Bool) : Except Stop Unit := do
  require (s.latch.src = s.latch.dst ∨ apart n s.latch.src.toNat s.latch.dst.toNat) .overlap 2
  require (useTbl = true → apart n s.latch.tbl.toNat s.latch.dst.toNat) .overlap 3

/-- CHECK_RESIDUE over the `n` elements `f base .. f (base + n - 1)`, from index `j` on, each read as its
turn comes: the first that is not below `a` is reported (40_common.md R209; log 9). Answers the elements. -/
def checkResidues (f : Nat → Except Stop Nat) (a : Nat) (tag : Word) (base j : Nat) :
    Nat → Except Stop (List Nat)
  | 0 => .ok []
  | n + 1 => do
    let v ← f (base + j)
    require (v < a) .operand (tag ||| BitVec.ofNat 32 j)
    let vs ← checkResidues f a tag base (j + 1) n
    return v :: vs

end Sys2Proof.Machine
end

