-- ==== Sys2Proof/Machine/Butterfly.lean ====
section
/-! DEFINITION. What every transform shares: bit reversal and the stages of butterflies, in the loop
order of 00_scope.md R11. -/

namespace Sys2Proof.Machine

/-- brev_k(j) (40_common.md R210). -/
def brev (k j : Nat) : Nat := ((List.range k).map fun b => (j.testBit b).toNat * 2 ^ (k - 1 - b)).sum

/-- BREV_VEC of a sequence of length 2^k (40_common.md R211). -/
def brevVec {α : Type} (k : Nat) (v : List α) : List α :=
  (List.range (2 ^ k)).filterMap fun j => v[brev k j]?

/-- The pairs of the stage of block size 2^s over a buffer of 2^k elements, in the order of the loops:
for each block and each i below half the block, (e, o, i) (41_modular.md R255). -/
def stagePairs (k s : Nat) : List (Nat × Nat × Nat) :=
  (List.range (2 ^ k / 2 ^ s)).flatMap fun blk =>
    (List.range (2 ^ s / 2)).map fun i => (blk * 2 ^ s + i, blk * 2 ^ s + i + 2 ^ s / 2, i)

/-- The butterflies of a list of pairs, in order, each seeing the writes of those before it
(00_scope.md R11). `tw i` reads the twiddle of pair index i. An index of a pair is always inside the
buffer (41_modular.md R255), so the last case is never taken. -/
def runPairs {α τ : Type} (tw : Nat → Except Stop τ) (bfly : τ → α → α → α × α) :
    List (Nat × Nat × Nat) → List α → Except Stop (List α)
  | [], A => .ok A
  | (e, o, i) :: ps, A => do
    let w ← tw i
    match A[e]?, A[o]? with
    | some u, some v =>
      let p := bfly w u v
      runPairs tw bfly ps ((A.set e p.1).set o p.2)
    | _, _ => runPairs tw bfly ps A

/-- The stages of a transform, in the order given; `tw s i` reads the twiddle of stage s. -/
def runStages {α τ : Type} (tw : Nat → Nat → Except Stop τ) (bfly : τ → α → α → α × α) (k : Nat) :
    List Nat → List α → Except Stop (List α)
  | [], A => .ok A
  | s :: ss, A => do
    let B ← runPairs (tw s) bfly (stagePairs k s) A
    runStages tw bfly k ss B

/-- Stages 1 .. k, and k .. 1. -/
def stagesUp (k : Nat) : List Nat := (List.range k).map (· + 1)
def stagesDown (k : Nat) : List Nat := (stagesUp k).reverse

end Sys2Proof.Machine
end

