-- ==== Sys2Proof/Machine/Common.lean ====
section
/-! DEFINITION. The commands of neither family: nop and brev (40_common.md R230, R231). -/

namespace Sys2Proof.Machine

/-- nop (40_common.md R230). -/
def execNop (s : State) : Host.Outcome State Fault Refusal := s.finish noEffect (.ok s)

/-- The two phases of brev: whole entries in bit-reversed order (40_common.md R231). -/
def brevOutputs (k : Nat) (s : State) : Except Stop (List Entry) := do
  s.checkLimit k
  s.checkRange (2 ^ k) false
  s.checkOverlap (2 ^ k) false
  let v ← readFrom s.dRead s.latch.src.toNat (2 ^ k)
  return brevVec k v

/-- brev k (40_common.md R231). -/
def execBrev (k : Nat) (s : State) : Host.Outcome State Fault Refusal :=
  s.finishBuffer (brevOutputs k s)

end Sys2Proof.Machine
end

