-- ==== Sys2Proof/Machine/Float.lean ====
section
/-! DEFINITION. IEEE 754 binary64 as the complex commands use it: exact values, rounding to nearest with
ties to even, the elementary operations, and complex arithmetic (40_common.md R220 to R226; log 13). -/

namespace Sys2Proof.Machine

/-- The exact value of a binary64 pattern or of an operation before rounding: a finite one is
(-1)^neg * m * 2^e, and zero keeps its sign. -/
inductive Exact where
  | nan
  | inf (neg : Bool)
  | fin (neg : Bool) (m : Nat) (e : Int)
  deriving DecidableEq, Repr

/-- The canonical quiet NaN (40_common.md R222). -/
def canonicalNaN : Dword := 0x7FF8000000000000#64

/-- The pattern of plus infinity, without the sign bit. -/
def infinityBits : Nat := 0x7FF0000000000000

/-- The fields of a pattern: sign 63, exponent [62:52] with bias 1023, fraction [51:0], subnormals as they
are (40_common.md R220, R223). -/
def unpack (x : Dword) : Exact :=
  let neg := x.getLsbD 63
  let ex := (x.extractLsb' 52 11).toNat
  let fr := (x.extractLsb' 0 52).toNat
  if ex = 2047 then (if fr = 0 then .inf neg else .nan)
  else if ex = 0 then .fin neg fr (-1074)
  else .fin neg (2 ^ 52 + fr) ((ex : Int) - 1075)

/-- `m / 2^d` to the nearest integer, ties to even. -/
def shiftRNE (m d : Nat) : Nat :=
  let q := m / 2 ^ d
  let r := m % 2 ^ d
  if 2 * r < 2 ^ d then q
  else if 2 ^ d < 2 * r then q + 1
  else q + q % 2

/-- A sign and the 63 bits below it as a pattern. -/
def signed (neg : Bool) (bits : Nat) : Dword :=
  BitVec.ofNat 64 ((if neg then 2 ^ 63 else 0) + bits)

/-- The exponent of the last place that a positive value `m * 2^e` is rounded to: 53 significant bits,
and never below the subnormal grid 2^-1074. -/
def lastPlace (m : Nat) (e : Int) : Int := max (e + (m.log2 : Int) - 52) (-1074)

/-- `m * 2^e` as a multiple of `2^q`, rounded to the nearest, ties to even. -/
def roundTo (m : Nat) (e q : Int) : Nat :=
  if q ≤ e then m * 2 ^ (e - q).toNat else shiftRNE m (q - e).toNat

/-- RN of a finite value (40_common.md R221). With `M` the rounded significand and `q` the exponent of its
last place, the pattern is (q + 1074) * 2^52 + M: a subnormal has q = -1074, the hidden bit of a normal
one adds 1 to the exponent field, and a significand rounded up to 2^53 carries into it. -/
def roundFinite (neg : Bool) (m : Nat) (e : Int) : Dword :=
  if m = 0 then signed neg 0
  else
    let q := lastPlace m e
    let bits := (q + 1074).toNat * 2 ^ 52 + roundTo m e q
    if infinityBits ≤ bits then signed neg infinityBits else signed neg bits

/-- RN, with every NaN canonical (40_common.md R221, R222). -/
def rn : Exact → Dword
  | .nan => canonicalNaN
  | .inf neg => signed neg infinityBits
  | .fin neg m e => roundFinite neg m e

/-- The signed significand. -/
def signedInt (neg : Bool) (m : Nat) : Int := if neg then -(m : Int) else (m : Int)

/-- The exact negation. -/
def Exact.neg : Exact → Exact
  | .nan => .nan
  | .inf s => .inf !s
  | .fin s m e => .fin (!s) m e

/-- The exact sum: infinities of opposite sign are invalid; an exact zero sum is minus zero only when both
operands are negative (40_common.md R221). -/
def Exact.add : Exact → Exact → Exact
  | .nan, _ => .nan
  | _, .nan => .nan
  | .inf s, .inf t => if s = t then .inf s else .nan
  | .inf s, .fin _ _ _ => .inf s
  | .fin _ _ _, .inf t => .inf t
  | .fin s m e, .fin t n f =>
    let g := min e f
    let v := signedInt s (m * 2 ^ (e - g).toNat) + signedInt t (n * 2 ^ (f - g).toNat)
    if v = 0 then .fin (s && t) 0 g else .fin (decide (v < 0)) v.natAbs g

/-- The exact product: zero times infinity is invalid (40_common.md R221). -/
def Exact.mul : Exact → Exact → Exact
  | .nan, _ => .nan
  | _, .nan => .nan
  | .inf s, .inf t => .inf (s ^^ t)
  | .inf s, .fin t n _ => if n = 0 then .nan else .inf (s ^^ t)
  | .fin s m _, .inf t => if m = 0 then .nan else .inf (s ^^ t)
  | .fin s m e, .fin t n f => .fin (s ^^ t) (m * n) (e + f)

/-- The exact quotient by 2^k. -/
def Exact.divPow2 (k : Nat) : Exact → Exact
  | .nan => .nan
  | .inf s => .inf s
  | .fin s m e => .fin s m (e - (k : Int))

/-- FADD, FSUB, FMUL, FMA, FDIV by 2^k (40_common.md R221). -/
def fadd (x y : Dword) : Dword := rn ((unpack x).add (unpack y))
def fsub (x y : Dword) : Dword := rn ((unpack x).add (unpack y).neg)
def fmul (x y : Dword) : Dword := rn ((unpack x).mul (unpack y))
def fma (x y : Dword) (z : Exact) : Dword := rn (((unpack x).mul (unpack y)).add z)
def fdivPow2 (x : Dword) (k : Nat) : Dword := rn ((unpack x).divPow2 k)

/-- CMUL(w, z): `w` is the table operand, `z` the data operand (40_common.md R224). -/
def cmul (mode : Config.CMulMode) (w z : Cplx) : Cplx :=
  match mode with
  | .separate =>
    { re := fsub (fmul w.re z.re) (fmul w.im z.im)
      im := fadd (fmul w.re z.im) (fmul w.im z.re) }
  | .fused =>
    { re := fma w.re z.re (unpack (fmul w.im z.im)).neg
      im := fma w.re z.im (unpack (fmul w.im z.re)) }

/-- CADD, CSUB and CSCALE by n = 2^k (40_common.md R225). -/
def cadd (u v : Cplx) : Cplx := { re := fadd u.re v.re, im := fadd u.im v.im }
def csub (u v : Cplx) : Cplx := { re := fsub u.re v.re, im := fsub u.im v.im }
def cscale (k : Nat) (u : Cplx) : Cplx := { re := fdivPow2 u.re k, im := fdivPow2 u.im k }

/-- CBFLY: the new even and the new odd value (40_common.md R226). -/
def cbfly (mode : Config.CMulMode) (w u v : Cplx) : Cplx × Cplx :=
  let t := cmul mode w v
  (cadd u t, csub u t)

/-- The butterfly of embi (42_complex.md R306). -/
def cbflyInv (mode : Config.CMulMode) (w u v : Cplx) : Cplx × Cplx :=
  (cadd u v, cmul mode w (csub u v))

end Sys2Proof.Machine
end

