-- ==== Sys2Proof/Machine/Modular.lean ====
section
/-! DEFINITION. Modular arithmetic and the modular commands: mcfg, ntt, fttf, ftti (40_common.md R212 to
R215, 41_modular.md). -/

namespace Sys2Proof.Machine

/-- MADD: the exact least non-negative residue (40_common.md R212, R213). -/
def madd (a x y : Nat) : Nat := (x + y) % a

/-- MSUB: x - y + a when x < y (40_common.md R212). -/
def msub (a x y : Nat) : Nat := (((x : Int) - (y : Int)) % (a : Int)).toNat

/-- MMUL: the exact product reduced (40_common.md R212, R213). -/
def mmul (a x y : Nat) : Nat := (x * y) % a

/-- BK: the bit length of the modulus (10_state.md R71). -/
def bitLength (a : Nat) : Nat := a.log2 + 1

/-- MU = floor(2^(2 BK) / a) (10_state.md R71). -/
def barrettMu (a : Nat) : Nat := 2 ^ (2 * bitLength a) / a

/-- The reference reduction datapath, Barrett with the constants BK and MU (40_common.md R214). No command
uses it: R212 is what a command computes. -/
def barrett (a bk mu x y : Nat) : Nat :=
  let p := x * y
  let q := ((p >>> (bk - 1)) * mu) >>> (bk + 1)
  let r := p - q * a
  let r1 := if r ≥ a then r - a else r
  if r1 ≥ a then r1 - a else r1

/-- MBFLY(e, o, w): the new even and the new odd element (40_common.md R215). -/
def mbfly (a : Nat) (w e o : Nat) : Nat × Nat :=
  let t := mmul a w o
  (madd a e t, msub a e t)

/-- The table index of stage s and pair index i: i << (1 + k - s) (41_modular.md R255). -/
def twiddleIndex (k s i : Nat) : Nat := i <<< (1 + k - s)

/-- NTT_CORE(x, T) with `T j` the read of table entry j (41_modular.md R255). -/
def nttCore (a k : Nat) (T : Nat → Except Stop Nat) (x : List Nat) : Except Stop (List Nat) :=
  runStages (fun s i => T (twiddleIndex k s i)) (mbfly a) k (stagesUp k) (brevVec k x)

/-- The outputs of a modular transform as entries (41_modular.md R252). -/
def residueEntries (vs : List Nat) : List Entry := vs.map residueEntry

/-- The products of the twist, from index i on (41_modular.md R253, R254). -/
def twist (a : Nat) (T : Nat → Except Stop Nat) (i : Nat) : List Nat → Except Stop (List Nat)
  | [] => .ok []
  | x :: xs => do
    let t ← T i
    let ys ← twist a T (i + 1) xs
    return mmul a x t :: ys

/-- The two phases of ntt.fwd and ntt.inv, whose table `T` has d entries (41_modular.md R252). -/
def nttOutputs (k : Nat) (T : Nat → Except Stop Nat) (s : State) : Except Stop (List Entry) := do
  s.checkMcfg
  s.checkLimit k
  require (2 ^ k = s.ctxDegree) .len 0
  s.checkRange (2 ^ k) false
  s.checkOverlap (2 ^ k) false
  let x ← checkResidues s.dReadResidue s.ctxMod 0 s.latch.src.toNat 0 (2 ^ k)
  let A ← nttCore s.ctxMod k T x
  return residueEntries A

/-- ntt.fwd k: the table is FWD (41_modular.md R252). -/
def execNttFwd (k : Nat) (s : State) : Host.Outcome State Fault Refusal :=
  s.finishBuffer (nttOutputs k s.fwdAt s)

/-- ntt.inv k: the table is INV (41_modular.md R252). -/
def execNttInv (k : Nat) (s : State) : Host.Outcome State Fault Refusal :=
  s.finishBuffer (nttOutputs k s.invAt s)

/-- The tag of a table entry in ERRINFO (40_common.md R209). -/
def tableTag : Word := 0x80000000

/-- The two phases of ntt.usr: the table is n entries at TBL_L, all checked (41_modular.md R252). -/
def nttUsrOutputs (k : Nat) (s : State) : Except Stop (List Entry) := do
  s.checkMcfg
  s.checkLimit k
  s.checkRange (2 ^ k) true
  s.checkOverlap (2 ^ k) true
  let x ← checkResidues s.dReadResidue s.ctxMod 0 s.latch.src.toNat 0 (2 ^ k)
  let _ ← checkResidues s.dReadResidue s.ctxMod tableTag s.latch.tbl.toNat 0 (2 ^ k)
  let A ← nttCore s.ctxMod k (fun j => s.dReadResidue (s.latch.tbl.toNat + j)) x
  return residueEntries A

/-- ntt.usr k (41_modular.md R252). -/
def execNttUsr (k : Nat) (s : State) : Host.Outcome State Fault Refusal :=
  s.finishBuffer (nttUsrOutputs k s)

/-- The six checks of fttf and ftti, which end with the residues read (41_modular.md R253, R254). -/
def fttInputs (k : Nat) (s : State) : Except Stop (List Nat) := do
  s.checkMcfg
  s.checkLimit k
  require (2 ^ k = s.ctxDegree) .len 0
  s.checkRange (2 ^ k) false
  s.checkOverlap (2 ^ k) false
  checkResidues s.dReadResidue s.ctxMod 0 s.latch.src.toNat 0 (2 ^ k)

/-- The two phases of fttf: pre-twist by FWD, then NTT_CORE with FWD (41_modular.md R253). -/
def fttfOutputs (k : Nat) (s : State) : Except Stop (List Entry) := do
  let x ← fttInputs k s
  let y ← twist s.ctxMod s.fwdAt 0 x
  let A ← nttCore s.ctxMod k s.fwdAt y
  return residueEntries A

/-- fttf k (41_modular.md R253). -/
def execFttf (k : Nat) (s : State) : Host.Outcome State Fault Refusal :=
  s.finishBuffer (fttfOutputs k s)

/-- The two phases of ftti: NTT_CORE with INV, then post-twist by SINV (41_modular.md R254). -/
def fttiOutputs (k : Nat) (s : State) : Except Stop (List Entry) := do
  let x ← fttInputs k s
  let z ← nttCore s.ctxMod k s.invAt x
  let r ← twist s.ctxMod s.sinvAt 0 z
  return residueEntries r

/-- ftti k (41_modular.md R254). -/
def execFtti (k : Nat) (s : State) : Host.Outcome State Fault Refusal :=
  s.finishBuffer (fttiOutputs k s)

/-- The ten checks of mcfg over the staging registers of the snapshot, in order (41_modular.md R250). -/
def mcfgChecks (p : Config.Params) (st : Staging) : Except Stop Unit := do
  let d := st.degree.toNat
  let a := st.modulus.toNat
  let w := st.root.toNat
  let wi := st.rootInv.toNat
  let di := st.dInv.toNat
  require (st.degree ≠ 0 ∧ st.degree &&& (st.degree - 1) = 0) .pow2 0
  require (d ≤ 2 ^ p.logdMax) .limit 0
  require (2 ≤ a) .modulus 0
  require (w < a) .operand 1
  require (wi < a) .operand 2
  require (di < a) .operand 3
  require (w ^ (2 * d) % a = 1) .root 1
  require (w ^ d % a ≠ 1) .root 2
  require (w * wi % a = 1) .inv 2
  require ((d % a) * di % a = 1) .inv 3

/-- `n` entries: `x`, then each the previous one times `w` modulo `a` (41_modular.md R251). -/
def powerTable (a w x : Nat) : Nat → List Dword
  | 0 => []
  | n + 1 => BitVec.ofNat 64 x :: powerTable a w (mmul a x w) n

/-- The compute phase of mcfg (41_modular.md R251). -/
def mcfgCompute (s : State) (st : Staging) : State :=
  let d := st.degree.toNat
  let a := st.modulus.toNat
  { s with
    mem := ((s.mem.writeDwords (fwdAddr 0) (powerTable a st.root.toNat 1 d)).writeDwords
      (invAddr 0) (powerTable a st.rootInv.toNat 1 d)).writeDwords
      (sinvAddr 0) (powerTable a st.rootInv.toNat st.dInv.toNat d)
    actMod := st.modulus
    actLogd := BitVec.ofNat 5 d.log2
    bk := BitVec.ofNat 7 (bitLength a)
    mu := BitVec.ofNat 66 (barrettMu a)
    status := { s.status with mcfgValid := true } }

/-- mcfg (41_modular.md R250, R251). -/
def execMcfg (s : State) : Host.Outcome State Fault Refusal :=
  s.finish dropMcfg ((mcfgChecks s.params s.latch.s0).map fun _ => mcfgCompute s s.latch.s0)

end Sys2Proof.Machine
end

