-- ==== Sys2Proof/Machine/Complex.lean ====
section
/-! DEFINITION. The complex commands: ccfg, fft, fftf, ffti, chk, emb, embi (42_complex.md). -/

namespace Sys2Proof.Machine

/-- The checks of ccfg on M = CLEN of the snapshot (42_complex.md R300). -/
def ccfgChecks (p : Config.Params) (clen : Word) : Except Stop Unit := do
  require (clen ≠ 0 ∧ clen &&& (clen - 1) = 0) .pow2 0
  require (4 ≤ clen.toNat ∧ clen.toNat ≤ 2 ^ p.logmMax) .limit 0

/-- `n` entries of the rotation group: `x`, then each five times the previous one modulo M
(42_complex.md R300). -/
def rotationTable (M x : Nat) : Nat → List Word
  | 0 => []
  | n + 1 => BitVec.ofNat 32 x :: rotationTable M (5 * x % M) n

/-- The compute phase of ccfg (42_complex.md R300). -/
def ccfgCompute (s : State) (clen : Word) : State :=
  let M := clen.toNat
  { s with
    mem := s.mem.writeWords (rotgAddr 0) (rotationTable M 1 (M / 4))
    actLogm := BitVec.ofNat 5 M.log2
    status := { s.status with ccfgValid := true } }

/-- ccfg (42_complex.md R300). -/
def execCcfg (s : State) : Host.Outcome State Fault Refusal :=
  s.finish dropCcfg ((ccfgChecks s.params s.latch.s0.clen).map fun _ => ccfgCompute s s.latch.s0.clen)

/-- The outputs of a complex transform as entries. -/
def cplxEntries (vs : List Cplx) : List Entry := vs.map Cplx.toEntry

/-- The input buffer of a complex transform. -/
def State.cplxInputs (s : State) (k : Nat) : Except Stop (List Cplx) :=
  readFrom s.dReadCplx s.latch.src.toNat (2 ^ k)

/-- The two phases of fft: the table entry is read when a butterfly uses it (42_complex.md R301; log 10). -/
def fftOutputs (k : Nat) (s : State) : Except Stop (List Entry) := do
  s.checkLimit k
  s.checkRange (2 ^ k) true
  s.checkOverlap (2 ^ k) true
  let x ← s.cplxInputs k
  let A ← runStages (fun st i => s.dReadCplx (s.latch.tbl.toNat + twiddleIndex k st i))
    (cbfly s.params.cmulMode) k (stagesUp k) (brevVec k x)
  return cplxEntries A

/-- fft k (42_complex.md R301). -/
def execFft (k : Nat) (s : State) : Host.Outcome State Fault Refusal :=
  s.finishBuffer (fftOutputs k s)

/-- The checks of fftf and ffti, in order (42_complex.md R302, R303). -/
def State.fftChecks (s : State) (k : Nat) : Except Stop Unit := do
  s.checkCcfg
  s.checkLimit k
  require (2 ^ k ≤ s.ctxLen) .len 0
  s.checkRange (2 ^ k) false
  s.checkOverlap (2 ^ k) false

/-- The CROOT index of fftf: j * gap, with ell = 2^s and gap = M / ell (42_complex.md R302). -/
def fftfIndex (M st j : Nat) : Nat := j * (M / 2 ^ st)

/-- The CROOT index of ffti: (ell - j) * gap (42_complex.md R303). -/
def fftiIndex (M st j : Nat) : Nat := (2 ^ st - j) * (M / 2 ^ st)

/-- The two phases of fftf (42_complex.md R302). -/
def fftfOutputs (k : Nat) (s : State) : Except Stop (List Entry) := do
  s.fftChecks k
  let x ← s.cplxInputs k
  let A ← runStages (fun st j => s.crootAt (fftfIndex s.ctxLen st j))
    (cbfly s.params.cmulMode) k (stagesUp k) (brevVec k x)
  return cplxEntries A

/-- fftf k (42_complex.md R302). -/
def execFftf (k : Nat) (s : State) : Host.Outcome State Fault Refusal :=
  s.finishBuffer (fftfOutputs k s)

/-- The two phases of ffti (42_complex.md R303). -/
def fftiOutputs (k : Nat) (s : State) : Except Stop (List Entry) := do
  s.fftChecks k
  let x ← s.cplxInputs k
  let A ← runStages (fun st j => s.crootAt (fftiIndex s.ctxLen st j))
    (cbfly s.params.cmulMode) k (stagesUp k) (brevVec k x)
  return cplxEntries (A.map (cscale k))

/-- ffti k (42_complex.md R303). -/
def execFfti (k : Nat) (s : State) : Host.Outcome State Fault Refusal :=
  s.finishBuffer (fftiOutputs k s)

/-- The checks of chk (42_complex.md R304). -/
def State.chkChecks (s : State) (k : Nat) : Except Stop Unit := do
  s.checkCcfg
  s.checkLimit k
  require (2 ^ k = s.ctxLen / 4) .len 0

/-- chk k (42_complex.md R304). -/
def execChk (k : Nat) (s : State) : Host.Outcome State Fault Refusal :=
  s.finish noEffect ((s.chkChecks k).map fun _ => s)

/-- The checks of emb and embi, in order (42_complex.md R305, R306). -/
def State.embChecks (s : State) (k : Nat) : Except Stop Unit := do
  s.chkChecks k
  s.checkRange (2 ^ k) false
  s.checkOverlap (2 ^ k) false

/-- The CROOT index of emb from the value of ROTG[j], with l = 2^s, lq = l << 2, gap = M / lq:
(ROTG[j] mod lq) * gap (42_complex.md R305). -/
def embIndex (M st r : Nat) : Nat := (r % (2 ^ st <<< 2)) * (M / (2 ^ st <<< 2))

/-- The CROOT index of embi: (lq - (ROTG[j] mod lq)) * gap (42_complex.md R306). -/
def embiIndex (M st r : Nat) : Nat := (2 ^ st <<< 2 - r % (2 ^ st <<< 2)) * (M / (2 ^ st <<< 2))

/-- The root that pair index j of a stage uses, by way of ROTG[j] (42_complex.md R305, R306). -/
def State.rotatedRoot (s : State) (index : Nat → Nat → Nat → Nat) (st j : Nat) : Except Stop Cplx := do
  let r ← s.rotgAt j
  s.crootAt (index s.ctxLen st r)

/-- The two phases of emb (42_complex.md R305). -/
def embOutputs (k : Nat) (s : State) : Except Stop (List Entry) := do
  s.embChecks k
  let x ← s.cplxInputs k
  let A ← runStages (s.rotatedRoot embIndex) (cbfly s.params.cmulMode) k (stagesUp k) (brevVec k x)
  return cplxEntries A

/-- emb k (42_complex.md R305). -/
def execEmb (k : Nat) (s : State) : Host.Outcome State Fault Refusal :=
  s.finishBuffer (embOutputs k s)

/-- The two phases of embi: stages of falling length, then bit reversal and scaling (42_complex.md R306). -/
def embiOutputs (k : Nat) (s : State) : Except Stop (List Entry) := do
  s.embChecks k
  let x ← s.cplxInputs k
  let A ← runStages (s.rotatedRoot embiIndex) (cbflyInv s.params.cmulMode) k (stagesDown k) x
  return cplxEntries ((brevVec k A).map (cscale k))

/-- embi k (42_complex.md R306). -/
def execEmbi (k : Nat) (s : State) : Host.Outcome State Fault Refusal :=
  s.finishBuffer (embiOutputs k s)

end Sys2Proof.Machine
end

