-- ==== Sys2Proof/Machine/Dispatch.lean ====
section
/-! DEFINITION. Which meaning each command has: the completion of the running command `i` in state `s`. -/

namespace Sys2Proof.Machine

def exec (i : Instr) (s : State) : Host.Outcome State Fault Refusal :=
  match i with
  | .nop => Sys2Proof.Machine.execNop s
  | .mcfg => Sys2Proof.Machine.execMcfg s
  | .ccfg => Sys2Proof.Machine.execCcfg s
  | .brev k => Sys2Proof.Machine.execBrev k s
  | .nttFwd k => Sys2Proof.Machine.execNttFwd k s
  | .nttInv k => Sys2Proof.Machine.execNttInv k s
  | .nttUsr k => Sys2Proof.Machine.execNttUsr k s
  | .fttf k => Sys2Proof.Machine.execFttf k s
  | .ftti k => Sys2Proof.Machine.execFtti k s
  | .fft k => Sys2Proof.Machine.execFft k s
  | .fftf k => Sys2Proof.Machine.execFftf k s
  | .ffti k => Sys2Proof.Machine.execFfti k s
  | .chk k => Sys2Proof.Machine.execChk k s
  | .emb k => Sys2Proof.Machine.execEmb k s
  | .embi k => Sys2Proof.Machine.execEmbi k s

end Sys2Proof.Machine
end

