-- ==== Sys2Proof/Machine/Reset.lean ====
section
/-! DEFINITION. The sequencer's step, aborting a running command, soft reset, the reset pin and the power
supply (40_common.md R203, 70_reset_and_hazards.md R450 to R453, 60_exceptions.md R417). -/

namespace Sys2Proof.Machine

/-- The completion of the running command (40_common.md R203). An illegal word completes with E_ILLEGAL
and reads nothing else (30_encoding.md R158). -/
def completion (s : State) : Host.Outcome State Fault Refusal :=
  match decode s.latch.cmd with
  | .ok i => exec i s
  | .error _ => .next (s.fail noEffect .illegal 0)

/-- The sequencer's turn: it completes the running command; with none it is idle (40_common.md R203,
60_exceptions.md R417). -/
def sequencerTurn (s : State) : Host.Outcome State Fault Refusal :=
  if s.status.busy then completion s else .next s

/-- The memory a command may have written when it is aborted, as (first offset, number of bytes)
(70_reset_and_hazards.md R453). -/
def abortedRanges (s : State) : Instr → List (Nat × Nat)
  | .nop | .chk _ => []
  | .mcfg =>
    let d := s.latch.s0.degree.toNat
    [(fwdAddr 0, 8 * d), (invAddr 0, 8 * d), (sinvAddr 0, 8 * d)]
  | .ccfg => [(rotgAddr 0, 4 * (s.latch.s0.clen.toNat / 4))]
  | .brev k | .nttFwd k | .nttInv k | .nttUsr k | .fttf k | .ftti k
  | .fft k | .fftf k | .ffti k | .emb k | .embi k =>
    [(dmemAddr s.latch.dst.toNat, 16 * 2 ^ k)]

/-- Whether the running command fails its checks (70_reset_and_hazards.md R453; log 12). -/
def failsChecks (s : State) : Bool :=
  match completion s with
  | .next t => t.status.err
  | _ => false

/-- The memory after the running command is aborted: what it may have written is unwritten, unless it
would have failed its checks (70_reset_and_hazards.md R453; log 12). -/
def abortedMem (s : State) : Memory :=
  match decode s.latch.cmd with
  | .error _ => s.mem
  | .ok i =>
    if failsChecks s then s.mem
    else (abortedRanges s i).foldl (fun m r => m.erase r.1 r.2) s.mem

/-- Aborting the running command (70_reset_and_hazards.md R453). After an aborted mcfg, BK and MU are free
values (93_implementation_defined.md U3; log 7). -/
def State.abort (s : State) : State :=
  match decode s.latch.cmd with
  | .ok .mcfg =>
    { s with mem := abortedMem s, bk := Config.freeBk s.free, mu := Config.freeMu s.free
             free := s.free + 1 }
  | _ => { s with mem := abortedMem s }

/-- Aborting if a command runs. -/
def State.abortIfBusy (s : State) : State := if s.status.busy then s.abort else s

/-- Soft reset (70_reset_and_hazards.md R452). -/
def State.softReset (s : State) : State :=
  { s.abortIfBusy with
    status := Status.reset
    errInfo := 0
    irqStatus := IrqBits.reset
    latch := { s.latch with cmd := 0, src := 0, dst := 0, tbl := 0 }
    actMod := 0
    actLogd := 0
    actLogm := 0 }

/-- Every register takes its reset value, BK and MU a free value; the memories stay as they are
(70_reset_and_hazards.md R450; log 7). -/
def State.resetRegisters (s : State) : State :=
  { State.reset with
    params := s.params, inbox := s.inbox, responses := s.responses, rstN := s.rstN, mem := s.mem
    bk := Config.freeBk s.free, mu := Config.freeMu s.free, free := s.free + 1 }

/-- The pin rst_n takes a level (70_reset_and_hazards.md R450). A falling level aborts a running command
and resets the registers; so does the step that releases it, where nothing runs (log 23). -/
def State.resetPin (s : State) (level : Bool) : State :=
  if level && s.rstN then s else { s.abortIfBusy.resetRegisters with rstN := level }

/-- The supply goes off and on again: a reset after which every memory is unspecified
(60_exceptions.md R417, 70_reset_and_hazards.md R450; log 14). -/
def State.powerCycle (s : State) : State := { s.resetRegisters with mem := [] }

end Sys2Proof.Machine
end

