-- ==== Sys2Proof/Machine/Bus.lean ====
section
/-! DEFINITION. The host port: the address map, the register file, and how one access is served
(20_memory.md, 10_state.md section 2). -/

namespace Sys2Proof.Machine

/-- What an offset of the aperture leads to (20_memory.md R101). -/
inductive Window where
  | regs
  | readOnly
  | readWrite
  | unmapped
  deriving DecidableEq, Repr

/-- The address map. An offset past the last implemented entry of a window is unmapped (20_memory.md R101,
R108). -/
def windowOf (p : Config.Params) (a : Nat) : Window :=
  if a < 0x1000 then .regs
  else if fwdAddr 0 ≤ a ∧ a < fwdAddr (2 ^ p.logdMax) then .readOnly
  else if invAddr 0 ≤ a ∧ a < invAddr (2 ^ p.logdMax) then .readOnly
  else if sinvAddr 0 ≤ a ∧ a < sinvAddr (2 ^ p.logdMax) then .readOnly
  else if rotgAddr 0 ≤ a ∧ a < rotgAddr (2 ^ (p.logmMax - 2)) then .readOnly
  else if crootAddr 0 ≤ a ∧ a < crootAddr (2 ^ p.logmMax + 1) then .readWrite
  else if dmemAddr 0 ≤ a ∧ a < dmemAddr (dmemSize p) then .readWrite
  else .unmapped

/-- The offset of each register (10_state.md R31). -/
def Reg.offset : Reg → Nat
  | .id => 0x000
  | .version => 0x004
  | .cap => 0x008
  | .ctrl => 0x00C
  | .cmd => 0x010
  | .status => 0x014
  | .irqStatus => 0x018
  | .irqEnable => 0x01C
  | .errInfo => 0x020
  | .srcBase => 0x030
  | .dstBase => 0x034
  | .tblBase => 0x038
  | .modLo => 0x040
  | .modHi => 0x044
  | .rootLo => 0x048
  | .rootHi => 0x04C
  | .rootInvLo => 0x050
  | .rootInvHi => 0x054
  | .dInvLo => 0x058
  | .dInvHi => 0x05C
  | .degree => 0x060
  | .clen => 0x064
  | .actModLo => 0x070
  | .actModHi => 0x074
  | .actLogd => 0x078
  | .actLogm => 0x07C

/-- Every register, in the order of 10_state.md R31. -/
def allRegs : List Reg :=
  [.id, .version, .cap, .ctrl, .cmd, .status, .irqStatus, .irqEnable, .errInfo, .srcBase, .dstBase,
   .tblBase, .modLo, .modHi, .rootLo, .rootHi, .rootInvLo, .rootInvHi, .dInvLo, .dInvHi, .degree,
   .clen, .actModLo, .actModHi, .actLogd, .actLogm]

/-- The register at an offset; every other offset is reserved (10_state.md R31, R51). -/
def regAt (off : Nat) : Option Reg := allRegs.find? fun r => r.offset == off

/-- The identity registers (10_state.md R32, R33). -/
def idWord : Word := 0x4E545446
def versionWord : Word := 0x00010000

/-- CAP (10_state.md R34). -/
def capWord (p : Config.Params) : Word :=
  BitVec.ofNat 32 p.logdMax ||| (BitVec.ofNat 32 p.logmMax <<< 8) |||
    (BitVec.ofNat 32 p.dmemLogw <<< 16) ||| (BitVec.ofNat 32 (lognMax p) <<< 24) |||
    bitAt (p.cmulMode == .fused) 31

/-- The two halves of a 64-bit register pair (20_memory.md R102). -/
def lowWord (v : Dword) : Word := v.extractLsb' 0 32
def highWord (v : Dword) : Word := v.extractLsb' 32 32
def withLow (v : Dword) (w : Word) : Dword := highWord v ++ w
def withHigh (v : Dword) (w : Word) : Dword := w ++ lowWord v

/-- Reading a register; no read has a side effect (10_state.md section 2, 20_memory.md R111). -/
def State.readReg (s : State) : Reg → Word
  | .id => idWord
  | .version => versionWord
  | .cap => capWord s.params
  | .ctrl => 0
  | .cmd => s.latch.cmd
  | .status => s.status.word
  | .irqStatus => s.irqStatus.word
  | .irqEnable => s.irqEnable.word
  | .errInfo => s.errInfo
  | .srcBase => s.srcBase
  | .dstBase => s.dstBase
  | .tblBase => s.tblBase
  | .modLo => lowWord s.staging.modulus
  | .modHi => highWord s.staging.modulus
  | .rootLo => lowWord s.staging.root
  | .rootHi => highWord s.staging.root
  | .rootInvLo => lowWord s.staging.rootInv
  | .rootInvHi => highWord s.staging.rootInv
  | .dInvLo => lowWord s.staging.dInv
  | .dInvHi => highWord s.staging.dInv
  | .degree => s.staging.degree
  | .clen => s.staging.clen
  | .actModLo => lowWord s.actMod
  | .actModHi => highWord s.actMod
  | .actLogd => s.actLogd.setWidth 32
  | .actLogm => s.actLogm.setWidth 32

/-- A CMD write: accepted while BUSY = 0, an overrun while BUSY = 1 (40_common.md R200, R201). -/
def State.writeCmd (s : State) (v : Word) : State := if s.status.busy then s.overrun else s.accept v

/-- Writing a register (10_state.md section 2); a write to an RO register is ignored (20_memory.md R111). -/
def State.writeReg (s : State) (r : Reg) (v : Word) : State :=
  match r with
  | .id | .version | .cap | .status | .errInfo => s
  | .actModLo | .actModHi | .actLogd | .actLogm => s
  | .ctrl => if v.getLsbD 0 then s.softReset else s
  | .cmd => s.writeCmd v
  | .irqStatus => { s with irqStatus := s.irqStatus.clear v }
  | .irqEnable => { s with irqEnable := IrqBits.ofWord v }
  | .srcBase => { s with srcBase := v }
  | .dstBase => { s with dstBase := v }
  | .tblBase => { s with tblBase := v }
  | .modLo => { s with staging := { s.staging with modulus := withLow s.staging.modulus v } }
  | .modHi => { s with staging := { s.staging with modulus := withHigh s.staging.modulus v } }
  | .rootLo => { s with staging := { s.staging with root := withLow s.staging.root v } }
  | .rootHi => { s with staging := { s.staging with root := withHigh s.staging.root v } }
  | .rootInvLo => { s with staging := { s.staging with rootInv := withLow s.staging.rootInv v } }
  | .rootInvHi => { s with staging := { s.staging with rootInv := withHigh s.staging.rootInv v } }
  | .dInvLo => { s with staging := { s.staging with dInv := withLow s.staging.dInv v } }
  | .dInvHi => { s with staging := { s.staging with dInv := withHigh s.staging.dInv v } }
  | .degree => { s with staging := { s.staging with degree := v } }
  | .clen => { s with staging := { s.staging with clen := v } }

/-- A read at a register offset; a reserved offset reads 0 (10_state.md R51). -/
def State.readRegs (s : State) (off : Nat) : Word :=
  match regAt off with
  | some r => s.readReg r
  | none => 0

/-- A write at a register offset; at a reserved offset it is ignored (10_state.md R51). -/
def State.writeRegs (s : State) (off : Nat) (v : Word) : State :=
  match regAt off with
  | some r => s.writeReg r v
  | none => s

/-- The port gives its answer. -/
def State.respond (s : State) (r : Resp) : State := { s with responses := r :: s.responses }

/-- A full 32-bit access at an aligned offset, with all strobes set on a write (20_memory.md R103). -/
def Access.legal : Access → Bool
  | .read addr size => size == .word && addr.toNat % 4 == 0
  | .write addr size _ strobes => size == .word && addr.toNat % 4 == 0 && strobes == 0xF

/-- A legal read (20_memory.md R104 to R109). -/
def serveRead (s : State) (a : Nat) : Host.Outcome State Fault Refusal :=
  match windowOf s.params a with
  | .regs => .next (s.respond (.readOkay (s.readRegs a)))
  | .readOnly | .readWrite =>
    if s.status.busy then .next (s.respond (.readError 0))
    else match s.mem.readWord a with
      | some w => .next (s.respond (.readOkay w))
      | none => .fault (.uninitRead a)
  | .unmapped => .next (s.respond (.readError 0))

/-- A legal write (20_memory.md R104 to R109). -/
def serveWrite (s : State) (a : Nat) (v : Word) : Host.Outcome State Fault Refusal :=
  match windowOf s.params a with
  | .regs => .next ((s.writeRegs a v).respond .writeOkay)
  | .readWrite =>
    if s.status.busy then .next (s.respond .writeError)
    else .next ({ s with mem := s.mem.writeWord a v }.respond .writeOkay)
  | .readOnly | .unmapped => .next (s.respond .writeError)

/-- Serving one access: an illegal one gets ERROR and has no effect; while rst_n is low none is answered
(20_memory.md R103, R108, 70_reset_and_hazards.md R450; log 11). -/
def serve (a : Access) (s : State) : Host.Outcome State Fault Refusal :=
  if s.rstN = false then .fault .portInReset
  else match a with
    | .read addr _ =>
      if a.legal then serveRead s addr.toNat else .next (s.respond (.readError 0))
    | .write addr _ data _ =>
      if a.legal then serveWrite s addr.toNat data else .next (s.respond .writeError)

/-- What one event does (10_state.md R30; log 2). -/
def happen (e : Event) (s : State) : Host.Outcome State Fault Refusal :=
  match e with
  | .access a => serve a s
  | .sequencer => sequencerTurn s
  | .rst level => .next (s.resetPin level)
  | .powerCycle => .next s.powerCycle

end Sys2Proof.Machine
end

