-- ==== Sys2Proof/Machine/Step.lean ====
section
/-! DEFINITION. One step of the core, and loading a command for the next step. -/

namespace Sys2Proof.Machine

/-- One step: the next event of `inbox` happens; with none left the sequencer moves (10_state.md R30,
40_common.md R205; log 2, log 17). -/
def step (s : State) : Host.Outcome State Fault Refusal :=
  match s.inbox with
  | [] => sequencerTurn s
  | e :: es => happen e { s with inbox := es }

/-- `s` with the command word `w` just accepted and the sequencer next to move, rst_n high, so that the
very next step runs exactly that command (log 4). -/
def State.withFetchWord (s : State) (nbits w : Nat) : State :=
  { s.accept (BitVec.ofNat 32 (w % 2 ^ nbits)) with
    rstN := true
    inbox := match s.inbox with
      | [] => []
      | e :: es => .sequencer :: e :: es }

end Sys2Proof.Machine
end

