-- ==== Sys2Proof/Machine/Assembler.lean ====
section
/-! DEFINITION. The assembler's operand forms and mnemonics (30_encoding.md R156, R161). No step uses them. -/

namespace Sys2Proof.Machine

/-- The length operand: `k`, or the alternative spelling `n=N` (30_encoding.md R161). -/
inductive LenOperand where
  | exponent (k : Nat)
  | length (n : Nat)
  deriving DecidableEq, Repr

/-- The k an operand stands for: 0 to 31, and N a power of two; any other is rejected (30_encoding.md R161). -/
def LenOperand.value : LenOperand → Option Nat
  | .exponent k => if k < 32 then some k else none
  | .length n => if n = 2 ^ n.log2 ∧ n.log2 < 32 then some n.log2 else none

/-- The mnemonic of a command (30_encoding.md R156). -/
def mnemonicOf : Instr → String
  | .nop => "nop"
  | .mcfg => "mcfg"
  | .ccfg => "ccfg"
  | .brev _ => "brev"
  | .nttFwd _ => "ntt.fwd"
  | .nttInv _ => "ntt.inv"
  | .nttUsr _ => "ntt.usr"
  | .fttf _ => "fttf"
  | .ftti _ => "ftti"
  | .fft _ => "fft"
  | .fftf _ => "fftf"
  | .ffti _ => "ffti"
  | .chk _ => "chk"
  | .emb _ => "emb"
  | .embi _ => "embi"

/-- The commands with a given length operand, or with none. -/
def spellings : Option Nat → List Instr
  | none => [.nop, .mcfg, .ccfg]
  | some k =>
    [.brev k, .nttFwd k, .nttInv k, .nttUsr k, .fttf k, .ftti k, .fft k, .fftf k, .ffti k, .chk k,
     .emb k, .embi k]

/-- The command a mnemonic and its operand stand for (30_encoding.md R161). -/
def assemble (mnemonic : String) (operand : Option LenOperand) : Option Instr :=
  match operand with
  | none => (spellings none).find? fun i => mnemonicOf i == mnemonic
  | some o =>
    match o.value with
    | none => none
    | some k => (spellings (some k)).find? fun i => mnemonicOf i == mnemonic

end Sys2Proof.Machine
end

