-- ==== Sys2Proof/Safety.lean ====
section
/-! DEFINITION. What the statements say about states and outcomes: how a command ends, what it leaves alone,
the checks of a command as a list, the invariants, and the exact value of a binary64 pattern. -/

namespace Sys2Proof.Machine

/-- A run of `n` steps that meets no fault and no refusal. -/
def runsSafely (n : Nat) (s : State) : Prop := ∃ t, Host.Core.run Sys2Proof.core n s = .next t

/-! ### How a command ends -/

/-- `t` is `s` after a command that succeeded: BUSY falls, DONE is set, and beside that at most the memory
has changed (40_common.md R203). -/
def State.endsWell (s t : State) : Prop :=
  t = { s with
        mem := t.mem
        status := { s.status with busy := false }
        irqStatus := { s.irqStatus with done := true } }

/-- `s` after the command `i` completed with the error `e` and the detail `info` (60_exceptions.md R405). -/
def State.afterError (s : State) (i : Instr) (e : ErrCode) (info : Word) : State :=
  { s with
    status :=
      { busy := false, err := true, errcode := e
        mcfgValid := if i = .mcfg then false else s.status.mcfgValid
        ccfgValid := if i = .ccfg then false else s.status.ccfgValid }
    errInfo := info
    irqStatus := { s.irqStatus with done := true, err := true } }

/-- No byte outside the `n` bytes from `lo` on has changed. -/
def unchangedOutside (s t : State) (lo n : Nat) : Prop :=
  ∀ a, a < lo ∨ lo + n ≤ a → t.mem.get a = s.mem.get a

/-- The commands that write an output buffer of 2^k entries. -/
def bufferCommands (k : Nat) : List Instr :=
  [.brev k, .nttFwd k, .nttInv k, .nttUsr k, .fttf k, .ftti k, .fft k, .fftf k, .ffti k, .emb k, .embi k]

/-- The commands whose input is read as residues. -/
def modularCommands (k : Nat) : List Instr := [.nttFwd k, .nttInv k, .nttUsr k, .fttf k, .ftti k]

/-- The commands whose input entries are read whole. -/
def wholeEntryCommands (k : Nat) : List Instr := [.brev k, .fft k, .fftf k, .ffti k, .emb k, .embi k]

/-! ### The checks of a command, in order (60_exceptions.md R402) -/

/-- One check: whether it fails, and the error it then raises. -/
abbrev Check := Bool × ErrCode × Word

/-- The error of the first check that fails. -/
def firstFailing (cs : List Check) : Option (ErrCode × Word) := (cs.find? fun c => c.1).map fun c => c.2

/-- The two ranges have an entry in common (40_common.md R208). -/
def rangesMeet (n b c : Nat) : Bool := decide (b < c + n) && decide (c < b + n)

/-- RANGE(1), RANGE(2), and with a table RANGE(3) (40_common.md R207). -/
def rangeChecks (s : State) (n : Nat) (useTbl : Bool) : List Check :=
  [(decide (s.latch.src.toNat + n > 2 ^ s.params.dmemLogw), .range, 1),
   (decide (s.latch.dst.toNat + n > 2 ^ s.params.dmemLogw), .range, 2),
   (useTbl && decide (s.latch.tbl.toNat + n > 2 ^ s.params.dmemLogw), .range, 3)]

/-- OVERLAP(2), and with a table OVERLAP(3) (40_common.md R208). -/
def overlapChecks (s : State) (n : Nat) (useTbl : Bool) : List Check :=
  [(decide (s.latch.src ≠ s.latch.dst) && rangesMeet n s.latch.src.toNat s.latch.dst.toNat, .overlap, 2),
   (useTbl && rangesMeet n s.latch.tbl.toNat s.latch.dst.toNat, .overlap, 3)]

/-- LIMIT (40_common.md R206). -/
def limitCheck (s : State) (k : Nat) : Check :=
  (decide (k > max s.params.logdMax s.params.logmMax), .limit, 0)

/-- Whether a value is no power of two; 0 is none (60_exceptions.md R401, E_POW2). -/
def notPow2 (n : Nat) : Bool := decide (n ≠ 2 ^ n.log2)

/-- The ten checks of mcfg (41_modular.md R250). -/
def mcfgCheckList (s : State) : List Check :=
  let st := s.latch.s0
  let d := st.degree.toNat
  let a := st.modulus.toNat
  let w := st.root.toNat
  let wi := st.rootInv.toNat
  let di := st.dInv.toNat
  [(notPow2 d, .pow2, 0), (decide (d > 2 ^ s.params.logdMax), .limit, 0), (decide (a < 2), .modulus, 0),
   (decide (w ≥ a), .operand, 1), (decide (wi ≥ a), .operand, 2), (decide (di ≥ a), .operand, 3),
   (decide (w ^ (2 * d) % a ≠ 1), .root, 1), (decide (w ^ d % a = 1), .root, 2),
   (decide (w * wi % a ≠ 1), .inv, 2), (decide (d % a * di % a ≠ 1), .inv, 3)]

/-- The checks of each command before the residue check, in the order of 60_exceptions.md R402. -/
def checkList (s : State) : Instr → List Check
  | .nop => []
  | .mcfg => mcfgCheckList s
  | .ccfg =>
    let M := s.latch.s0.clen.toNat
    [(notPow2 M, .pow2, 0), (decide (M < 4) || decide (M > 2 ^ s.params.logmMax), .limit, 0)]
  | .brev k => [limitCheck s k] ++ rangeChecks s (2 ^ k) false ++ overlapChecks s (2 ^ k) false
  | .nttFwd k | .nttInv k | .fttf k | .ftti k =>
    [(!s.status.mcfgValid, .nomcfg, 0), limitCheck s k,
     (decide (2 ^ k ≠ 2 ^ s.actLogd.toNat), .len, 0)] ++
      rangeChecks s (2 ^ k) false ++ overlapChecks s (2 ^ k) false
  | .nttUsr k =>
    [(!s.status.mcfgValid, .nomcfg, 0), limitCheck s k] ++
      rangeChecks s (2 ^ k) true ++ overlapChecks s (2 ^ k) true
  | .fft k => [limitCheck s k] ++ rangeChecks s (2 ^ k) true ++ overlapChecks s (2 ^ k) true
  | .fftf k | .ffti k =>
    [(!s.status.ccfgValid, .noccfg, 0), limitCheck s k,
     (decide (2 ^ k > 2 ^ s.actLogm.toNat), .len, 0)] ++
      rangeChecks s (2 ^ k) false ++ overlapChecks s (2 ^ k) false
  | .chk k =>
    [(!s.status.ccfgValid, .noccfg, 0), limitCheck s k,
     (decide (2 ^ k ≠ 2 ^ s.actLogm.toNat / 4), .len, 0)]
  | .emb k | .embi k =>
    [(!s.status.ccfgValid, .noccfg, 0), limitCheck s k,
     (decide (2 ^ k ≠ 2 ^ s.actLogm.toNat / 4), .len, 0)] ++
      rangeChecks s (2 ^ k) false ++ overlapChecks s (2 ^ k) false

/-- Every check of the command before its residue check passes. -/
abbrev checksPass (s : State) (i : Instr) : Prop := firstFailing (checkList s i) = none

/-! ### Buffers and tables as values -/

/-- The entries from `base` on read as the residues `x`, all below `a` (40_common.md R209). -/
def residuesAt (s : State) (base a : Nat) (x : List Nat) : Prop :=
  ∀ j v, x[j]? = some v → s.dReadResidue (base + j) = .ok v ∧ v < a

/-- The entries from `base` on read as the complex values `x`. -/
def cplxAt (s : State) (base : Nat) (x : List Cplx) : Prop :=
  ∀ j v, x[j]? = some v → s.dReadCplx (base + j) = .ok v

/-- The entries from `base` on are the entries `x`, all four words. -/
def entriesAt (s : State) (base : Nat) (x : List Entry) : Prop :=
  ∀ j v, x[j]? = some v → s.dRead (base + j) = .ok v

/-- A buffer command ended well and wrote the entries `out` to DST_L on, and nothing else
(40_common.md R203, R204). -/
def writesBuffer (s t : State) (out : List Entry) : Prop :=
  s.endsWell t ∧ unchangedOutside s t (dmemAddr s.latch.dst.toNat) (16 * out.length) ∧
    entriesAt t s.latch.dst.toNat out

/-- NTT_CORE over a table given as a function (41_modular.md R255). -/
def nttOf (a k : Nat) (T : Nat → Nat) (x : List Nat) : Except Stop (List Nat) :=
  nttCore a k (fun j => .ok (T j)) x

/-- The stages of a complex transform over roots given as a function of the stage and the pair index. -/
def stagesOf (mode : Config.CMulMode) (k : Nat) (C : Nat → Nat → Cplx) (x : List Cplx) :
    Except Stop (List Cplx) :=
  runStages (fun st j => .ok (C st j)) (cbfly mode) k (stagesUp k) x

/-- The stages of embi over roots given as a function of the stage and the pair index. -/
def inverseStagesOf (mode : Config.CMulMode) (k : Nat) (C : Nat → Nat → Cplx) (x : List Cplx) :
    Except Stop (List Cplx) :=
  runStages (fun st j => .ok (C st j)) (cbflyInv mode) k (stagesDown k) x

/-- The negacyclic transforms over tables given as functions: `T` for FWD, then `T` for INV with `S` for SINV
(41_modular.md R253, R254). -/
def fttForward (a k : Nat) (T : Nat → Nat) (x : List Nat) : Except Stop (List Nat) :=
  nttOf a k T (x.mapIdx fun i v => v * T i % a)
def fttInverse (a k : Nat) (T S : Nat → Nat) (x : List Nat) : Except Stop (List Nat) :=
  (nttOf a k T x).map fun z => z.mapIdx fun i v => v * S i % a

/-! ### Invariants -/

/-- Every listed byte lies in an implemented window, and its whole word is written (20_memory.md R101, R120). -/
def State.memoryMapped (s : State) : Prop :=
  ∀ c ∈ s.mem, (windowOf s.params c.1 = .readOnly ∨ windowOf s.params c.1 = .readWrite) ∧
    (s.mem.readWord (c.1 / 4 * 4)).isSome = true

/-- ERR = 1 exactly when ERRCODE is not 0 (10_state.md R37); ERRINFO is 0 without an error (R40); the error
record is clear while a command runs (40_common.md R200); nothing runs and no context is valid while rst_n
is low (70_reset_and_hazards.md R450). -/
def State.consistent (s : State) : Prop :=
  (s.status.err = true ↔ s.status.errcode ≠ .ok) ∧
  (s.status.errcode = .ok → s.errInfo = 0) ∧
  (s.status.busy = true → s.status.errcode = .ok) ∧
  (s.rstN = false → s.status.busy = false ∧ s.status.mcfgValid = false ∧ s.status.ccfgValid = false)

/-- The tables, the modulus and the reduction constants are those of degree d, modulus a, root w, inverse
root wi and inverse degree di (10_state.md R62, R71, 41_modular.md R250). -/
def State.modularTables (s : State) (w wi di : Nat) : Prop :=
  2 ≤ s.ctxMod ∧ s.actLogd.toNat ≤ s.params.logdMax ∧ w < s.ctxMod ∧ wi < s.ctxMod ∧ di < s.ctxMod ∧
  w ^ (2 * s.ctxDegree) % s.ctxMod = 1 ∧ w ^ s.ctxDegree % s.ctxMod ≠ 1 ∧
  w * wi % s.ctxMod = 1 ∧ s.ctxDegree % s.ctxMod * di % s.ctxMod = 1 ∧
  (∀ i, i < s.ctxDegree →
    s.fwdAt i = .ok (w ^ i % s.ctxMod) ∧ s.invAt i = .ok (wi ^ i % s.ctxMod) ∧
      s.sinvAt i = .ok (di * wi ^ i % s.ctxMod)) ∧
  s.bk.toNat = bitLength s.ctxMod ∧ s.mu.toNat = 2 ^ (2 * bitLength s.ctxMod) / s.ctxMod

/-- While MCFG_VALID = 1 the modular context is one that mcfg can have built (10_state.md R37, R62). -/
def State.modularContext (s : State) : Prop :=
  s.status.mcfgValid = true → ∃ w wi di, s.modularTables w wi di

/-- While CCFG_VALID = 1 ROTG holds the rotation group of M (10_state.md R64, 42_complex.md R300). -/
def State.complexContext (s : State) : Prop :=
  s.status.ccfgValid = true →
    2 ≤ s.actLogm.toNat ∧ s.actLogm.toNat ≤ s.params.logmMax ∧
      ∀ j, j < s.ctxLen / 4 → s.rotgAt j = .ok (5 ^ j % s.ctxLen)

/-! ### The value of a binary64 pattern -/

/-- The rational a finite exact value stands for (0 for the others, which have none). -/
def Exact.toRat : Exact → ℚ
  | .fin neg m e => (if neg then -1 else 1) * (m : ℚ) * (2 : ℚ) ^ e
  | _ => 0

/-- A pattern that is a finite number. -/
def finite (x : Dword) : Bool :=
  match unpack x with
  | .fin _ _ _ => true
  | _ => false

/-- The rational a finite pattern stands for (40_common.md R220). -/
def valueOf (x : Dword) : ℚ := (unpack x).toRat

end Sys2Proof.Machine
end

