-- ==== Sys2Proof/Certificates/Slice0/Obligations.lean ====
section
/-! DEFINITION. The statements for the provers, and the few terms of the spec they are written in. -/

namespace Sys2Proof.Stated

open Sys2Proof.Machine

/-- A legal host read and a legal host write at a byte offset (00_scope.md R10, 20_memory.md R103). -/
def portRead (off : Nat) (s : State) : Host.Outcome State Fault Refusal :=
  serve (.read (BitVec.ofNat 24 off) .word) s
def portWrite (off : Nat) (v : Word) (s : State) : Host.Outcome State Fault Refusal :=
  serve (.write (BitVec.ofNat 24 off) .word v 0xF) s

/-- `s` after the port has answered `r` and nothing else has happened. -/
def answered (s : State) (r : Resp) : State := { s with responses := r :: s.responses }

/-- One row of the opcode map: mnemonic, match, mask, and the command for a length (30_encoding.md R156). -/
structure Row where
  mnemonic : String
  value : Word
  mask : Word
  make : Nat → Instr

/-- The opcode map, row by row (30_encoding.md R156). -/
def opcodeMap : List Row :=
  [⟨"nop", 0x00000000, 0xFFFFFFFF, fun _ => .nop⟩, ⟨"mcfg", 0x00000001, 0xFFFFFFFF, fun _ => .mcfg⟩,
   ⟨"ccfg", 0x00000002, 0xFFFFFFFF, fun _ => .ccfg⟩, ⟨"brev", 0x00000003, 0xFFFFF83F, .brev⟩,
   ⟨"ntt.fwd", 0x00000008, 0xFFFFF83F, .nttFwd⟩, ⟨"ntt.inv", 0x00000808, 0xFFFFF83F, .nttInv⟩,
   ⟨"ntt.usr", 0x00001008, 0xFFFFF83F, .nttUsr⟩, ⟨"fttf", 0x00000009, 0xFFFFF83F, .fttf⟩,
   ⟨"ftti", 0x0000000A, 0xFFFFF83F, .ftti⟩, ⟨"fft", 0x00000010, 0xFFFFF83F, .fft⟩,
   ⟨"fftf", 0x00000011, 0xFFFFF83F, .fftf⟩, ⟨"ffti", 0x00000012, 0xFFFFF83F, .ffti⟩,
   ⟨"chk", 0x00000013, 0xFFFFF83F, .chk⟩, ⟨"emb", 0x00000014, 0xFFFFF83F, .emb⟩,
   ⟨"embi", 0x00000015, 0xFFFFF83F, .embi⟩]

/-- (w AND mask) = match (30_encoding.md R156). -/
def Row.matchedBy (r : Row) (w : Word) : Prop := w &&& r.mask = r.value

/-- The five lines of 30_encoding.md R158. -/
def listedIllegal (w : Word) : Prop :=
  let opc := w.toNat % 64
  let logn := w.toNat / 64 % 32
  let tbl := w.toNat / 2048 % 4
  let rsvd := w.toNat / 8192
  (4 ≤ opc ∧ opc ≤ 7) ∨ (0xB ≤ opc ∧ opc ≤ 0xF) ∨ 0x16 ≤ opc ∨ rsvd ≠ 0 ∨ (tbl = 3 ∧ opc = 8) ∨
    (tbl ≠ 0 ∧ opc ≠ 8) ∨ (logn ≠ 0 ∧ opc ≤ 2)

/-- The byte ranges, as (first offset, number of bytes), that an aborted command may have written
(70_reset_and_hazards.md R453). -/
def mayHaveWritten (s : State) : Instr → List (Nat × Nat)
  | .nop | .chk _ => []
  | .mcfg =>
    [(0x100000, 8 * s.latch.s0.degree.toNat), (0x180000, 8 * s.latch.s0.degree.toNat),
     (0x200000, 8 * s.latch.s0.degree.toNat)]
  | .ccfg => [(0x280000, 4 * (s.latch.s0.clen.toNat / 4))]
  | .brev k | .nttFwd k | .nttInv k | .nttUsr k | .fttf k | .ftti k
  | .fft k | .fftf k | .ffti k | .emb k | .embi k =>
    [(0x800000 + 16 * s.latch.dst.toNat, 16 * 2 ^ k)]

/-- `a` lies in one of the ranges. -/
def inRanges (rs : List (Nat × Nat)) (a : Nat) : Prop := ∃ r ∈ rs, r.1 ≤ a ∧ a < r.1 + r.2

/-- The byte offset of an access. -/
def offsetOf : Access → Nat
  | .read addr _ => addr.toNat
  | .write addr _ _ _ => addr.toNat

/-- An access as 20_memory.md R103 asks for it. -/
def wholeWord : Access → Prop
  | .read addr size => size = .word ∧ addr.toNat % 4 = 0
  | .write addr size _ strobes => size = .word ∧ addr.toNat % 4 = 0 ∧ strobes = 0xF

/-- The access is a write. -/
def isWrite : Access → Prop
  | .read _ _ => False
  | .write _ _ _ _ => True

/-- An offset beyond the implemented entries of its window (20_memory.md R101). -/
def beyondEntries (p : Config.Params) (a : Nat) : Prop :=
  (0x100000 + 8 * 2 ^ p.logdMax ≤ a ∧ a ≤ 0x17FFFF) ∨ (0x180000 + 8 * 2 ^ p.logdMax ≤ a ∧ a ≤ 0x1FFFFF) ∨
  (0x200000 + 8 * 2 ^ p.logdMax ≤ a ∧ a ≤ 0x27FFFF) ∨
  (0x280000 + 4 * 2 ^ (p.logmMax - 2) ≤ a ∧ a ≤ 0x29FFFF) ∨
  (0x400000 + 16 * (2 ^ p.logmMax + 1) ≤ a ∧ a ≤ 0x7FFFFF) ∨
  (0x800000 + 16 * 2 ^ p.dmemLogw ≤ a)

/-- The five cases of the ERROR response (20_memory.md R108). -/
def errorCase (s : State) (a : Access) : Prop :=
  let o := offsetOf a
  ¬wholeWord a ∨ ((0x1000 ≤ o ∧ o ≤ 0xFFFFF) ∨ (0x2A0000 ≤ o ∧ o ≤ 0x3FFFFF)) ∨ beyondEntries s.params o ∨
    (isWrite a ∧ 0x100000 ≤ o ∧ o ≤ 0x29FFFF) ∨
    (s.status.busy = true ∧ ((0x100000 ≤ o ∧ o ≤ 0x29FFFF) ∨ 0x400000 ≤ o))

/-- The ERROR response to an access; a read returns 0 (20_memory.md R108). -/
def errorAnswer : Access → Resp
  | .read _ _ => .readError 0
  | .write _ _ _ _ => .writeError

/-- An OKAY response. -/
def isOkay : Resp → Prop
  | .readOkay _ | .writeOkay => True
  | .readError _ | .writeError => False

/-- The access is a legal write to CMD or to CTRL, the two that are not idempotent (20_memory.md R111). -/
def isCommandOrReset (a : Access) : Prop := isWrite a ∧ (offsetOf a = 0x00C ∨ offsetOf a = 0x010)

/-- The pattern is a NaN. -/
def isNaN (x : Dword) : Prop := unpack x = .nan

/-- The patterns of plus and minus infinity and of the two zeros. -/
def plusInf : Dword := 0x7FF0000000000000
def minusInf : Dword := 0xFFF0000000000000
def plusZero : Dword := 0
def minusZero : Dword := 0x8000000000000000

/-- p * q mod (x^n + 1) with coefficients modulo a (41_modular.md R259). -/
def negacyclic (a n : Nat) (p q : List Nat) : List Nat :=
  (List.range n).map fun m =>
    ((∑ i ∈ Finset.range n, ∑ j ∈ Finset.range n,
      if i + j = m then (p.getD i 0 * q.getD j 0 : Int)
      else if i + j = m + n then -(p.getD i 0 * q.getD j 0 : Int) else 0) % (a : Int)).toNat

/-- The product of two residue sequences entry by entry, as the host computes it (41_modular.md R259). -/
def pointwise (a : Nat) (p q : List Nat) : List Nat := List.zipWith (fun x y => x * y % a) p q

/-- The entries from `base` on hold the numbers `x` in bits [63:0] (10_state.md R61). -/
def numbersAt (s : State) (base : Nat) (x : List Nat) : Prop :=
  ∀ j v, x[j]? = some v → s.dReadResidue (base + j) = .ok v

/-- Element j of `x` is the first that is no residue of `a` (40_common.md R209). -/
def firstNonResidue (a : Nat) (x : List Nat) (j : Nat) : Prop :=
  (∃ v, x[j]? = some v ∧ a ≤ v) ∧ ∀ l, l < j → ∃ v, x[l]? = some v ∧ v < a

/-- The registers a host write stores whole (10_state.md R41 to R47). -/
def storedRegs : List Reg :=
  [.srcBase, .dstBase, .tblBase, .modLo, .modHi, .rootLo, .rootHi, .rootInvLo, .rootInvHi, .dInvLo, .dInvHi,
   .degree, .clen]

/-- The read-only registers (10_state.md R31). -/
def readOnlyRegs : List Reg :=
  [.id, .version, .cap, .status, .errInfo, .actModLo, .actModHi, .actLogd, .actLogm]

/-- The word at offset `a` is one that the command reads of a table once its checks have passed: of a table the
butterflies go through, the entries that some pair uses (41_modular.md R252 to R256, 42_complex.md R301 to R303,
R305, R306; log 10). The CROOT entry of a pair of emb and embi is found by way of ROTG[j], the value `r`. The
table of ntt.usr, which its residue check reads, has a clause of its own. -/
def readsTableWord (s : State) (a : Nat) : Instr → Prop
  | .nttFwd k => ∃ j w, 2 * j + 2 ≤ 2 ^ k ∧ w < 2 ∧ a = 0x100000 + 8 * (2 * j) + 4 * w
  | .nttInv k => ∃ j w, 2 * j + 2 ≤ 2 ^ k ∧ w < 2 ∧ a = 0x180000 + 8 * (2 * j) + 4 * w
  | .fttf k => ∃ j w, j < 2 ^ k ∧ w < 2 ∧ a = 0x100000 + 8 * j + 4 * w
  | .ftti k =>
    (∃ j w, 2 * j + 2 ≤ 2 ^ k ∧ w < 2 ∧ a = 0x180000 + 8 * (2 * j) + 4 * w) ∨
      ∃ j w, j < 2 ^ k ∧ w < 2 ∧ a = 0x200000 + 8 * j + 4 * w
  | .fft k => ∃ j w, 2 * j + 2 ≤ 2 ^ k ∧ w < 4 ∧ a = 0x800000 + 16 * (s.latch.tbl.toNat + 2 * j) + 4 * w
  | .fftf k => ∃ st j w, 1 ≤ st ∧ st ≤ k ∧ j < 2 ^ (st - 1) ∧ w < 4 ∧
      a = 0x400000 + 16 * (j * (s.ctxLen / 2 ^ st)) + 4 * w
  | .ffti k => ∃ st j w, 1 ≤ st ∧ st ≤ k ∧ j < 2 ^ (st - 1) ∧ w < 4 ∧
      a = 0x400000 + 16 * ((2 ^ st - j) * (s.ctxLen / 2 ^ st)) + 4 * w
  | .emb k => ∃ st j, 1 ≤ st ∧ st ≤ k ∧ j < 2 ^ (st - 1) ∧ (a = 0x280000 + 4 * j ∨
      ∃ r w, s.rotgAt j = .ok r ∧ w < 4 ∧
        a = 0x400000 + 16 * (r % (4 * 2 ^ st) * (s.ctxLen / (4 * 2 ^ st))) + 4 * w)
  | .embi k => ∃ st j, 1 ≤ st ∧ st ≤ k ∧ j < 2 ^ (st - 1) ∧ (a = 0x280000 + 4 * j ∨
      ∃ r w, s.rotgAt j = .ok r ∧ w < 4 ∧
        a = 0x400000 + 16 * ((4 * 2 ^ st - r % (4 * 2 ^ st)) * (s.ctxLen / (4 * 2 ^ st))) + 4 * w)
  | .nop | .mcfg | .ccfg | .brev _ | .nttUsr _ | .chk _ => False

end Sys2Proof.Stated

open Sys2Proof Sys2Proof.Machine Sys2Proof.Stated

/-! ### Encoding -/

/-- decode of encode is the command, for every command at every length the field admits (log 20). -/
def Obligations.DecodeOfEncode : Prop := ∀ i : Instr, i.wellFormed = true → decode (encode i) = .ok i

/-- 30_encoding.md R156: the decoder is the opcode map, and at most one row matches a word. -/
def Obligations.DecoderIsTheOpcodeMap : Prop :=
  (∀ (w : Word) (i : Instr), decode w = .ok i ↔
    ∃ r ∈ opcodeMap, r.matchedBy w ∧ i = r.make (w.toNat / 64 % 32)) ∧
  (opcodeMap.Pairwise fun r q => ∀ w, ¬(r.matchedBy w ∧ q.matchedBy w)) ∧
  ∀ r ∈ opcodeMap, ∀ k, mnemonicOf (r.make k) = r.mnemonic

/-- 30_encoding.md R158: the illegal words are exactly the listed ones; one is accepted while BUSY = 0, and
completes with E_ILLEGAL whatever else the state holds. -/
def Obligations.IllegalWordsAreTheListedOnes : Prop :=
  (∀ w : Word, (∃ e, decode w = .error e) ↔ listedIllegal w) ∧
  (∀ w : Word, listedIllegal w ↔ ∀ r ∈ opcodeMap, ¬r.matchedBy w) ∧
  (∀ (w : Word) (s : State), listedIllegal w → s.rstN = true → s.status.busy = false →
    ∃ t, portWrite 0x010 w s = .next t ∧ t.latch.cmd = w ∧ t.status.busy = true) ∧
  ∀ s : State, listedIllegal s.latch.cmd →
    completion s = .next
      { s with
        status := { s.status with busy := false, err := true, errcode := .illegal }
        errInfo := 0
        irqStatus := { s.irqStatus with done := true, err := true } }

/-- Words written out from the encodings of 30_encoding.md R156 and R157, one or more for each family. -/
def Obligations.SampleWordsDecode : Prop :=
  decode 0x00000000 = .ok .nop ∧ decode 0x00000001 = .ok .mcfg ∧ decode 0x00000002 = .ok .ccfg ∧
  decode 0x000000C3 = .ok (.brev 3) ∧ decode 0x00000089 = .ok (.fttf 2) ∧
  decode 0x000010C8 = .ok (.nttUsr 3) ∧ decode 0x00000848 = .ok (.nttInv 1) ∧
  decode 0x000007D1 = .ok (.fftf 31) ∧ decode 0x00000095 = .ok (.embi 2)

/-! ### The life cycle of a command -/

/-- A step runs the decoded command (40_common.md R203, 10_state.md R30): with a command running, the
sequencer's turn is exec of the latched command; with none it is idle. The order of what happens is the
list `inbox`, the model's choice (log 2, log 17). -/
def Obligations.StepRunsTheDecodedCommand : Prop :=
  (∀ (s : State) (i : Instr), s.inbox = [] → s.status.busy = true → decode s.latch.cmd = .ok i →
    step s = exec i s) ∧
  (∀ (s : State) (i : Instr) (es : List Event), s.inbox = .sequencer :: es → s.status.busy = true →
    decode s.latch.cmd = .ok i → step s = exec i { s with inbox := es }) ∧
  (∀ s : State, s.inbox = [] → s.status.busy = false → step s = .next s) ∧
  ∀ (s : State) (a : Access) (es : List Event), s.inbox = .access a :: es →
    step s = serve a { s with inbox := es }

/-- 40_common.md R200: what the accepting write latches, sets and clears. That the snapshot S0 is held as the
latches and a copy of the staging registers is the model's form of it (log 3). -/
def Obligations.CommandWriteWhileIdleIsAccepted : Prop :=
  ∀ (s : State) (v : Word), s.rstN = true → s.status.busy = false →
    portWrite 0x010 v s = .next
      { s with
        latch := { cmd := v, src := s.srcBase, dst := s.dstBase, tbl := s.tblBase, s0 := s.staging }
        status := { s.status with busy := true, err := false, errcode := .ok }
        errInfo := 0
        responses := .writeOkay :: s.responses }

/-- 40_common.md R201. -/
def Obligations.CommandWriteWhileBusyIsAnOverrun : Prop :=
  ∀ (s : State) (v : Word), s.rstN = true → s.status.busy = true →
    ∃ t, portWrite 0x010 v s = .next t ∧
      t = { s with irqStatus := { s.irqStatus with ovr := true }, responses := .writeOkay :: s.responses } ∧
      portRead 0x010 t = .next (answered t (.readOkay s.latch.cmd))

/-- 60_exceptions.md R405: the effects of a completion with an error, and nothing else. -/
def Obligations.ErrorCompletionEffects : Prop :=
  ∀ s t : State, s.status.err = false → completion s = .next t → t.status.err = true →
    (∀ i, decode s.latch.cmd = .ok i → ∃ e info, e ≠ .ok ∧ t = s.afterError i e info) ∧
    ∀ r, decode s.latch.cmd = .error r → t = s.afterError .nop .illegal 0

/-- A command completes, with BUSY = 0 and DONE = 1, or it reads a word that nothing has written
(40_common.md R203, R205, 20_memory.md R120). The fault on an unwritten word is the model's stop (log 5). -/
def Obligations.EveryCommandCompletesOrReadsUnwritten : Prop :=
  ∀ (i : Instr) (s : State),
    (∃ t, exec i s = .next t ∧ t.status.busy = false ∧ t.irqStatus.done = true) ∨
      ∃ a, exec i s = .fault (.uninitRead a) ∧ s.mem.readWord a = none

/-- The frame of the eleven commands that write a buffer: on success only BUSY, DONE and bytes of the output
buffer change; on an error only the error record does (40_common.md R203, R204, 60_exceptions.md R405). -/
def Obligations.BufferCommandFrame : Prop :=
  ∀ (k : Nat) (i : Instr) (s t : State), i ∈ bufferCommands k → exec i s = .next t →
    (s.endsWell t ∧ unchangedOutside s t (0x800000 + 16 * s.latch.dst.toNat) (16 * 2 ^ k)) ∨
      ∃ e info, e ≠ .ok ∧ t = s.afterError i e info

/-- The frame of mcfg and ccfg: on success only BUSY, DONE, the VALID bit, the registers of the context and
entries of its tables change; on an error only the error record and the VALID bit (41_modular.md R250, R251,
42_complex.md R300). -/
def Obligations.ConfigurationFrame : Prop :=
  (∀ s t : State, exec .mcfg s = .next t →
    (t = { s with
           mem := t.mem, actMod := t.actMod, actLogd := t.actLogd, bk := t.bk, mu := t.mu
           status := { s.status with busy := false, mcfgValid := true }
           irqStatus := { s.irqStatus with done := true } } ∧
      ∀ a, ¬inRanges (mayHaveWritten s .mcfg) a → t.mem.get a = s.mem.get a) ∨
      ∃ e info, e ≠ .ok ∧ t = s.afterError .mcfg e info) ∧
  ∀ s t : State, exec .ccfg s = .next t →
    (t = { s with
           mem := t.mem, actLogm := t.actLogm
           status := { s.status with busy := false, ccfgValid := true }
           irqStatus := { s.irqStatus with done := true } } ∧
      ∀ a, ¬inRanges (mayHaveWritten s .ccfg) a → t.mem.get a = s.mem.get a) ∨
      ∃ e info, e ≠ .ok ∧ t = s.afterError .ccfg e info

/-- 60_exceptions.md R402 and 40_common.md R209: the first failing check, in the listed order, is the error
reported; after the other checks the first element that is no residue; decoding comes before every check. -/
def Obligations.ChecksRunInTheListedOrder : Prop :=
  (∀ (s : State) (i : Instr) (e : ErrCode) (info : Word), firstFailing (checkList s i) = some (e, info) →
    exec i s = .next (s.afterError i e info)) ∧
  (∀ (s : State) (k j : Nat) (i : Instr) (x : List Nat), i ∈ modularCommands k → checksPass s i →
    x.length = 2 ^ k → numbersAt s s.latch.src.toNat x → firstNonResidue s.ctxMod x j →
    exec i s = .next (s.afterError i .operand (BitVec.ofNat 32 j))) ∧
  (∀ (s : State) (k j : Nat) (x y : List Nat), checksPass s (.nttUsr k) → x.length = 2 ^ k →
    residuesAt s s.latch.src.toNat s.ctxMod x → y.length = 2 ^ k → numbersAt s s.latch.tbl.toNat y →
    firstNonResidue s.ctxMod y j →
    exec (.nttUsr k) s = .next (s.afterError (.nttUsr k) .operand (0x80000000 ||| BitVec.ofNat 32 j))) ∧
  ∀ (s : State) (r : Reject), decode s.latch.cmd = .error r →
    completion s = .next (s.afterError .nop .illegal 0)

/-- 40_common.md R230 and 42_complex.md R304: nop always succeeds; chk succeeds exactly when n = M/4, and
otherwise reports the first failing check. -/
def Obligations.NopAndChkComplete : Prop :=
  (∀ w, decode w = .ok .nop ↔ w = 0) ∧
  (∀ s : State, exec .nop s = .next
    { s with status := { s.status with busy := false }, irqStatus := { s.irqStatus with done := true } }) ∧
  (∃ t u, portWrite 0x010 0 State.reset = .next t ∧ step t = .next u ∧ u.readReg .status = 0x00000000 ∧
    u.readReg .irqStatus = 0x00000001) ∧
  (∀ w k, decode w = .ok (.chk k) ↔ w &&& 0xFFFFF83F = 0x00000013 ∧ k = w.toNat / 64 % 32) ∧
  (∀ (k : Nat) (s : State), exec (.chk k) s = .next
    (if s.status.ccfgValid = false then s.afterError (.chk k) .noccfg 0
     else if max s.params.logdMax s.params.logmMax < k then s.afterError (.chk k) .limit 0
     else if 2 ^ k ≠ 2 ^ s.actLogm.toNat / 4 then s.afterError (.chk k) .len 0
     else
      { s with status := { s.status with busy := false }
               irqStatus := { s.irqStatus with done := true } })) ∧
  ∀ s : State, s.params = Config.defaults → s.status.ccfgValid = true → s.actLogm = 4 →
    exec (.chk 3) s = .next (s.afterError (.chk 3) .len 0) ∧
    ∃ t, exec (.chk 2) s = .next t ∧ s.endsWell t ∧ t.mem = s.mem

/-! ### Bit reversal -/

/-- 40_common.md R210 and R211. -/
def Obligations.BitReversal : Prop :=
  (∀ k j, j < 2 ^ k → brev k j < 2 ^ k ∧ (∀ b, b < k → (brev k j).testBit b = j.testBit (k - 1 - b)) ∧
    brev k j = ∑ b ∈ Finset.range k, (j.testBit b).toNat * 2 ^ (k - 1 - b)) ∧
  brev 0 0 = 0 ∧
  ∀ (α : Type) (k : Nat) (v : List α), v.length = 2 ^ k → (brevVec k v).length = 2 ^ k ∧
    ∀ j, j < 2 ^ k → (brevVec k v)[j]? = v[brev k j]? ∧ (brevVec k v)[brev k j]? = v[j]?

/-- 40_common.md R232: brev_k is its own inverse, and so are two brev commands over one buffer: the second
reads what the first wrote, and writes to the entries from `e` on. -/
def Obligations.BrevTwiceRestores : Prop :=
  (∀ k j, j < 2 ^ k → brev k (brev k j) = j) ∧
  ∀ (k : Nat) (s : State) (x : List Entry) (e : Word),
    checksPass s (.brev k) → x.length = 2 ^ k → entriesAt s s.latch.src.toNat x →
    checksPass { s with latch := { s.latch with src := s.latch.dst, dst := e } } (.brev k) →
    ∃ t u, exec (.brev k) s = .next t ∧
      exec (.brev k) { t with latch := { t.latch with src := t.latch.dst, dst := e } } = .next u ∧
      entriesAt u e.toNat x ∧
      (s.mem.wf → s.latch.src = s.latch.dst → e = s.latch.dst → u.mem = s.mem)

/-- 40_common.md R231: brev completes and writes the entries, all 128 bits, in bit-reversed order. -/
def Obligations.BrevPermutesTheBuffer : Prop :=
  ∀ (k : Nat) (s : State) (x : List Entry), checksPass s (.brev k) → x.length = 2 ^ k →
    entriesAt s s.latch.src.toNat x →
    ∃ t, exec (.brev k) s = .next t ∧ s.endsWell t ∧
      unchangedOutside s t (0x800000 + 16 * s.latch.dst.toNat) (16 * 2 ^ k) ∧
      ∀ j, j < 2 ^ k → ∃ v, x[brev k j]? = some v ∧ t.dRead (s.latch.dst.toNat + j) = .ok v

/-! ### The contexts -/

/-- 41_modular.md R251: the compute phase of mcfg, which runs when every check of R250 passes. -/
def Obligations.McfgBuildsTheTables : Prop :=
  ∀ s : State, s.params.wf → checksPass s .mcfg →
    let d := s.latch.s0.degree.toNat
    let a := s.latch.s0.modulus.toNat
    let w := s.latch.s0.root.toNat
    let wi := s.latch.s0.rootInv.toNat
    let di := s.latch.s0.dInv.toNat
    ∃ t, exec .mcfg s = .next t ∧ t.status.mcfgValid = true ∧ t.status.busy = false ∧
      t.irqStatus.done = true ∧ t.actMod = s.latch.s0.modulus ∧ 2 ^ t.actLogd.toNat = d ∧
      (2 ^ (t.bk.toNat - 1) ≤ a ∧ a < 2 ^ t.bk.toNat) ∧ t.mu.toNat = 2 ^ (2 * t.bk.toNat) / a ∧
      (∀ i, i < d → t.fwdAt i = .ok (w ^ i % a) ∧ t.invAt i = .ok (wi ^ i % a) ∧
        t.sinvAt i = .ok (di * wi ^ i % a)) ∧
      ∀ b, ¬inRanges [(0x100000, 8 * d), (0x180000, 8 * d), (0x200000, 8 * d)] b →
        t.mem.get b = s.mem.get b

/-- 42_complex.md R300: the encoding, the two checks with the error effect, and the compute phase of ccfg. -/
def Obligations.CcfgBuildsTheRotationGroup : Prop :=
  (∀ w, decode w = .ok .ccfg ↔ w = 2) ∧
  ∀ s : State, s.params.wf →
    let M := s.latch.s0.clen.toNat
    ((∀ e, M ≠ 2 ^ e) → exec .ccfg s = .next (s.afterError .ccfg .pow2 0)) ∧
    ((∃ e, M = 2 ^ e) → M < 4 ∨ 2 ^ s.params.logmMax < M →
      exec .ccfg s = .next (s.afterError .ccfg .limit 0)) ∧
    ((∃ e, M = 2 ^ e) → 4 ≤ M → M ≤ 2 ^ s.params.logmMax →
      ∃ t, exec .ccfg s = .next t ∧ t.status.ccfgValid = true ∧ t.status.busy = false ∧
        t.irqStatus.done = true ∧ 2 ^ t.actLogm.toNat = M ∧
        (∀ j, j < M / 4 → t.rotgAt j = .ok (5 ^ j % M) ∧ 5 ^ j % M % 2 = 1) ∧
        unchangedOutside s t 0x280000 (4 * (M / 4)))

/-! ### The modular commands -/

/-- 41_modular.md R252: ntt.fwd, ntt.inv and ntt.usr complete and write NTT_CORE of the input over the table.
Of FWD and INV only the even entries are read (41_modular.md R256; log 10); a USR table is the n entries at
TBL_L, all of them residues. -/
def Obligations.NttWritesTheTransform : Prop :=
  (∀ (k : Nat) (s : State) (x : List Nat) (T : Nat → Nat) (i : Instr) (read : Nat → Except Stop Nat),
    (i = .nttFwd k ∧ read = s.fwdAt ∨ i = .nttInv k ∧ read = s.invAt) → checksPass s i →
    x.length = 2 ^ k → residuesAt s s.latch.src.toNat s.ctxMod x →
    (∀ j, 2 * j + 2 ≤ 2 ^ k → read (2 * j) = .ok (T (2 * j))) →
    ∃ A t, nttOf s.ctxMod k T x = .ok A ∧ exec i s = .next t ∧ writesBuffer s t (A.map residueEntry)) ∧
  ∀ (k : Nat) (s : State) (x y : List Nat), checksPass s (.nttUsr k) → x.length = 2 ^ k →
    y.length = 2 ^ k → residuesAt s s.latch.src.toNat s.ctxMod x →
    residuesAt s s.latch.tbl.toNat s.ctxMod y →
    ∃ A t, nttOf s.ctxMod k (fun j => y.getD j 0) x = .ok A ∧ exec (.nttUsr k) s = .next t ∧
      writesBuffer s t (A.map residueEntry)

/-- 41_modular.md R253 and R254: fttf and ftti complete, with the pre-twist by FWD and the post-twist by
SINV. fttf reads all of FWD, for its twist; of INV, ftti reads the even entries only (41_modular.md R256;
log 10), so no other has to be written. -/
def Obligations.FttWritesTheTwistedTransform : Prop :=
  (∀ (k : Nat) (s : State) (x : List Nat) (T : Nat → Nat), checksPass s (.fttf k) → x.length = 2 ^ k →
    residuesAt s s.latch.src.toNat s.ctxMod x → (∀ j, j < 2 ^ k → s.fwdAt j = .ok (T j)) →
    ∃ A t, nttOf s.ctxMod k T (x.mapIdx fun i v => v * T i % s.ctxMod) = .ok A ∧
      exec (.fttf k) s = .next t ∧ writesBuffer s t (A.map residueEntry)) ∧
  ∀ (k : Nat) (s : State) (x : List Nat) (T S : Nat → Nat), checksPass s (.ftti k) → x.length = 2 ^ k →
    residuesAt s s.latch.src.toNat s.ctxMod x →
    (∀ j, 2 * j + 2 ≤ 2 ^ k → s.invAt (2 * j) = .ok (T (2 * j))) →
    (∀ j, j < 2 ^ k → s.sinvAt j = .ok (S j)) →
    ∃ A t, nttOf s.ctxMod k T x = .ok A ∧ exec (.ftti k) s = .next t ∧
      writesBuffer s t ((A.mapIdx fun i v => v * S i % s.ctxMod).map residueEntry)

/-- 41_modular.md R255: NTT_CORE stage by stage. `S st` is A after stage `st`. -/
def Obligations.NttCoreStageByStage : Prop :=
  ∀ (a k : Nat) (T : Nat → Nat) (x : List Nat), 0 < a → x.length = 2 ^ k →
    ∃ S : Nat → Nat → Nat, (∀ j, j < 2 ^ k → x[brev k j]? = some (S 0 j)) ∧
      (∀ st blk i, 1 ≤ st → st ≤ k → blk < 2 ^ (k - st) → i < 2 ^ (st - 1) →
        let e := blk * 2 ^ st + i
        let o := blk * 2 ^ st + i + 2 ^ (st - 1)
        let t := T (i * 2 ^ (1 + k - st)) * S (st - 1) o % a
        S st e = (S (st - 1) e + t) % a ∧ S st o = (S (st - 1) e + (a - t)) % a) ∧
      nttOf a k T x = .ok ((List.range (2 ^ k)).map (S k))

/-- A stage of any transform does its butterflies on disjoint pairs, each on the values from before the stage
(00_scope.md R11, 41_modular.md R255, 42_complex.md R301 to R306). -/
def Obligations.StageOfButterfliesPointwise : Prop :=
  ∀ (α τ : Type) (bfly : τ → α → α → α × α) (w : Nat → τ) (k st : Nat) (A : List α),
    A.length = 2 ^ k → 1 ≤ st → st ≤ k →
    ∃ B, runPairs (fun i => .ok (w i)) bfly (stagePairs k st) A = .ok B ∧ B.length = 2 ^ k ∧
      ∀ blk i, blk < 2 ^ (k - st) → i < 2 ^ (st - 1) →
        ∃ u v, A[blk * 2 ^ st + i]? = some u ∧ A[blk * 2 ^ st + i + 2 ^ (st - 1)]? = some v ∧
          B[blk * 2 ^ st + i]? = some (bfly (w i) u v).1 ∧
          B[blk * 2 ^ st + i + 2 ^ (st - 1)]? = some (bfly (w i) u v).2

/-- 41_modular.md R256. -/
def Obligations.TwiddleIndexStaysInTheTable : Prop :=
  (∀ k st i, 1 ≤ st → st ≤ k → i < 2 ^ (st - 1) →
    twiddleIndex k st i = i * 2 ^ (1 + k - st) ∧ twiddleIndex k st i ≤ 2 ^ k - 2 ^ (k - st + 1) ∧
      twiddleIndex k st i ≤ 2 ^ k - 2 ∧ twiddleIndex k st i % 2 = 0) ∧
  (∀ k j, 1 ≤ k → 2 * j ≤ 2 ^ k - 2 → ∃ i, i < 2 ^ (k - 1) ∧ twiddleIndex k k i = 2 * j) ∧
  ∀ (a k : Nat) (T U : Nat → Except Stop Nat) (x : List Nat),
    (∀ j, 2 * j + 2 ≤ 2 ^ k → T (2 * j) = U (2 * j)) → nttCore a k T x = nttCore a k U x

/-- 41_modular.md R257: NTT_CORE over the powers of w is the cyclic transform with root w^2, in natural
order; and over the powers of any unit w, with n a unit too, it is invertible. -/
def Obligations.NttCoreIsTheCyclicTransform : Prop :=
  (∀ (a k w : Nat) (x : List Nat), 2 ≤ a → w ^ 2 ^ k % a = a - 1 → x.length = 2 ^ k → (∀ v ∈ x, v < a) →
    (∀ st i, 1 ≤ st → st ≤ k → twiddleIndex k st i = 2 * (i * (2 ^ k / 2 ^ st))) ∧
    nttOf a k (fun j => w ^ j % a) x =
      .ok ((List.range (2 ^ k)).map fun m => (∑ j ∈ Finset.range (2 ^ k), x.getD j 0 * w ^ (2 * (j * m))) % a)) ∧
  ∀ (a k w wi di : Nat) (x y : List Nat), 2 ≤ a → w * wi % a = 1 → 2 ^ k % a * di % a = 1 →
    x.length = 2 ^ k → y.length = 2 ^ k → (∀ v ∈ x, v < a) → (∀ v ∈ y, v < a) →
    nttOf a k (fun j => w ^ j % a) x = nttOf a k (fun j => w ^ j % a) y → x = y

/-- 41_modular.md R258: in any valid modular context, ftti of what fttf wrote is the input. The second command
reads the buffer the first wrote and writes to the entries from `e` on. -/
def Obligations.FttRoundTrip : Prop :=
  ∀ (s : State) (k w wi di : Nat) (x : List Nat) (e : Word), s.params.wf → s.modularTables w wi di →
    checksPass s (.fttf k) → x.length = 2 ^ k → residuesAt s s.latch.src.toNat s.ctxMod x →
    checksPass { s with latch := { s.latch with src := s.latch.dst, dst := e } } (.ftti k) →
    ∃ t u, exec (.fttf k) s = .next t ∧ s.endsWell t ∧
      exec (.ftti k) { t with latch := { t.latch with src := t.latch.dst, dst := e } } = .next u ∧
      u.status.err = s.status.err ∧ entriesAt u e.toNat (x.map residueEntry)

/-- 41_modular.md R259: with w^d = -1, ftti of the pointwise product of two fttf results is the negacyclic
product; a prime modulus has w^d = -1; for the composite modulus 15 with d = 2 and w = 2 (90_conflicts.md C10)
the law fails. -/
def Obligations.NegacyclicConvolution : Prop :=
  (∀ a d w : Nat, a.Prime → w ^ (2 * d) % a = 1 → w ^ d % a ≠ 1 → w ^ d % a = a - 1) ∧
  (∀ (a k w wi di : Nat) (p q : List Nat), 2 ≤ a → w ^ 2 ^ k % a = a - 1 → w * wi % a = 1 →
    2 ^ k % a * di % a = 1 → p.length = 2 ^ k → q.length = 2 ^ k → (∀ v ∈ p, v < a) → (∀ v ∈ q, v < a) →
    ∃ P Q, fttForward a k (fun j => w ^ j % a) p = .ok P ∧ fttForward a k (fun j => w ^ j % a) q = .ok Q ∧
      fttInverse a k (fun j => wi ^ j % a) (fun j => di * wi ^ j % a) (pointwise a P Q) =
        .ok (negacyclic a (2 ^ k) p q)) ∧
  ∃ p q P Q R, p.length = 2 ∧ q.length = 2 ∧ (∀ v ∈ p, v < 15) ∧ (∀ v ∈ q, v < 15) ∧
    fttForward 15 1 (fun j => 2 ^ j % 15) p = .ok P ∧ fttForward 15 1 (fun j => 2 ^ j % 15) q = .ok Q ∧
    fttInverse 15 1 (fun j => 8 ^ j % 15) (fun j => 8 * 8 ^ j % 15) (pointwise 15 P Q) = .ok R ∧
    R ≠ negacyclic 15 2 p q

/-- 40_common.md R212 and R215: the primitives give the exact least non-negative residues. -/
def Obligations.ModularPrimitives : Prop :=
  ∀ a x y w : Nat, 2 ≤ a → x < a → y < a → w < a →
    (madd a x y < a ∧ (a ∣ x + y - madd a x y) ∧ madd a x y ≤ x + y) ∧
    msub a x y = (if x < y then x + a - y else x - y) ∧
    (mmul a x y < a ∧ (a ∣ x * y - mmul a x y) ∧ mmul a x y ≤ x * y) ∧
    mbfly a w x y = (madd a x (mmul a w y), msub a x (mmul a w y))

/-- 40_common.md R214: the Barrett datapath with the constants BK and MU gives the exact product, within the
bounds the rule writes beside each line. -/
def Obligations.BarrettGivesTheExactProduct : Prop :=
  ∀ a x y : Nat, 2 ≤ a → a < 2 ^ 64 → x < a → y < a →
    let bk := bitLength a
    let mu := 2 ^ (2 * bk) / a
    let p := x * y
    let q := p / 2 ^ (bk - 1) * mu / 2 ^ (bk + 1)
    (2 ≤ bk ∧ bk ≤ 64 ∧ 2 ^ (bk - 1) ≤ a ∧ a < 2 ^ bk) ∧ p < a ^ 2 ∧ a ^ 2 < 2 ^ (2 * bk) ∧
      q ≤ p / a ∧ p / a ≤ q + 2 ∧ p - q * a < 3 * a ∧ 3 * a < 2 ^ 66 ∧
      barrett a bk mu x y = mmul a x y ∧ mmul a x y = x * y % a

/-! ### Floating point -/

/-- RN rounds to the nearest binary64 number, a tie to the one with an even last bit, and overflows from
2^1024 - 2^970 on; the sign is kept, and subnormals are not flushed (40_common.md R221, R223; the overflow
threshold and the sign of a zero are IEEE 754's, log 13). -/
def Obligations.RoundingIsToNearestEven : Prop :=
  ∀ (neg : Bool) (m : Nat) (e : Int),
    let v := (Exact.fin neg m e).toRat
    let r := rn (.fin neg m e)
    r.getLsbD 63 = neg ∧
    (|v| < 2 ^ 1024 - 2 ^ 970 → finite r = true ∧
      ∀ y, finite y = true → |valueOf r - v| ≤ |valueOf y - v| ∧
        (|valueOf r - v| = |valueOf y - v| → valueOf y ≠ valueOf r → r.getLsbD 0 = false)) ∧
    (2 ^ 1024 - 2 ^ 970 ≤ |v| → r = if neg then minusInf else plusInf)

/-- Every number is a fixed point of rounding, bit for bit, and the fields of a pattern give its value
(40_common.md R220, R223). -/
def Obligations.EveryNumberRoundsToItself : Prop :=
  (∀ x : Dword, ¬isNaN x → rn (unpack x) = x) ∧
  (∀ x : Dword, (x.extractLsb' 52 11).toNat ≠ 2047 → (x.extractLsb' 52 11).toNat ≠ 0 →
    valueOf x = (if x.getLsbD 63 then -1 else 1) * (2 ^ 52 + ((x.extractLsb' 0 52).toNat : ℚ)) *
      2 ^ (((x.extractLsb' 52 11).toNat : Int) - 1075)) ∧
  (∀ x : Dword, (x.extractLsb' 52 11).toNat = 0 →
    valueOf x = (if x.getLsbD 63 then -1 else 1) * ((x.extractLsb' 0 52).toNat : ℚ) * 2 ^ (-1074 : Int)) ∧
  ∀ x : Dword, finite x = true ↔ (x.extractLsb' 52 11).toNat ≠ 2047

/-- The elementary operations round the exact result of finite operands once (40_common.md R221). -/
def Obligations.OperationsRoundTheExactResult : Prop :=
  ∀ x y : Dword, finite x = true → finite y = true →
    (∃ n m e, fadd x y = rn (.fin n m e) ∧ (Exact.fin n m e).toRat = valueOf x + valueOf y) ∧
    (∃ n m e, fsub x y = rn (.fin n m e) ∧ (Exact.fin n m e).toRat = valueOf x - valueOf y) ∧
    (∃ n m e, fmul x y = rn (.fin n m e) ∧ (Exact.fin n m e).toRat = valueOf x * valueOf y) ∧
    (∀ z, finite z = true → ∃ n m e, fma x y (unpack z) = rn (.fin n m e) ∧
      (Exact.fin n m e).toRat = valueOf x * valueOf y + valueOf z) ∧
    ∀ k, ∃ n m e, fdivPow2 x k = rn (.fin n m e) ∧ (Exact.fin n m e).toRat = valueOf x / 2 ^ k

/-- Zeros and infinities, and the two invalid operations (40_common.md R221; the results are IEEE 754's,
log 13). -/
def Obligations.ZerosAndInfinities : Prop :=
  (∀ x y : Dword, finite x = true → finite y = true → valueOf x + valueOf y = 0 →
    fadd x y = if x.getLsbD 63 && y.getLsbD 63 then minusZero else plusZero) ∧
  (∀ x y : Dword, finite x = true → finite y = true → valueOf x * valueOf y = 0 →
    fmul x y = if x.getLsbD 63 ^^ y.getLsbD 63 then minusZero else plusZero) ∧
  (∀ x : Dword, finite x = true → fadd plusInf x = plusInf ∧ fadd x minusInf = minusInf ∧
    fsub x plusInf = minusInf ∧ fsub plusInf x = plusInf) ∧
  (∀ x : Dword, finite x = true → valueOf x ≠ 0 →
    fmul plusInf x = (if x.getLsbD 63 then minusInf else plusInf) ∧
    fmul x minusInf = (if x.getLsbD 63 then plusInf else minusInf)) ∧
  (∀ x : Dword, finite x = true → valueOf x = 0 →
    fmul plusInf x = canonicalNaN ∧ fmul x minusInf = canonicalNaN) ∧
  fadd plusInf minusInf = canonicalNaN ∧ fsub plusInf plusInf = canonicalNaN ∧
  ∀ k, fdivPow2 plusInf k = plusInf ∧ fdivPow2 minusZero k = minusZero

/-- 40_common.md R222: an operation delivers no NaN but the canonical one, always for a NaN operand; a value
that passes through no operation is moved bit for bit. -/
def Obligations.NaNsAreCanonical : Prop :=
  canonicalNaN = 0x7FF8000000000000 ∧
  (∀ x y : Dword, isNaN x ∨ isNaN y →
    fadd x y = canonicalNaN ∧ fsub x y = canonicalNaN ∧ fmul x y = canonicalNaN ∧
      ∀ z, fma x y z = canonicalNaN) ∧
  (∀ x : Dword, isNaN x → ∀ k y z, fdivPow2 x k = canonicalNaN ∧ fma y z (unpack x) = canonicalNaN) ∧
  (∀ (x y : Dword) (z : Exact) (k : Nat) (r : Dword),
    r = fadd x y ∨ r = fsub x y ∨ r = fmul x y ∨ r = fma x y z ∨ r = fdivPow2 x k → isNaN r →
      r = canonicalNaN) ∧
  (∀ (s : State) (i : Instr) (v : Entry), i ∈ [.brev 0, .fft 0, .fftf 0, .emb 0] → checksPass s i →
    s.dRead s.latch.src.toNat = .ok v →
    ∃ t, exec i s = .next t ∧ s.endsWell t ∧ t.dRead s.latch.dst.toNat = .ok v) ∧
  ∀ (k j : Nat) (v : List Cplx), v.length = 2 ^ k → j < 2 ^ k → (brevVec k v)[j]? = v[brev k j]?

/-- 40_common.md R224: the two formulas, separate the default, and the separate product commutes bit for bit. -/
def Obligations.ComplexProduct : Prop :=
  Config.defaults.cmulMode = .separate ∧
  (∀ w z : Cplx, cmul .separate w z =
    { re := fsub (fmul w.re z.re) (fmul w.im z.im), im := fadd (fmul w.re z.im) (fmul w.im z.re) }) ∧
  (∀ w z : Cplx, cmul .fused w z =
    { re := fma w.re z.re (unpack (fmul w.im z.im)).neg, im := fma w.re z.im (unpack (fmul w.im z.re)) }) ∧
  ∀ w z : Cplx, cmul .separate w z = cmul .separate z w

/-- The complex butterflies and scaling; dividing by 2^k is exact as long as the exact quotient is no smaller
than the least normal number (40_common.md R225, R226; 42_complex.md R306). -/
def Obligations.ScalingByPowersOfTwoIsExact : Prop :=
  (∀ (x : Dword) (k : Nat), finite x = true → (2 : ℚ) ^ (-1022 : Int) ≤ |valueOf x| / 2 ^ k →
    finite (fdivPow2 x k) = true ∧ valueOf (fdivPow2 x k) = valueOf x / 2 ^ k) ∧
  (∀ (u : Cplx) (k : Nat), cscale k u = { re := fdivPow2 u.re k, im := fdivPow2 u.im k }) ∧
  ∀ (mode : Config.CMulMode) (w u v : Cplx),
    cbfly mode w u v = (cadd u (cmul mode w v), csub u (cmul mode w v)) ∧
    cbflyInv mode w u v = (cadd u v, cmul mode w (csub u v))

/-! ### The complex commands -/

/-- 42_complex.md R301: fft completes and writes the stages over its own table, of which it reads the even
entries only (log 10). -/
def Obligations.FftWritesTheStages : Prop :=
  ∀ (k : Nat) (s : State) (x : List Cplx) (T : Nat → Cplx), checksPass s (.fft k) → x.length = 2 ^ k →
    cplxAt s s.latch.src.toNat x →
    (∀ j, 2 * j + 2 ≤ 2 ^ k → s.dReadCplx (s.latch.tbl.toNat + 2 * j) = .ok (T (2 * j))) →
    ∃ A t, stagesOf s.params.cmulMode k (fun st i => T (i * 2 ^ (1 + k - st))) (brevVec k x) = .ok A ∧
      exec (.fft k) s = .next t ∧ writesBuffer s t (A.map Cplx.toEntry)

/-- 42_complex.md R302 and R303: fftf and ffti complete; the root of pair j in the stage of length ell is
CROOT[j * (M / ell)], for ffti CROOT[(ell - j) * (M / ell)], and ffti scales every output by 1/n. Only the
entries used are read (log 10). -/
def Obligations.FftfAndFftiWriteTheStages : Prop :=
  (∀ (k : Nat) (s : State) (x : List Cplx) (C : Nat → Cplx), checksPass s (.fftf k) → x.length = 2 ^ k →
    cplxAt s s.latch.src.toNat x →
    (∀ st j, 1 ≤ st → st ≤ k → j < 2 ^ (st - 1) →
      s.crootAt (j * (s.ctxLen / 2 ^ st)) = .ok (C (j * (s.ctxLen / 2 ^ st)))) →
    ∃ A t, stagesOf s.params.cmulMode k (fun st j => C (j * (s.ctxLen / 2 ^ st))) (brevVec k x) = .ok A ∧
      exec (.fftf k) s = .next t ∧ writesBuffer s t (A.map Cplx.toEntry)) ∧
  ∀ (k : Nat) (s : State) (x : List Cplx) (C : Nat → Cplx), checksPass s (.ffti k) → x.length = 2 ^ k →
    cplxAt s s.latch.src.toNat x →
    (∀ st j, 1 ≤ st → st ≤ k → j < 2 ^ (st - 1) →
      s.crootAt ((2 ^ st - j) * (s.ctxLen / 2 ^ st)) = .ok (C ((2 ^ st - j) * (s.ctxLen / 2 ^ st)))) →
    ∃ A t, stagesOf s.params.cmulMode k (fun st j => C ((2 ^ st - j) * (s.ctxLen / 2 ^ st))) (brevVec k x) =
        .ok A ∧
      exec (.ffti k) s = .next t ∧ writesBuffer s t (A.map fun z => (cscale k z).toEntry)

/-- 42_complex.md R305 and R306: emb and embi complete. The root of pair j in the stage of length l is
CROOT[(5^j mod M mod 4l) * (M / 4l)], for embi CROOT[(4l - (5^j mod M mod 4l)) * (M / 4l)]; embi runs the
stages of falling length over the input in natural order, then reverses and scales. The premise on ROTG is
the invariant of the complex context, stated below. -/
def Obligations.EmbAndEmbiWriteTheStages : Prop :=
  (∀ (k : Nat) (s : State) (x : List Cplx) (C : Nat → Cplx), s.complexContext → checksPass s (.emb k) →
    x.length = 2 ^ k → cplxAt s s.latch.src.toNat x →
    (∀ st j, 1 ≤ st → st ≤ k → j < 2 ^ (st - 1) →
      s.crootAt (5 ^ j % s.ctxLen % (4 * 2 ^ st) * (s.ctxLen / (4 * 2 ^ st))) =
        .ok (C (5 ^ j % s.ctxLen % (4 * 2 ^ st) * (s.ctxLen / (4 * 2 ^ st))))) →
    ∃ A t,
      stagesOf s.params.cmulMode k
        (fun st j => C (5 ^ j % s.ctxLen % (4 * 2 ^ st) * (s.ctxLen / (4 * 2 ^ st)))) (brevVec k x) = .ok A ∧
      exec (.emb k) s = .next t ∧ writesBuffer s t (A.map Cplx.toEntry)) ∧
  ∀ (k : Nat) (s : State) (x : List Cplx) (C : Nat → Cplx), s.complexContext → checksPass s (.embi k) →
    x.length = 2 ^ k → cplxAt s s.latch.src.toNat x →
    (∀ st j, 1 ≤ st → st ≤ k → j < 2 ^ (st - 1) →
      s.crootAt ((4 * 2 ^ st - 5 ^ j % s.ctxLen % (4 * 2 ^ st)) * (s.ctxLen / (4 * 2 ^ st))) =
        .ok (C ((4 * 2 ^ st - 5 ^ j % s.ctxLen % (4 * 2 ^ st)) * (s.ctxLen / (4 * 2 ^ st))))) →
    ∃ A t,
      inverseStagesOf s.params.cmulMode k
        (fun st j => C ((4 * 2 ^ st - 5 ^ j % s.ctxLen % (4 * 2 ^ st)) * (s.ctxLen / (4 * 2 ^ st)))) x = .ok A ∧
      exec (.embi k) s = .next t ∧ writesBuffer s t ((brevVec k A).map fun z => (cscale k z).toEntry)

/-- The CROOT indices stay inside the table (the corner cases of 42_complex.md R302, R303, R305, R306). `r`
stands for ROTG[j], which is odd. -/
def Obligations.RootIndicesStayInTheTable : Prop :=
  (∀ L st j, 1 ≤ st → st ≤ L → j < 2 ^ (st - 1) →
    fftfIndex (2 ^ L) st j < 2 ^ L / 2 ∧
      2 ^ L / 2 < fftiIndex (2 ^ L) st j ∧ fftiIndex (2 ^ L) st j ≤ 2 ^ L ∧
      fftiIndex (2 ^ L) st 0 = 2 ^ L) ∧
  ∀ k st r, 1 ≤ st → st ≤ k → r % 2 = 1 →
    let M := 2 ^ (k + 2)
    let gap := M / (4 * 2 ^ st)
    1 ≤ gap ∧ embIndex M st r = r % (4 * 2 ^ st) * gap ∧ embIndex M st r < M ∧
      embiIndex M st r = (4 * 2 ^ st - r % (4 * 2 ^ st)) * gap ∧ gap ≤ embiIndex M st r ∧
      embiIndex M st r ≤ M - gap

/-- 42_complex.md R307: over a table of the right roots, fft and fftf give the same state, bit for bit. -/
def Obligations.FftAgreesWithFftf : Prop :=
  ∀ (k : Nat) (s : State), checksPass s (.fft k) → checksPass s (.fftf k) → 2 * 2 ^ k ≤ s.ctxLen →
    (∀ j, j < 2 ^ k → ∃ v, s.dReadCplx (s.latch.tbl.toNat + j) = .ok v ∧
      s.crootAt (j * (s.ctxLen / (2 * 2 ^ k))) = .ok v) →
    exec (.fft k) s = exec (.fftf k) s

/-! ### The host port -/

/-- 20_memory.md R108 and R103: ERROR exactly in the listed cases, with no effect; a read then returns 0. -/
def Obligations.ErrorResponseChangesNothing : Prop :=
  ∀ (s : State) (a : Access), s.params.wf → s.rstN = true →
    (errorCase s a → serve a s = .next (answered s (errorAnswer a))) ∧
    (¬errorCase s a → ∀ t, serve a s = .next t → ∃ r, isOkay r ∧ t.responses = r :: s.responses)

/-- 20_memory.md R111: no read has a side effect, and every access but a write to CMD or CTRL is
idempotent. -/
def Obligations.ReadsHaveNoSideEffect : Prop :=
  (∀ (s t : State) (addr : BitVec 24) (size : AccessSize), serve (.read addr size) s = .next t →
    ∃ r, t = answered s r ∧ serve (.read addr size) t = .next (answered t r)) ∧
  ∀ (s t : State) (a : Access), ¬isCommandOrReset a → serve a s = .next t →
    ∃ r, t.responses = r :: s.responses ∧ serve a t = .next (answered t r)

/-- 20_memory.md R104 to R107, the memory windows. DMEM and CROOT while BUSY = 0: a read gives its 32 bits of
the entry, and a write replaces those bits and nothing else. FWD, INV, SINV and ROTG: a read while BUSY = 0
gives its 32 bits of the entry, and every write gets ERROR and has no effect. Written-ness is by the word
(20_memory.md R120): a read of a written word is answered whatever the other words of its entry are. -/
def Obligations.MemoryWindows : Prop :=
  (∀ (s : State) (b e w : Nat), s.params.wf → s.rstN = true → s.status.busy = false → w < 4 →
    (b = 0x800000 + 16 * e ∧ e < 2 ^ s.params.dmemLogw ∨ b = 0x400000 + 16 * e ∧ e ≤ 2 ^ s.params.logmMax) →
    (∀ v, s.mem.readWord (b + 4 * w) = some v →
      portRead (b + 4 * w) s = .next (answered s (.readOkay v))) ∧
    (∀ E, s.loadEntry b = .ok E →
      portRead (b + 4 * w) s = .next (answered s (.readOkay (E.extractLsb' (32 * w) 32)))) ∧
    ∀ v, ∃ t, portWrite (b + 4 * w) v s = .next t ∧
      t = { s with mem := t.mem, responses := .writeOkay :: s.responses } ∧
      unchangedOutside s t (b + 4 * w) 4 ∧ t.mem.readWord (b + 4 * w) = some v ∧
      ∀ E, s.loadEntry b = .ok E → ∃ F, t.loadEntry b = .ok F ∧
        ∀ u, u < 4 → F.extractLsb' (32 * u) 32 = if u = w then v else E.extractLsb' (32 * u) 32) ∧
  (∀ (s : State) (b i w : Nat), s.params.wf → s.rstN = true → s.status.busy = false → w < 2 →
    (b = 0x100000 ∨ b = 0x180000 ∨ b = 0x200000) → i < 2 ^ s.params.logdMax →
    (∀ v, s.mem.readWord (b + 8 * i + 4 * w) = some v →
      portRead (b + 8 * i + 4 * w) s = .next (answered s (.readOkay v))) ∧
    ∀ v, s.loadDword (b + 8 * i) = .ok v →
      portRead (b + 8 * i + 4 * w) s = .next (answered s (.readOkay (v.extractLsb' (32 * w) 32)))) ∧
  (∀ (s : State) (j : Nat) (v : Word), s.params.wf → s.rstN = true → s.status.busy = false →
    j < 2 ^ (s.params.logmMax - 2) → s.loadWord (0x280000 + 4 * j) = .ok v →
    portRead (0x280000 + 4 * j) s = .next (answered s (.readOkay v))) ∧
  ∀ (s : State) (off : Nat) (v : Word), s.params.wf → s.rstN = true → 0x100000 ≤ off → off ≤ 0x29FFFF →
    portWrite off v s = .next (answered s .writeError)

/-- What is unwritten stops the model (20_memory.md R120; the fault UNINIT_READ is the model's own, log 5):
a host read of an unwritten word; a whole-entry command any word of whose input is unwritten; a modular command
one of whose low words is unwritten after residues only; ntt.usr the same of its table at TBL_L; and every
command that reads an unwritten word of FWD, INV, SINV, fft's table at TBL_L, ROTG or CROOT
(70_reset_and_hazards.md R454). Which words of a table a command reads is log 10, which elements it reads
before a residue check fails is log 9. -/
def Obligations.UnwrittenWordsFault : Prop :=
  (∀ (s : State) (off : Nat), s.params.wf → s.rstN = true → s.status.busy = false → off < 2 ^ 24 →
    off % 4 = 0 → windowOf s.params off = .readOnly ∨ windowOf s.params off = .readWrite →
    s.mem.readWord off = none → portRead off s = .fault (.uninitRead off)) ∧
  (∀ (k j w : Nat) (i : Instr) (s : State), i ∈ wholeEntryCommands k → checksPass s i → j < 2 ^ k → w < 4 →
    s.mem.readWord (0x800000 + 16 * (s.latch.src.toNat + j) + 4 * w) = none →
    ∃ a, exec i s = .fault (.uninitRead a)) ∧
  (∀ (k w : Nat) (i : Instr) (s : State) (x : List Nat), i ∈ modularCommands k → checksPass s i →
    x.length < 2 ^ k → w < 2 → residuesAt s s.latch.src.toNat s.ctxMod x →
    s.mem.readWord (0x800000 + 16 * (s.latch.src.toNat + x.length) + 4 * w) = none →
    ∃ a, exec i s = .fault (.uninitRead a)) ∧
  (∀ (k w : Nat) (s : State) (x y : List Nat), checksPass s (.nttUsr k) → x.length = 2 ^ k →
    residuesAt s s.latch.src.toNat s.ctxMod x → y.length < 2 ^ k → w < 2 →
    residuesAt s s.latch.tbl.toNat s.ctxMod y →
    s.mem.readWord (0x800000 + 16 * (s.latch.tbl.toNat + y.length) + 4 * w) = none →
    ∃ a, exec (.nttUsr k) s = .fault (.uninitRead a)) ∧
  (∀ (k a : Nat) (i : Instr) (s : State) (x : List Nat), i ∈ [.nttFwd k, .nttInv k, .fttf k, .ftti k] →
    checksPass s i → x.length = 2 ^ k → residuesAt s s.latch.src.toNat s.ctxMod x →
    readsTableWord s a i → s.mem.readWord a = none → ∃ b, exec i s = .fault (.uninitRead b)) ∧
  ∀ (k a : Nat) (i : Instr) (s : State), i ∈ [.fft k, .fftf k, .ffti k, .emb k, .embi k] → checksPass s i →
    readsTableWord s a i → s.mem.readWord a = none → ∃ b, exec i s = .fault (.uninitRead b)

/-- 10_state.md R41 to R47: a register read at the port gives the register; a written register holds the value, all 32 bits, and no other register changes,
nor any memory byte; {HI, LO} is the 64-bit value. BUSY does not matter (20_memory.md R109). -/
def Obligations.StoredRegistersHoldWhatIsWritten : Prop :=
  (∀ (s : State) (r : Reg), s.rstN = true →
    portRead r.offset s = .next (answered s (.readOkay (s.readReg r)))) ∧
  (∀ (s : State) (r : Reg) (v : Word), s.rstN = true → r ∈ storedRegs →
    ∃ t, portWrite r.offset v s = .next t ∧ t.readReg r = v ∧ (∀ q, q ≠ r → t.readReg q = s.readReg q) ∧
      t = { s with
            srcBase := t.srcBase, dstBase := t.dstBase, tblBase := t.tblBase, staging := t.staging
            responses := .writeOkay :: s.responses }) ∧
  ∀ s : State, s.readReg .modHi ++ s.readReg .modLo = s.staging.modulus ∧
    s.readReg .rootHi ++ s.readReg .rootLo = s.staging.root ∧
    s.readReg .rootInvHi ++ s.readReg .rootInvLo = s.staging.rootInv ∧
    s.readReg .dInvHi ++ s.readReg .dInvLo = s.staging.dInv ∧
    s.readReg .actModHi ++ s.readReg .actModLo = s.actMod

/-- Read-only registers and reserved offsets ignore a write, with OKAY; a reserved offset reads 0, and so do
the reserved bits of the named registers (10_state.md R31, R35, R37 to R39, R49 to R51, 20_memory.md R111). -/
def Obligations.ReservedReadsZeroAndWritesAreIgnored : Prop :=
  (∀ (s : State) (r : Reg) (v : Word), s.rstN = true → r ∈ readOnlyRegs →
    portWrite r.offset v s = .next (answered s .writeOkay)) ∧
  (∀ (s : State) (off : Nat) (v : Word), s.rstN = true → off < 0x1000 → off % 4 = 0 →
    (∀ r : Reg, r.offset ≠ off) → portRead off s = .next (answered s (.readOkay 0)) ∧
      portWrite off v s = .next (answered s .writeOkay)) ∧
  ∀ s : State, s.readReg .ctrl = 0 ∧ s.readReg .status &&& 0xFFFCF0FC = 0 ∧
    s.readReg .irqStatus &&& 0xFFFFFFF8 = 0 ∧ s.readReg .irqEnable &&& 0xFFFFFFF8 = 0 ∧
    s.readReg .actLogd &&& 0xFFFFFFE0 = 0 ∧ s.readReg .actLogm &&& 0xFFFFFFE0 = 0

/-- The read-only registers field by field: ID, VERSION and CAP (10_state.md R32 to R34), STATUS (R37), and the
numbers of the error codes (60_exceptions.md R401). -/
def Obligations.ReadOnlyRegisterFields : Prop :=
  (∀ s : State, s.readReg .id = 0x4E545446 ∧ s.readReg .version = 0x00010000 ∧
    (s.params = Config.defaults → s.readReg .cap = 0x11121110) ∧
    (s.params.wf →
      ((s.readReg .cap).extractLsb' 0 5).toNat = s.params.logdMax ∧ (s.readReg .cap).extractLsb' 5 3 = 0 ∧
      ((s.readReg .cap).extractLsb' 8 5).toNat = s.params.logmMax ∧ (s.readReg .cap).extractLsb' 13 3 = 0 ∧
      ((s.readReg .cap).extractLsb' 16 5).toNat = s.params.dmemLogw ∧ (s.readReg .cap).extractLsb' 21 3 = 0 ∧
      ((s.readReg .cap).extractLsb' 24 5).toNat = max s.params.logdMax s.params.logmMax ∧
      (s.readReg .cap).extractLsb' 29 2 = 0 ∧
      ((s.readReg .cap).getLsbD 31 = true ↔ s.params.cmulMode = .fused))) ∧
  (∀ s : State, (s.readReg .status).getLsbD 0 = s.status.busy ∧ (s.readReg .status).getLsbD 1 = s.status.err ∧
    (s.readReg .status).extractLsb' 8 4 = s.status.errcode.code ∧
    (s.readReg .status).getLsbD 16 = s.status.mcfgValid ∧
    (s.readReg .status).getLsbD 17 = s.status.ccfgValid) ∧
  [ErrCode.ok, .illegal, .nomcfg, .noccfg, .limit, .len, .range, .overlap, .operand, .pow2, .modulus, .root,
    .inv].map (fun e => e.code.toNat) = List.range 13 ∧
  ∀ e : ErrCode, e.code.toNat ≤ 12

/-! ### Interrupt -/

/-- The interrupt registers and the line (10_state.md R38, R39, R73, 60_exceptions.md R408): writing 1 clears a
bit of IRQ_STATUS, IRQ_ENABLE stores its three bits, and irq is high exactly when an enabled bit is set. -/
def Obligations.InterruptRegistersAndLine : Prop :=
  (∀ (s : State) (v : Word), s.rstN = true → ∃ t, portWrite 0x018 v s = .next t ∧
    t.readReg .irqStatus = s.readReg .irqStatus &&& ~~~v ∧
    t = { s with irqStatus := t.irqStatus, responses := .writeOkay :: s.responses }) ∧
  (∀ (s : State) (v : Word), s.rstN = true → ∃ t, portWrite 0x01C v s = .next t ∧
    t.readReg .irqEnable = v &&& 7 ∧
    t = { s with irqEnable := t.irqEnable, responses := .writeOkay :: s.responses }) ∧
  State.reset.readReg .irqEnable = 0 ∧
  ∀ s : State, s.irq = true ↔ s.readReg .irqStatus &&& s.readReg .irqEnable ≠ 0

/-- 60_exceptions.md R409: the three sources, and nothing else, set a bit of IRQ_STATUS. -/
def Obligations.InterruptSources : Prop :=
  (∀ (s t : State) (e : Event), happen e s = .next t →
    (t.irqStatus.done = true → s.irqStatus.done = true ∨ (e = .sequencer ∧ s.status.busy = true)) ∧
    (t.irqStatus.err = true → s.irqStatus.err = true ∨
      (e = .sequencer ∧ s.status.busy = true ∧ t.status.err = true)) ∧
    (t.irqStatus.ovr = true → s.irqStatus.ovr = true ∨
      (s.status.busy = true ∧ ∃ v, e = .access (.write 0x000010 .word v 0xF)))) ∧
  (∀ s t : State, s.status.busy = true → happen .sequencer s = .next t → t.irqStatus.done = true ∧
    (s.status.err = false → t.status.err = true → t.irqStatus.err = true)) ∧
  ∀ (s t : State) (v : Word), s.status.busy = true → happen (.access (.write 0x000010 .word v 0xF)) s = .next t →
    t.irqStatus.ovr = true

/-! ### Reset -/

/-- 70_reset_and_hazards.md R452: a write of 1 to CTRL bit 0; a write of 0 there does nothing. -/
def Obligations.SoftReset : Prop :=
  (∀ (s : State) (v : Word), s.rstN = true → v.getLsbD 0 = true →
    ∃ t, portWrite 0x00C v s = .next t ∧ t.readReg .status = 0 ∧ t.irq = false ∧
      t.responses = .writeOkay :: s.responses ∧ t.status.busy = false ∧ t.status.err = false ∧
      t.status.errcode = .ok ∧ t.status.mcfgValid = false ∧ t.status.ccfgValid = false ∧ t.errInfo = 0 ∧
      t.readReg .irqStatus = 0 ∧ t.latch.cmd = 0 ∧ t.latch.src = 0 ∧ t.latch.dst = 0 ∧ t.latch.tbl = 0 ∧
      t.actMod = 0 ∧ t.actLogd = 0 ∧ t.actLogm = 0 ∧ t.irqEnable = s.irqEnable ∧ t.srcBase = s.srcBase ∧
      t.dstBase = s.dstBase ∧ t.tblBase = s.tblBase ∧ t.staging = s.staging ∧
      (s.status.busy = false → t.mem = s.mem) ∧
      (∀ i, decode s.latch.cmd = .ok i → ∀ a, ¬inRanges (mayHaveWritten s i) a → t.mem.get a = s.mem.get a) ∧
      ∀ r, decode s.latch.cmd = .error r → t.mem = s.mem) ∧
  ∀ (s : State) (v : Word), s.rstN = true → v.getLsbD 0 = false →
    portWrite 0x00C v s = .next (answered s .writeOkay)

/-- 70_reset_and_hazards.md R453: after a soft reset or a falling reset pin while a command runs, the entries
it could have written are unwritten, no other changes; none changes when it would have failed its checks; it
sets no DONE and no error. -/
def Obligations.AbortedCommand : Prop :=
  ∀ (s t : State) (i : Instr), s.status.busy = true → decode s.latch.cmd = .ok i →
    (t = s.softReset ∨ t = s.resetPin false) →
    t.status.busy = false ∧ t.status.err = false ∧ t.status.errcode = .ok ∧ t.irqStatus.done = false ∧
    t.irqStatus.err = false ∧
    (∀ a, ¬inRanges (mayHaveWritten s i) a → t.mem.get a = s.mem.get a) ∧
    (∀ u, completion s = .next u → u.status.err = true → t.mem = s.mem) ∧
    (∀ u, completion s = .next u → u.status.err = false →
      ∀ a, inRanges (mayHaveWritten s i) a → t.mem.get a = none)

/-- The reset pin (70_reset_and_hazards.md R450): every register takes its reset value, an idle core keeps
every memory byte, and a power cycle empties the memories (60_exceptions.md R417). That an access while rst_n
is low stops the model is its own choice (93_implementation_defined.md U16, log 11), and so are the free
values of BK and MU (log 7). -/
def Obligations.ResetPin : Prop :=
  (∀ s t : State, t = s.resetPin false ∨ (s.rstN = false ∧ t = s.resetPin true) ∨ t = s.powerCycle →
    (∀ r, t.readReg r =
      if r = .id then 0x4E545446 else if r = .version then 0x00010000 else if r = .cap then s.readReg .cap
      else 0) ∧
    t.latch.cmd = 0 ∧ t.latch.src = 0 ∧ t.latch.dst = 0 ∧ t.latch.tbl = 0 ∧ t.irq = false ∧
    t.params = s.params ∧ t.responses = s.responses) ∧
  (∀ (s : State) (level : Bool), s.status.busy = false → (s.resetPin level).mem = s.mem) ∧
  (∀ (s : State) (level : Bool), (s.resetPin level).rstN = level) ∧
  (∀ s : State, s.powerCycle.mem = []) ∧
  (∀ s : State, s.rstN = true → s.resetPin true = s) ∧
  ∀ (s : State) (a : Access), s.rstN = false → serve a s = .fault .portInReset

/-- The state after reset as a program sees it (70_reset_and_hazards.md R451): each register's value, no
interrupt, and each command that needs a context fails for want of it. -/
def Obligations.ResetStateReads : Prop :=
  (∀ r, State.reset.readReg r =
    if r = .id then 0x4E545446 else if r = .version then 0x00010000 else if r = .cap then 0x11121110 else 0) ∧
  State.reset.irq = false ∧
  (∀ k i, i ∈ modularCommands k → exec i (State.reset.accept (encode i)) =
    .next ((State.reset.accept (encode i)).afterError i .nomcfg 0)) ∧
  ∀ k i, i ∈ [Instr.fftf k, .ffti k, .chk k, .emb k, .embi k] → exec i (State.reset.accept (encode i)) =
    .next ((State.reset.accept (encode i)).afterError i .noccfg 0)

/-! ### Invariants -/

/-- Every step keeps the memory in its canonical form (log 5). -/
def Obligations.StepKeepsMemoryCanonical : Prop :=
  ∀ s t : State, s.mem.wf → step s = .next t → t.mem.wf

/-- Every step keeps the error record consistent: ERR = 1 exactly when ERRCODE is not 0, no detail without an
error, a clear record while BUSY = 1, nothing valid while rst_n is low (10_state.md R37, R40, 40_common.md
R200, 70_reset_and_hazards.md R450). -/
def Obligations.StepKeepsStatusConsistent : Prop :=
  ∀ s t : State, s.consistent → step s = .next t → t.consistent

/-- Every step keeps the memory inside the implemented windows, in whole words (20_memory.md R101, R103, R112,
R120). -/
def Obligations.StepKeepsMemoryMapped : Prop :=
  ∀ s t : State, s.params.wf → s.memoryMapped → step s = .next t → t.params = s.params ∧ t.memoryMapped

/-- Every step keeps the modular context what mcfg built, as long as MCFG_VALID = 1 (10_state.md R62, R71,
41_modular.md R250, R251). -/
def Obligations.StepKeepsModularContext : Prop :=
  ∀ s t : State, s.params.wf → s.modularContext → step s = .next t → t.params.wf ∧ t.modularContext

/-- Every step keeps the complex context what ccfg built, as long as CCFG_VALID = 1 (10_state.md R64,
42_complex.md R300, 70_reset_and_hazards.md R457). -/
def Obligations.StepKeepsComplexContext : Prop :=
  ∀ s t : State, s.params.wf → s.complexContext → step s = .next t → t.params.wf ∧ t.complexContext

/-- The state after reset meets every invariant. -/
def Obligations.ResetMeetsTheInvariants : Prop :=
  State.reset.params.wf ∧ State.reset.mem.wf ∧ State.reset.consistent ∧ State.reset.memoryMapped ∧
    State.reset.modularContext ∧ State.reset.complexContext

/-! ### Host and sequencer together -/

/-- No value a command computes depends on a host access made after its acceptance (40_common.md R200,
20_memory.md R109, R119): an access served while the command runs, unless it ends the command by a soft reset,
changes neither what the command writes nor how it ends. -/
def Obligations.HostCannotDisturbARunningCommand : Prop :=
  ∀ (s t : State) (a : Access) (i : Instr), s.status.busy = true → serve a s = .next t →
    t.status.busy = true →
    t.mem = s.mem ∧
    (∀ u, exec i s = .next u → ∃ v, exec i t = .next v ∧ v.mem = u.mem ∧ v.status = u.status ∧
      v.errInfo = u.errInfo ∧ v.actMod = u.actMod ∧ v.actLogd = u.actLogd ∧ v.actLogm = u.actLogm ∧
      v.bk = u.bk ∧ v.mu = u.mu ∧ v.latch = u.latch) ∧
    ∀ f, exec i s = .fault f → exec i t = .fault f
end

