-- ==== Sys2Proof/Laws/Memory.lean ====
section
/-! SUPPORT. The laws of memory: what a read gives after a write, that a write leaves every other byte alone,
and that every operation keeps the canonical form. -/

namespace Sys2Proof.Machine

@[simp] theorem Memory.get_nil (a : Nat) : Memory.get [] a = none := rfl

theorem Memory.get_set_same (m : Memory) (a : Nat) (v : Byte) : (m.set a v).get a = some v := by
  induction m with
  | nil => simp [Memory.set, Memory.get]
  | cons c m ih =>
    obtain ⟨b, w⟩ := c
    unfold Memory.set
    split
    · simp [Memory.get]
    · split
      · simp [Memory.get]
      · rename_i h1 h2
        simp [Memory.get, h2, ih]

theorem Memory.get_set_other (m : Memory) {a b : Nat} (v : Byte) (h : b ≠ a) :
    (m.set a v).get b = m.get b := by
  induction m with
  | nil => simp [Memory.set, Memory.get, h]
  | cons c m ih =>
    obtain ⟨d, w⟩ := c
    unfold Memory.set
    split
    · simp [Memory.get, h]
    · split
      · rename_i h1 h2
        subst h2
        simp [Memory.get, h]
      · simp [Memory.get, ih]

theorem Memory.get_set (m : Memory) (a b : Nat) (v : Byte) :
    (m.set a v).get b = if b = a then some v else m.get b := by
  split
  · rename_i h; subst h; exact Memory.get_set_same m b v
  · rename_i h; exact Memory.get_set_other m v h

theorem Memory.mem_set {m : Memory} {a : Nat} {v : Byte} {c : Host.Cell} (h : c ∈ m.set a v) :
    c = (a, v) ∨ c ∈ m := by
  induction m with
  | nil => simpa [Memory.set] using h
  | cons d m ih =>
    obtain ⟨b, w⟩ := d
    unfold Memory.set at h
    split at h
    · simpa using h
    · split at h
      · rcases List.mem_cons.1 h with h | h
        · exact .inl h
        · exact .inr (List.mem_cons_of_mem _ h)
      · rcases List.mem_cons.1 h with h | h
        · exact .inr (h ▸ List.mem_cons_self)
        · exact (ih h).imp_right (List.mem_cons_of_mem _)

theorem Memory.wf_set {m : Memory} (h : m.wf) (a : Nat) (v : Byte) : (m.set a v).wf := by
  induction m with
  | nil => simp [Memory.set, Memory.wf]
  | cons d m ih =>
    obtain ⟨b, w⟩ := d
    have hp := List.pairwise_cons.1 h
    unfold Memory.set
    split
    · rename_i hab
      refine List.pairwise_cons.2 ⟨fun c hc => ?_, h⟩
      rcases List.mem_cons.1 hc with rfl | hc
      · exact hab
      · exact hab.trans (hp.1 c hc)
    · split
      · rename_i hab heq
        subst heq
        exact List.pairwise_cons.2 ⟨hp.1, hp.2⟩
      · rename_i hab heq
        refine List.pairwise_cons.2 ⟨fun c hc => ?_, ih hp.2⟩
        rcases Memory.mem_set hc with rfl | hc
        · show b < a
          omega
        · exact hp.1 c hc

theorem Memory.get_eq_none_of_lt {m : Memory} {b : Nat} (h : ∀ c ∈ m, b < c.1) : m.get b = none := by
  induction m with
  | nil => rfl
  | cons d m ih =>
    obtain ⟨x, w⟩ := d
    have hx : b < x := h (x, w) List.mem_cons_self
    have hne : b ≠ x := by omega
    simp only [Memory.get, hne, if_false]
    exact ih fun c hc => h c (List.mem_cons_of_mem _ hc)

theorem Memory.get_of_mem {m : Memory} (h : m.wf) {c : Host.Cell} (hc : c ∈ m) : m.get c.1 = some c.2 := by
  induction m with
  | nil => cases hc
  | cons d m ih =>
    obtain ⟨x, w⟩ := d
    have hp := List.pairwise_cons.1 h
    rcases List.mem_cons.1 hc with rfl | hc'
    · simp [Memory.get]
    · have : c.1 ≠ x := by have := hp.1 c hc'; simp at this; omega
      simp only [Memory.get, this, if_false]
      exact ih hp.2 hc'

theorem Memory.mem_of_get {m : Memory} {a : Nat} {v : Byte} (h : m.get a = some v) : (a, v) ∈ m := by
  induction m with
  | nil => simp at h
  | cons d m ih =>
    obtain ⟨x, w⟩ := d
    by_cases hx : a = x
    · subst hx
      simp [Memory.get] at h
      simp [h]
    · simp only [Memory.get, hx, if_false] at h
      exact List.mem_cons_of_mem _ (ih h)

/-- Two canonical memories with the same bytes are the same list. -/
theorem Memory.ext_of_get {m n : Memory} (hm : m.wf) (hn : n.wf) (h : ∀ a, m.get a = n.get a) : m = n := by
  induction m generalizing n with
  | nil =>
    cases n with
    | nil => rfl
    | cons d n => simpa [Memory.get] using h d.1
  | cons c m ih =>
    obtain ⟨b, w⟩ := c
    have hp := List.pairwise_cons.1 hm
    cases n with
    | nil => simpa [Memory.get] using h b
    | cons d n =>
      obtain ⟨b', w'⟩ := d
      have hq := List.pairwise_cons.1 hn
      have hbb : b = b' := by
        rcases Nat.lt_trichotomy b b' with hlt | heq | hgt
        · have h1 : Memory.get ((b, w) :: m) b = some w := by simp [Memory.get]
          rw [h b, Memory.get_eq_none_of_lt] at h1
          · cases h1
          · intro c hc
            rcases List.mem_cons.1 hc with rfl | hc
            · exact hlt
            · exact hlt.trans (hq.1 c hc)
        · exact heq
        · have h1 : Memory.get ((b', w') :: n) b' = some w' := by simp [Memory.get]
          rw [← h b', Memory.get_eq_none_of_lt] at h1
          · cases h1
          · intro c hc
            rcases List.mem_cons.1 hc with rfl | hc
            · exact hgt
            · exact hgt.trans (hp.1 c hc)
      subst hbb
      have hw : w = w' := by simpa [Memory.get] using h b
      subst hw
      congr 1
      refine ih hp.2 hq.2 fun a => ?_
      by_cases ha : a = b
      · subst ha
        rw [Memory.get_eq_none_of_lt hp.1, Memory.get_eq_none_of_lt hq.1]
      · simpa [Memory.get, ha] using h a

theorem Memory.wf_erase {m : Memory} (h : m.wf) (lo n : Nat) : (m.erase lo n).wf := h.filter _

theorem Memory.get_erase (m : Memory) (lo n a : Nat) :
    (m.erase lo n).get a = if lo ≤ a ∧ a < lo + n then none else m.get a := by
  induction m with
  | nil => simp [Memory.erase]
  | cons c m ih =>
    obtain ⟨b, w⟩ := c
    have hstep : Memory.erase ((b, w) :: m) lo n =
        if lo ≤ b ∧ b < lo + n then Memory.erase m lo n else (b, w) :: Memory.erase m lo n := by
      unfold Memory.erase
      rw [List.filter_cons]
      by_cases hb : lo ≤ b ∧ b < lo + n
      · simp [hb]
      · have : (!(decide (lo ≤ b) && decide (b < lo + n))) = true := by
          simp only [Bool.not_eq_true', Bool.and_eq_false_iff, decide_eq_false_iff_not]
          omega
        rw [if_pos this, if_neg hb]
    rw [hstep]
    by_cases hb : lo ≤ b ∧ b < lo + n
    · rw [if_pos hb, ih]
      by_cases ha : lo ≤ a ∧ a < lo + n
      · rw [if_pos ha, if_pos ha]
      · have hne : a ≠ b := by rintro rfl; exact ha hb
        rw [if_neg ha, if_neg ha]
        simp [Memory.get, hne]
    · rw [if_neg hb]
      by_cases hab : a = b
      · subst hab
        rw [if_neg hb]
        simp [Memory.get]
      · simp only [Memory.get, hab, if_false]
        exact ih

/-- The four bytes of a word make it up. -/
theorem bytes_of_word (w : Word) : byteOf w 3 ++ byteOf w 2 ++ byteOf w 1 ++ byteOf w 0 = w := by
  apply BitVec.eq_of_getLsbD_eq
  intro i hi
  simp only [byteOf, BitVec.getLsbD_append, BitVec.getLsbD_extractLsb']
  have : i < 32 := hi
  rcases Nat.lt_or_ge i 8 with h1 | h1
  · simp [h1]
  · rcases Nat.lt_or_ge i 16 with h2 | h2
    · have e1 : ¬ i < 8 := by omega
      have e2 : i - 8 < 8 := by omega
      have e3 : 8 + (i - 8) = i := by omega
      simp [e1, e2, e3]
    · rcases Nat.lt_or_ge i 24 with h3 | h3
      · have e1 : ¬ i < 8 := by omega
        have e2 : ¬ i - 8 < 8 := by omega
        have e3 : i - 8 - 8 < 8 := by omega
        have e4 : 16 + (i - 8 - 8) = i := by omega
        simp [e1, e2, e3, e4]
      · have e1 : ¬ i < 8 := by omega
        have e2 : ¬ i - 8 < 8 := by omega
        have e3 : ¬ i - 8 - 8 < 8 := by omega
        have e4 : i - 8 - 8 - 8 < 8 := by omega
        have e5 : 24 + (i - 8 - 8 - 8) = i := by omega
        simp [e1, e2, e3, e4, e5]

theorem Memory.get_writeWord_other (m : Memory) {a b : Nat} (w : Word) (h : b < a ∨ a + 4 ≤ b) :
    (m.writeWord a w).get b = m.get b := by
  unfold Memory.writeWord
  rw [Memory.get_set_other, Memory.get_set_other, Memory.get_set_other, Memory.get_set_other] <;> omega

theorem Memory.readWord_writeWord_same (m : Memory) (a : Nat) (w : Word) :
    (m.writeWord a w).readWord a = some w := by
  have g (b : Nat) : (m.writeWord a w).get b =
      if b = a + 3 then some (byteOf w 3) else if b = a + 2 then some (byteOf w 2)
      else if b = a + 1 then some (byteOf w 1) else if b = a then some (byteOf w 0) else m.get b := by
    simp only [Memory.writeWord, Memory.get_set]
  unfold Memory.readWord
  simp [g]
  exact bytes_of_word w

theorem Memory.readWord_congr {m n : Memory} {a : Nat}
    (h : ∀ b, a ≤ b → b < a + 4 → m.get b = n.get b) : m.readWord a = n.readWord a := by
  unfold Memory.readWord
  rw [h a (by omega) (by omega), h (a + 1) (by omega) (by omega), h (a + 2) (by omega) (by omega),
    h (a + 3) (by omega) (by omega)]

theorem Memory.readWord_writeWord_other (m : Memory) {a b : Nat} (w : Word)
    (h : b + 4 ≤ a ∨ a + 4 ≤ b) : (m.writeWord a w).readWord b = m.readWord b :=
  Memory.readWord_congr fun c h1 h2 => Memory.get_writeWord_other m w (by omega)

theorem Memory.wf_writeWord {m : Memory} (h : m.wf) (a : Nat) (w : Word) : (m.writeWord a w).wf :=
  Memory.wf_set (Memory.wf_set (Memory.wf_set (Memory.wf_set h _ _) _ _) _ _) _ _

theorem Memory.get_writeDword_other (m : Memory) {a b : Nat} (v : Dword) (h : b < a ∨ a + 8 ≤ b) :
    (m.writeDword a v).get b = m.get b := by
  unfold Memory.writeDword
  rw [Memory.get_writeWord_other _ _ (by omega), Memory.get_writeWord_other _ _ (by omega)]

theorem Memory.wf_writeDword {m : Memory} (h : m.wf) (a : Nat) (v : Dword) : (m.writeDword a v).wf :=
  Memory.wf_writeWord (Memory.wf_writeWord h _ _) _ _

theorem Memory.get_writeEntry_other (m : Memory) {a b : Nat} (v : Entry) (h : b < a ∨ a + 16 ≤ b) :
    (m.writeEntry a v).get b = m.get b := by
  unfold Memory.writeEntry
  rw [Memory.get_writeDword_other _ _ (by omega), Memory.get_writeDword_other _ _ (by omega)]

theorem Memory.wf_writeEntry {m : Memory} (h : m.wf) (a : Nat) (v : Entry) : (m.writeEntry a v).wf :=
  Memory.wf_writeDword (Memory.wf_writeDword h _ _) _ _

theorem Memory.get_writeWords_other (vs : List Word) : ∀ (m : Memory) (a : Nat) {b : Nat},
    (b < a ∨ a + 4 * vs.length ≤ b) → (m.writeWords a vs).get b = m.get b := by
  induction vs with
  | nil => intro m a b _; rfl
  | cons v vs ih =>
    intro m a b h
    simp only [List.length_cons] at h
    simp only [Memory.writeWords]
    rw [ih _ _ (by omega), Memory.get_writeWord_other _ _ (by omega)]

theorem Memory.get_writeDwords_other (vs : List Dword) : ∀ (m : Memory) (a : Nat) {b : Nat},
    (b < a ∨ a + 8 * vs.length ≤ b) → (m.writeDwords a vs).get b = m.get b := by
  induction vs with
  | nil => intro m a b _; rfl
  | cons v vs ih =>
    intro m a b h
    simp only [List.length_cons] at h
    simp only [Memory.writeDwords]
    rw [ih _ _ (by omega), Memory.get_writeDword_other _ _ (by omega)]

theorem Memory.get_writeEntries_other (vs : List Entry) : ∀ (m : Memory) (a : Nat) {b : Nat},
    (b < a ∨ a + 16 * vs.length ≤ b) → (m.writeEntries a vs).get b = m.get b := by
  induction vs with
  | nil => intro m a b _; rfl
  | cons v vs ih =>
    intro m a b h
    simp only [List.length_cons] at h
    simp only [Memory.writeEntries]
    rw [ih _ _ (by omega), Memory.get_writeEntry_other _ _ (by omega)]

theorem Memory.wf_writeWords {vs : List Word} : ∀ {m : Memory} (_ : m.wf) (a : Nat),
    (m.writeWords a vs).wf := by
  induction vs with
  | nil => intro m h a; exact h
  | cons v vs ih => intro m h a; exact ih (Memory.wf_writeWord h a v) (a + 4)

theorem Memory.wf_writeDwords {vs : List Dword} : ∀ {m : Memory} (_ : m.wf) (a : Nat),
    (m.writeDwords a vs).wf := by
  induction vs with
  | nil => intro m h a; exact h
  | cons v vs ih => intro m h a; exact ih (Memory.wf_writeDword h a v) (a + 8)

theorem Memory.wf_writeEntries {vs : List Entry} : ∀ {m : Memory} (_ : m.wf) (a : Nat),
    (m.writeEntries a vs).wf := by
  induction vs with
  | nil => intro m h a; exact h
  | cons v vs ih => intro m h a; exact ih (Memory.wf_writeEntry h a v) (a + 16)

end Sys2Proof.Machine
end

