-- ==== Sys2Proof/Laws/Phases.lean ====
section
/-! SUPPORT. What the two phases of a command and its completion can answer: one lemma for each shared
operation (checks, reads, stages, completion), and the length of every output buffer. -/

namespace Sys2Proof.Machine

theorem except_bind_ok {ε α β : Type} {a : Except ε α} {f : α → Except ε β} {b : β} :
    (a >>= f) = .ok b ↔ ∃ x, a = .ok x ∧ f x = .ok b := by
  cases a with
  | error e => exact ⟨fun h => (by cases h), fun ⟨x, h, _⟩ => (by cases h)⟩
  | ok x => exact ⟨fun h => ⟨x, rfl, h⟩, fun ⟨y, h, hf⟩ => (by cases h; exact hf)⟩

theorem except_bind_error {ε α β : Type} {a : Except ε α} {f : α → Except ε β} {e : ε} :
    (a >>= f) = .error e ↔ a = .error e ∨ ∃ x, a = .ok x ∧ f x = .error e := by
  cases a with
  | error e' =>
    constructor
    · intro h
      have h' : e' = e := by injection h
      exact .inl (by rw [h'])
    · rintro (h | ⟨x, h, _⟩)
      · have h' : e' = e := by injection h
        rw [h']; rfl
      · cases h
  | ok x =>
    constructor
    · exact fun h => .inr ⟨x, rfl, h⟩
    · rintro (h | ⟨y, h, hf⟩)
      · cases h
      · cases h; exact hf

theorem except_map_ok {ε α β : Type} {a : Except ε α} {f : α → β} {b : β} :
    a.map f = .ok b ↔ ∃ x, a = .ok x ∧ f x = b := by
  cases a with
  | error e => exact ⟨fun h => (by cases h), fun ⟨x, h, _⟩ => (by cases h)⟩
  | ok x =>
    constructor
    · exact fun h => ⟨x, rfl, by injection h⟩
    · rintro ⟨y, h, rfl⟩
      cases h; rfl

theorem except_map_error {ε α β : Type} {a : Except ε α} {f : α → β} {e : ε} :
    a.map f = .error e ↔ a = .error e := by
  cases a with
  | error e' => exact ⟨fun h => by injection h with h; rw [h], fun h => by injection h with h; rw [h]; rfl⟩
  | ok x => exact ⟨fun h => (by cases h), fun h => (by cases h)⟩

theorem except_pure_ok {ε α : Type} {a b : α} : (pure a : Except ε α) = .ok b ↔ a = b :=
  ⟨fun h => by injection h, fun h => by rw [h]; rfl⟩

/-! ### Checks -/

theorem require_ok {c : Prop} [Decidable c] {e : ErrCode} {info : Word} {u : Unit} :
    require c e info = .ok u ↔ c := by
  unfold require
  split <;> simp [*]

theorem require_error {c : Prop} [Decidable c] {e : ErrCode} {info : Word} {r : Stop} :
    require c e info = .error r ↔ ¬c ∧ r = .raise e info := by
  unfold require
  split <;> simp [*, eq_comm]

theorem State.checkRange_ok {s : State} {n : Nat} {useTbl : Bool} :
    s.checkRange n useTbl = .ok () ↔
      s.latch.src.toNat + n ≤ dmemSize s.params ∧ s.latch.dst.toNat + n ≤ dmemSize s.params ∧
        (useTbl = true → s.latch.tbl.toNat + n ≤ dmemSize s.params) := by
  simp only [State.checkRange, except_bind_ok, require_ok]
  constructor
  · rintro ⟨_, h1, _, h2, h3⟩; exact ⟨h1, h2, h3⟩
  · rintro ⟨h1, h2, h3⟩; exact ⟨(), h1, (), h2, h3⟩

theorem State.checkOverlap_ok {s : State} {n : Nat} {useTbl : Bool} :
    s.checkOverlap n useTbl = .ok () ↔
      (s.latch.src = s.latch.dst ∨ apart n s.latch.src.toNat s.latch.dst.toNat) ∧
        (useTbl = true → apart n s.latch.tbl.toNat s.latch.dst.toNat) := by
  simp only [State.checkOverlap, except_bind_ok, require_ok]
  constructor
  · rintro ⟨_, h1, h2⟩; exact ⟨h1, h2⟩
  · rintro ⟨h1, h2⟩; exact ⟨(), h1, h2⟩

/-! ### Reads -/

theorem State.loadWord_ok {s : State} {a : Nat} {w : Word} :
    s.loadWord a = .ok w ↔ s.mem.readWord a = some w := by
  unfold State.loadWord
  split <;> simp [*]

theorem State.loadWord_error {s : State} {a : Nat} {r : Stop} :
    s.loadWord a = .error r ↔ s.mem.readWord a = none ∧ r = .fault (.uninitRead a) := by
  unfold State.loadWord
  split <;> simp [*, eq_comm]

theorem append_halves (v : Dword) : v.extractLsb' 32 32 ++ v.extractLsb' 0 32 = v := by
  apply BitVec.eq_of_getLsbD_eq
  intro i hi
  simp only [BitVec.getLsbD_append, BitVec.getLsbD_extractLsb']
  have : i < 64 := hi
  by_cases h : i < 32
  · simp [h]
  · have e1 : i - 32 < 32 := by omega
    have e2 : 32 + (i - 32) = i := by omega
    simp [h, e1, e2]

theorem append_dwords (v : Entry) : v.extractLsb' 64 64 ++ v.extractLsb' 0 64 = v := by
  apply BitVec.eq_of_getLsbD_eq
  intro i hi
  simp only [BitVec.getLsbD_append, BitVec.getLsbD_extractLsb']
  have : i < 128 := hi
  by_cases h : i < 64
  · simp [h]
  · have e1 : i - 64 < 64 := by omega
    have e2 : 64 + (i - 64) = i := by omega
    simp [h, e1, e2]

theorem getLsbD_append_words (hi lo : Word) (j : Nat) :
    (hi ++ lo : Dword).getLsbD j = if j < 32 then lo.getLsbD j else hi.getLsbD (j - 32) :=
  (BitVec.getLsbD_append (x := hi) (y := lo)).trans (by cases decide (j < 32) <;> simp_all)

theorem getLsbD_append_dwords (hi lo : Dword) (j : Nat) :
    (hi ++ lo : Entry).getLsbD j = if j < 64 then lo.getLsbD j else hi.getLsbD (j - 64) :=
  (BitVec.getLsbD_append (x := hi) (y := lo)).trans (by cases decide (j < 64) <;> simp_all)

theorem low_of_append (hi lo : Word) : (hi ++ lo : Dword).extractLsb' 0 32 = lo := by
  apply BitVec.eq_of_getLsbD_eq
  intro i h
  rw [BitVec.getLsbD_extractLsb', getLsbD_append_words]
  simp [h]

theorem high_of_append (hi lo : Word) : (hi ++ lo : Dword).extractLsb' 32 32 = hi := by
  apply BitVec.eq_of_getLsbD_eq
  intro i h
  rw [BitVec.getLsbD_extractLsb', getLsbD_append_words]
  simp [h]

theorem low_of_append_dwords (hi lo : Dword) : (hi ++ lo : Entry).extractLsb' 0 64 = lo := by
  apply BitVec.eq_of_getLsbD_eq
  intro i h
  rw [BitVec.getLsbD_extractLsb', getLsbD_append_dwords]
  simp [h]

theorem high_of_append_dwords (hi lo : Dword) : (hi ++ lo : Entry).extractLsb' 64 64 = hi := by
  apply BitVec.eq_of_getLsbD_eq
  intro i h
  rw [BitVec.getLsbD_extractLsb', getLsbD_append_dwords]
  simp [h]

theorem State.loadDword_ok {s : State} {a : Nat} {v : Dword} :
    s.loadDword a = .ok v ↔
      s.mem.readWord a = some (v.extractLsb' 0 32) ∧ s.mem.readWord (a + 4) = some (v.extractLsb' 32 32) := by
  simp only [State.loadDword, except_bind_ok, State.loadWord_ok, except_pure_ok]
  constructor
  · rintro ⟨lo, hlo, hi, hhi, rfl⟩
    rw [low_of_append, high_of_append]
    exact ⟨hlo, hhi⟩
  · rintro ⟨hlo, hhi⟩
    exact ⟨_, hlo, _, hhi, append_halves v⟩

theorem State.loadEntry_ok {s : State} {a : Nat} {v : Entry} :
    s.loadEntry a = .ok v ↔
      s.loadDword a = .ok (v.extractLsb' 0 64) ∧ s.loadDword (a + 8) = .ok (v.extractLsb' 64 64) := by
  simp only [State.loadEntry, except_bind_ok, except_pure_ok]
  constructor
  · rintro ⟨lo, hlo, hi, hhi, rfl⟩
    rw [low_of_append_dwords, high_of_append_dwords]
    exact ⟨hlo, hhi⟩
  · rintro ⟨hlo, hhi⟩
    exact ⟨_, hlo, _, hhi, append_dwords v⟩

theorem State.loadDword_error {s : State} {a : Nat} {r : Stop} (h : s.loadDword a = .error r) :
    ∃ b, r = .fault (.uninitRead b) ∧ s.mem.readWord b = none := by
  simp only [State.loadDword, except_bind_error, State.loadWord_error] at h
  rcases h with ⟨h, rfl⟩ | ⟨_, _, ⟨h, rfl⟩ | ⟨_, _, h⟩⟩
  · exact ⟨_, rfl, h⟩
  · exact ⟨_, rfl, h⟩
  · cases h

theorem State.loadEntry_error {s : State} {a : Nat} {r : Stop} (h : s.loadEntry a = .error r) :
    ∃ b, r = .fault (.uninitRead b) ∧ s.mem.readWord b = none := by
  simp only [State.loadEntry, except_bind_error] at h
  rcases h with h | ⟨_, _, h | ⟨_, _, h⟩⟩
  · exact State.loadDword_error h
  · exact State.loadDword_error h
  · cases h

theorem State.loadWord_congr {s t : State} {a : Nat}
    (h : ∀ b, a ≤ b → b < a + 4 → s.mem.get b = t.mem.get b) : s.loadWord a = t.loadWord a := by
  unfold State.loadWord
  rw [Memory.readWord_congr h]

theorem State.loadDword_congr {s t : State} {a : Nat}
    (h : ∀ b, a ≤ b → b < a + 8 → s.mem.get b = t.mem.get b) : s.loadDword a = t.loadDword a := by
  unfold State.loadDword
  rw [State.loadWord_congr (s := s) (t := t) (a := a) fun b h1 h2 => h b h1 (by omega),
    State.loadWord_congr (s := s) (t := t) (a := a + 4) fun b h1 h2 => h b (by omega) (by omega)]

theorem State.loadEntry_congr {s t : State} {a : Nat}
    (h : ∀ b, a ≤ b → b < a + 16 → s.mem.get b = t.mem.get b) : s.loadEntry a = t.loadEntry a := by
  unfold State.loadEntry
  rw [State.loadDword_congr (s := s) (t := t) (a := a) fun b h1 h2 => h b h1 (by omega),
    State.loadDword_congr (s := s) (t := t) (a := a + 8) fun b h1 h2 => h b (by omega) (by omega)]

theorem Memory.readWord_writeDword_low (m : Memory) (a : Nat) (v : Dword) :
    (m.writeDword a v).readWord a = some (v.extractLsb' 0 32) := by
  unfold Memory.writeDword
  rw [Memory.readWord_writeWord_other _ _ (by omega), Memory.readWord_writeWord_same]

theorem Memory.readWord_writeDword_high (m : Memory) (a : Nat) (v : Dword) :
    (m.writeDword a v).readWord (a + 4) = some (v.extractLsb' 32 32) := by
  unfold Memory.writeDword
  rw [Memory.readWord_writeWord_same]

theorem State.mem_with (s : State) (m : Memory) : ({ s with mem := m } : State).mem = m := rfl

theorem State.loadDword_writeDword {s : State} {m : Memory} {a : Nat} {v : Dword}
    (h : s.mem = m.writeDword a v) : s.loadDword a = .ok v := by
  rw [State.loadDword_ok, h]
  exact ⟨Memory.readWord_writeDword_low m a v, Memory.readWord_writeDword_high m a v⟩

theorem State.loadEntry_writeEntry {s : State} {m : Memory} {a : Nat} {v : Entry}
    (h : s.mem = m.writeEntry a v) : s.loadEntry a = .ok v := by
  rw [State.loadEntry_ok]
  rw [Memory.writeEntry] at h
  refine ⟨?_, State.loadDword_writeDword h⟩
  rw [State.loadDword_congr (t := { s with mem := m.writeDword a (v.extractLsb' 0 64) })]
  · exact State.loadDword_writeDword (State.mem_with s _)
  · intro b h1 h2
    rw [h, State.mem_with]
    exact Memory.get_writeDword_other _ _ (by omega)

theorem State.loadWord_writeWords {s : State} (vs : List Word) : ∀ (m : Memory) (a j : Nat) (v : Word),
    vs[j]? = some v → s.mem = m.writeWords a vs → s.loadWord (a + 4 * j) = .ok v := by
  induction vs with
  | nil => intro m a j v h; simp at h
  | cons u us ih =>
    intro m a j v h hs
    cases j with
    | zero =>
      simp only [List.getElem?_cons_zero, Option.some.injEq] at h
      subst h
      rw [Nat.mul_zero, Nat.add_zero, State.loadWord_ok, hs]
      rw [Memory.readWord_congr (n := m.writeWord a u)]
      · exact Memory.readWord_writeWord_same m a u
      · intro b h1 h2
        exact Memory.get_writeWords_other us (m.writeWord a u) (a + 4) (by omega)
    | succ j =>
      rw [Memory.writeWords] at hs
      have := ih (m.writeWord a u) (a + 4) j v (by simpa using h) hs
      rw [show a + 4 * (j + 1) = a + 4 + 4 * j by omega]
      exact this

theorem State.loadDword_writeDwords {s : State} (vs : List Dword) : ∀ (m : Memory) (a j : Nat) (v : Dword),
    vs[j]? = some v → s.mem = m.writeDwords a vs → s.loadDword (a + 8 * j) = .ok v := by
  induction vs with
  | nil => intro m a j v h; simp at h
  | cons u us ih =>
    intro m a j v h hs
    cases j with
    | zero =>
      simp only [List.getElem?_cons_zero, Option.some.injEq] at h
      subst h
      rw [Nat.mul_zero, Nat.add_zero, State.loadDword_congr (t := { s with mem := m.writeDword a u })]
      · exact State.loadDword_writeDword (State.mem_with s _)
      · intro b h1 h2
        rw [hs, Memory.writeDwords, State.mem_with]
        exact Memory.get_writeDwords_other us (m.writeDword a u) (a + 8) (by omega)
    | succ j =>
      rw [Memory.writeDwords] at hs
      have := ih (m.writeDword a u) (a + 8) j v (by simpa using h) hs
      rw [show a + 8 * (j + 1) = a + 8 + 8 * j by omega]
      exact this

theorem State.loadEntry_writeEntries {s : State} (vs : List Entry) : ∀ (m : Memory) (a j : Nat) (v : Entry),
    vs[j]? = some v → s.mem = m.writeEntries a vs → s.loadEntry (a + 16 * j) = .ok v := by
  induction vs with
  | nil => intro m a j v h; simp at h
  | cons u us ih =>
    intro m a j v h hs
    cases j with
    | zero =>
      simp only [List.getElem?_cons_zero, Option.some.injEq] at h
      subst h
      rw [Nat.mul_zero, Nat.add_zero, State.loadEntry_congr (t := { s with mem := m.writeEntry a u })]
      · exact State.loadEntry_writeEntry (State.mem_with s _)
      · intro b h1 h2
        rw [hs, Memory.writeEntries, State.mem_with]
        exact Memory.get_writeEntries_other us (m.writeEntry a u) (a + 16) (by omega)
    | succ j =>
      rw [Memory.writeEntries] at hs
      have := ih (m.writeEntry a u) (a + 16) j v (by simpa using h) hs
      rw [show a + 16 * (j + 1) = a + 16 + 16 * j by omega]
      exact this

theorem readFrom_ok {α : Type} {f : Nat → Except Stop α} {n : Nat} : ∀ {i : Nat} {vs : List α},
    readFrom f i n = .ok vs ↔ vs.length = n ∧ ∀ j v, vs[j]? = some v → f (i + j) = .ok v := by
  induction n with
  | zero =>
    intro i vs
    constructor
    · intro h
      have : vs = [] := by injection h with h; exact h.symm
      subst this
      exact ⟨rfl, fun j v h => by simp at h⟩
    · rintro ⟨h, _⟩
      rw [List.length_eq_zero_iff] at h
      rw [h]; rfl
  | succ n ih =>
    intro i vs
    simp only [readFrom, except_bind_ok, except_pure_ok]
    constructor
    · rintro ⟨v, hv, us, hus, rfl⟩
      obtain ⟨hl, hr⟩ := ih.1 hus
      refine ⟨by simp [hl], fun j w hw => ?_⟩
      cases j with
      | zero =>
        simp only [List.getElem?_cons_zero, Option.some.injEq] at hw
        rw [← hw]; exact hv
      | succ j =>
        have := hr j w (by simpa using hw)
        rwa [show i + (j + 1) = i + 1 + j by omega]
    · rintro ⟨hl, hr⟩
      cases vs with
      | nil => simp at hl
      | cons v us =>
        refine ⟨v, hr 0 v rfl, us, ih.2 ⟨by simpa using hl, fun j w hw => ?_⟩, rfl⟩
        have := hr (j + 1) w (by simpa using hw)
        rwa [show i + 1 + j = i + (j + 1) by omega]

theorem checkResidues_ok {f : Nat → Except Stop Nat} {a : Nat} {tag : Word} {base n : Nat} :
    ∀ {j : Nat} {vs : List Nat},
    checkResidues f a tag base j n = .ok vs ↔
      vs.length = n ∧ ∀ i v, vs[i]? = some v → f (base + j + i) = .ok v ∧ v < a := by
  induction n with
  | zero =>
    intro j vs
    constructor
    · intro h
      have : vs = [] := by injection h with h; exact h.symm
      subst this
      exact ⟨rfl, fun i v h => by simp at h⟩
    · rintro ⟨h, _⟩
      rw [List.length_eq_zero_iff] at h
      rw [h]; rfl
  | succ n ih =>
    intro j vs
    simp only [checkResidues, except_bind_ok, except_pure_ok, require_ok]
    constructor
    · rintro ⟨v, hv, _, hlt, us, hus, rfl⟩
      obtain ⟨hl, hr⟩ := ih.1 hus
      refine ⟨by simp [hl], fun i w hw => ?_⟩
      cases i with
      | zero =>
        simp only [List.getElem?_cons_zero, Option.some.injEq] at hw
        subst hw
        exact ⟨hv, hlt⟩
      | succ i =>
        have := hr i w (by simpa using hw)
        rwa [show base + j + (i + 1) = base + (j + 1) + i by omega]
    · rintro ⟨hl, hr⟩
      cases vs with
      | nil => simp at hl
      | cons v us =>
        obtain ⟨hv, hlt⟩ := hr 0 v rfl
        refine ⟨v, hv, (), hlt, us, ih.2 ⟨by simpa using hl, fun i w hw => ?_⟩, rfl⟩
        have := hr (i + 1) w (by simpa using hw)
        rwa [show base + (j + 1) + i = base + j + (i + 1) by omega]

theorem twist_ok {a : Nat} {T : Nat → Except Stop Nat} : ∀ {xs ys : List Nat} {i : Nat},
    twist a T i xs = .ok ys ↔
      ys.length = xs.length ∧
        ∀ j x, xs[j]? = some x → ∃ t, T (i + j) = .ok t ∧ ys[j]? = some (mmul a x t) := by
  intro xs
  induction xs with
  | nil =>
    intro ys i
    constructor
    · intro h
      have : ys = [] := by injection h with h; exact h.symm
      subst this
      exact ⟨rfl, fun j x h => by simp at h⟩
    · rintro ⟨h, _⟩
      rw [List.length_nil, List.length_eq_zero_iff] at h
      rw [h]; rfl
  | cons x xs ih =>
    intro ys i
    simp only [twist, except_bind_ok, except_pure_ok]
    constructor
    · rintro ⟨t, ht, zs, hzs, rfl⟩
      obtain ⟨hl, hr⟩ := ih.1 hzs
      refine ⟨by simp [hl], fun j y hy => ?_⟩
      cases j with
      | zero =>
        simp only [List.getElem?_cons_zero, Option.some.injEq] at hy
        subst hy
        exact ⟨t, ht, rfl⟩
      | succ j =>
        obtain ⟨u, hu, hz⟩ := hr j y (by simpa using hy)
        exact ⟨u, by rwa [show i + (j + 1) = i + 1 + j by omega], by simpa using hz⟩
    · rintro ⟨hl, hr⟩
      obtain ⟨t, ht, h0⟩ := hr 0 x rfl
      cases ys with
      | nil => simp at hl
      | cons y zs =>
        simp only [List.getElem?_cons_zero, Option.some.injEq] at h0
        subst h0
        refine ⟨t, ht, zs, ih.2 ⟨by simpa using hl, fun j z hz => ?_⟩, rfl⟩
        obtain ⟨u, hu, hz'⟩ := hr (j + 1) z (by simpa using hz)
        exact ⟨u, by rwa [show i + 1 + j = i + (j + 1) by omega], by simpa using hz'⟩

/-! ### Stages -/

theorem runPairs_length {α τ : Type} {tw : Nat → Except Stop τ} {bfly : τ → α → α → α × α} :
    ∀ {ps : List (Nat × Nat × Nat)} {A B : List α}, runPairs tw bfly ps A = .ok B → B.length = A.length := by
  intro ps
  induction ps with
  | nil =>
    intro A B h
    have : A = B := by injection h
    rw [this]
  | cons p ps ih =>
    obtain ⟨e, o, i⟩ := p
    intro A B h
    simp only [runPairs, except_bind_ok] at h
    obtain ⟨w, _, h⟩ := h
    split at h
    · rw [ih h]; simp
    · exact ih h

theorem runStages_length {α τ : Type} {tw : Nat → Nat → Except Stop τ} {bfly : τ → α → α → α × α} {k : Nat} :
    ∀ {ss : List Nat} {A B : List α}, runStages tw bfly k ss A = .ok B → B.length = A.length := by
  intro ss
  induction ss with
  | nil =>
    intro A B h
    have : A = B := by injection h
    rw [this]
  | cons s ss ih =>
    intro A B h
    simp only [runStages, except_bind_ok] at h
    obtain ⟨C, hC, h⟩ := h
    rw [ih h, runPairs_length hC]

/-- Butterflies that ran have read the twiddle of every pair. -/
theorem runPairs_reads {α τ : Type} {tw : Nat → Except Stop τ} {bfly : τ → α → α → α × α} :
    ∀ {ps : List (Nat × Nat × Nat)} {A B : List α}, runPairs tw bfly ps A = .ok B →
      ∀ p ∈ ps, ∃ w, tw p.2.2 = .ok w := by
  intro ps
  induction ps with
  | nil => intro A B _ p hp; cases hp
  | cons q ps ih =>
    obtain ⟨e, o, i⟩ := q
    intro A B h p hp
    simp only [runPairs, except_bind_ok] at h
    obtain ⟨w, hw, h⟩ := h
    rcases List.mem_cons.1 hp with rfl | hp
    · exact ⟨w, hw⟩
    · split at h <;> exact ih h p hp

/-- Butterflies stop only where the read of a twiddle stops. -/
theorem runPairs_error {α τ : Type} {tw : Nat → Except Stop τ} {bfly : τ → α → α → α × α} {r : Stop} :
    ∀ {ps : List (Nat × Nat × Nat)} {A : List α}, runPairs tw bfly ps A = .error r →
      ∃ p ∈ ps, tw p.2.2 = .error r := by
  intro ps
  induction ps with
  | nil => intro A h; cases h
  | cons q ps ih =>
    obtain ⟨e, o, i⟩ := q
    intro A h
    simp only [runPairs, except_bind_error] at h
    rcases h with h | ⟨w, _, h⟩
    · exact ⟨_, List.mem_cons_self, h⟩
    · have ⟨p, hp, e⟩ : ∃ p ∈ ps, tw p.2.2 = .error r := by split at h <;> exact ih h
      exact ⟨p, List.mem_cons_of_mem _ hp, e⟩

/-- Stages that ran have read the twiddle of every pair of every stage. -/
theorem runStages_reads {α τ : Type} {tw : Nat → Nat → Except Stop τ} {bfly : τ → α → α → α × α} {k : Nat} :
    ∀ {ss : List Nat} {A B : List α}, runStages tw bfly k ss A = .ok B →
      ∀ s ∈ ss, ∀ p ∈ stagePairs k s, ∃ w, tw s p.2.2 = .ok w := by
  intro ss
  induction ss with
  | nil => intro A B _ s hs; cases hs
  | cons q ss ih =>
    intro A B h s hs
    simp only [runStages, except_bind_ok] at h
    obtain ⟨C, hC, h⟩ := h
    rcases List.mem_cons.1 hs with rfl | hs
    · exact runPairs_reads hC
    · exact ih h s hs

/-- Stages stop only where the read of a twiddle stops. -/
theorem runStages_error {α τ : Type} {tw : Nat → Nat → Except Stop τ} {bfly : τ → α → α → α × α} {k : Nat}
    {r : Stop} : ∀ {ss : List Nat} {A : List α}, runStages tw bfly k ss A = .error r →
      ∃ s ∈ ss, ∃ p ∈ stagePairs k s, tw s p.2.2 = .error r := by
  intro ss
  induction ss with
  | nil => intro A h; cases h
  | cons q ss ih =>
    intro A h
    simp only [runStages, except_bind_error] at h
    rcases h with h | ⟨C, _, h⟩
    · exact ⟨q, List.mem_cons_self, runPairs_error h⟩
    · obtain ⟨s, hs, p, hp, e⟩ := ih h
      exact ⟨s, List.mem_cons_of_mem _ hs, p, hp, e⟩

/-- The pair indices of a stage, each below half the block, each used in every block. -/
theorem stagePairs_index {k s i : Nat} (h1 : 1 ≤ s) (h2 : s ≤ k) :
    (∃ p ∈ stagePairs k s, p.2.2 = i) ↔ i < 2 ^ (s - 1) := by
  have half : 2 ^ s / 2 = 2 ^ (s - 1) := by
    obtain ⟨t, rfl⟩ : ∃ t, s = t + 1 := ⟨s - 1, by omega⟩
    rw [pow_succ, Nat.mul_div_cancel _ (by decide), Nat.add_sub_cancel]
  have blocks : 0 < 2 ^ k / 2 ^ s := Nat.div_pos (Nat.pow_le_pow_right (by decide) h2) (by positivity)
  simp only [stagePairs, List.mem_flatMap, List.mem_map, List.mem_range, half]
  constructor
  · rintro ⟨p, ⟨b, _, j, hj, rfl⟩, rfl⟩
    exact hj
  · exact fun h => ⟨_, ⟨0, blocks, i, h, rfl⟩, rfl⟩

theorem mem_stagesUp {k s : Nat} : s ∈ stagesUp k ↔ 1 ≤ s ∧ s ≤ k := by
  simp only [stagesUp, List.mem_map, List.mem_range]
  constructor
  · rintro ⟨t, ht, rfl⟩; omega
  · rintro ⟨h1, h2⟩; exact ⟨s - 1, by omega, by omega⟩

theorem mem_stagesDown {k s : Nat} : s ∈ stagesDown k ↔ 1 ≤ s ∧ s ≤ k := by
  rw [stagesDown, List.mem_reverse, mem_stagesUp]

/-! ### Completion -/

theorem State.finish_next {s t : State} {eff : Status → Status} {r : Except Stop State} :
    s.finish eff r = .next t ↔
      (∃ u, r = .ok u ∧ t = u.succeed) ∨ ∃ e info, r = .error (.raise e info) ∧ t = s.fail eff e info := by
  constructor
  · intro h
    unfold State.finish at h
    split at h
    · rename_i u
      exact .inl ⟨u, rfl, by injection h with h; exact h.symm⟩
    · rename_i e info
      exact .inr ⟨e, info, rfl, by injection h with h; exact h.symm⟩
    · cases h
  · rintro (⟨u, rfl, rfl⟩ | ⟨e, info, rfl, rfl⟩) <;> rfl

theorem State.finish_fault {s : State} {eff : Status → Status} {r : Except Stop State} {f : Fault} :
    s.finish eff r = .fault f ↔ r = .error (.fault f) := by
  constructor
  · intro h
    unfold State.finish at h
    split at h
    · cases h
    · cases h
    · injection h with h
      rw [h]
  · rintro rfl; rfl

theorem State.finish_not_refused {s : State} {eff : Status → Status} {r : Except Stop State} {q : Refusal} :
    s.finish eff r ≠ .refused q := by
  unfold State.finish
  split <;> simp

theorem State.finishBuffer_next {s t : State} {outs : Except Stop (List Entry)} :
    s.finishBuffer outs = .next t ↔
      (∃ vs, outs = .ok vs ∧
        t = State.succeed { s with mem := s.mem.writeEntries (dmemAddr s.latch.dst.toNat) vs }) ∨
      ∃ e info, outs = .error (.raise e info) ∧ t = s.fail noEffect e info := by
  simp only [State.finishBuffer, State.finish_next, except_map_ok, except_map_error]
  constructor
  · rintro (⟨_, ⟨vs, h, rfl⟩, rfl⟩ | h)
    · exact .inl ⟨vs, h, rfl⟩
    · exact .inr h
  · rintro (⟨vs, h, rfl⟩ | h)
    · exact .inl ⟨_, ⟨vs, h, rfl⟩, rfl⟩
    · exact .inr h

end Sys2Proof.Machine
end

