-- ==== Sys2Proof/Laws/State.lean ====
section
/-! SUPPORT. What each update of the state does to each field: one lemma for a field and an update. -/

namespace Sys2Proof.Machine

/-! ### accept -/

@[simp] theorem State.accept_params (s : State) (v : Word) : (s.accept v).params = s.params := rfl
@[simp] theorem State.accept_inbox (s : State) (v : Word) : (s.accept v).inbox = s.inbox := rfl
@[simp] theorem State.accept_responses (s : State) (v : Word) : (s.accept v).responses = s.responses := rfl
@[simp] theorem State.accept_rstN (s : State) (v : Word) : (s.accept v).rstN = s.rstN := rfl
@[simp] theorem State.accept_status (s : State) (v : Word) :
    (s.accept v).status =
      { s.status with busy := true, err := false, errcode := .ok } := rfl
@[simp] theorem State.accept_irqStatus (s : State) (v : Word) : (s.accept v).irqStatus = s.irqStatus := rfl
@[simp] theorem State.accept_irqEnable (s : State) (v : Word) : (s.accept v).irqEnable = s.irqEnable := rfl
@[simp] theorem State.accept_errInfo (s : State) (v : Word) : (s.accept v).errInfo = 0 := rfl
@[simp] theorem State.accept_srcBase (s : State) (v : Word) : (s.accept v).srcBase = s.srcBase := rfl
@[simp] theorem State.accept_dstBase (s : State) (v : Word) : (s.accept v).dstBase = s.dstBase := rfl
@[simp] theorem State.accept_tblBase (s : State) (v : Word) : (s.accept v).tblBase = s.tblBase := rfl
@[simp] theorem State.accept_staging (s : State) (v : Word) : (s.accept v).staging = s.staging := rfl
@[simp] theorem State.accept_actMod (s : State) (v : Word) : (s.accept v).actMod = s.actMod := rfl
@[simp] theorem State.accept_actLogd (s : State) (v : Word) : (s.accept v).actLogd = s.actLogd := rfl
@[simp] theorem State.accept_actLogm (s : State) (v : Word) : (s.accept v).actLogm = s.actLogm := rfl
@[simp] theorem State.accept_latch (s : State) (v : Word) :
    (s.accept v).latch =
      { cmd := v, src := s.srcBase, dst := s.dstBase, tbl := s.tblBase, s0 := s.staging } := rfl
@[simp] theorem State.accept_bk (s : State) (v : Word) : (s.accept v).bk = s.bk := rfl
@[simp] theorem State.accept_mu (s : State) (v : Word) : (s.accept v).mu = s.mu := rfl
@[simp] theorem State.accept_mem (s : State) (v : Word) : (s.accept v).mem = s.mem := rfl
@[simp] theorem State.accept_free (s : State) (v : Word) : (s.accept v).free = s.free := rfl

/-! ### overrun -/

@[simp] theorem State.overrun_params (s : State) : (s.overrun).params = s.params := rfl
@[simp] theorem State.overrun_inbox (s : State) : (s.overrun).inbox = s.inbox := rfl
@[simp] theorem State.overrun_responses (s : State) : (s.overrun).responses = s.responses := rfl
@[simp] theorem State.overrun_rstN (s : State) : (s.overrun).rstN = s.rstN := rfl
@[simp] theorem State.overrun_status (s : State) : (s.overrun).status = s.status := rfl
@[simp] theorem State.overrun_irqStatus (s : State) :
    (s.overrun).irqStatus =
      { s.irqStatus with ovr := true } := rfl
@[simp] theorem State.overrun_irqEnable (s : State) : (s.overrun).irqEnable = s.irqEnable := rfl
@[simp] theorem State.overrun_errInfo (s : State) : (s.overrun).errInfo = s.errInfo := rfl
@[simp] theorem State.overrun_srcBase (s : State) : (s.overrun).srcBase = s.srcBase := rfl
@[simp] theorem State.overrun_dstBase (s : State) : (s.overrun).dstBase = s.dstBase := rfl
@[simp] theorem State.overrun_tblBase (s : State) : (s.overrun).tblBase = s.tblBase := rfl
@[simp] theorem State.overrun_staging (s : State) : (s.overrun).staging = s.staging := rfl
@[simp] theorem State.overrun_actMod (s : State) : (s.overrun).actMod = s.actMod := rfl
@[simp] theorem State.overrun_actLogd (s : State) : (s.overrun).actLogd = s.actLogd := rfl
@[simp] theorem State.overrun_actLogm (s : State) : (s.overrun).actLogm = s.actLogm := rfl
@[simp] theorem State.overrun_latch (s : State) : (s.overrun).latch = s.latch := rfl
@[simp] theorem State.overrun_bk (s : State) : (s.overrun).bk = s.bk := rfl
@[simp] theorem State.overrun_mu (s : State) : (s.overrun).mu = s.mu := rfl
@[simp] theorem State.overrun_mem (s : State) : (s.overrun).mem = s.mem := rfl
@[simp] theorem State.overrun_free (s : State) : (s.overrun).free = s.free := rfl

/-! ### succeed -/

@[simp] theorem State.succeed_params (s : State) : (s.succeed).params = s.params := rfl
@[simp] theorem State.succeed_inbox (s : State) : (s.succeed).inbox = s.inbox := rfl
@[simp] theorem State.succeed_responses (s : State) : (s.succeed).responses = s.responses := rfl
@[simp] theorem State.succeed_rstN (s : State) : (s.succeed).rstN = s.rstN := rfl
@[simp] theorem State.succeed_status (s : State) :
    (s.succeed).status =
      { s.status with busy := false } := rfl
@[simp] theorem State.succeed_irqStatus (s : State) :
    (s.succeed).irqStatus =
      { s.irqStatus with done := true } := rfl
@[simp] theorem State.succeed_irqEnable (s : State) : (s.succeed).irqEnable = s.irqEnable := rfl
@[simp] theorem State.succeed_errInfo (s : State) : (s.succeed).errInfo = s.errInfo := rfl
@[simp] theorem State.succeed_srcBase (s : State) : (s.succeed).srcBase = s.srcBase := rfl
@[simp] theorem State.succeed_dstBase (s : State) : (s.succeed).dstBase = s.dstBase := rfl
@[simp] theorem State.succeed_tblBase (s : State) : (s.succeed).tblBase = s.tblBase := rfl
@[simp] theorem State.succeed_staging (s : State) : (s.succeed).staging = s.staging := rfl
@[simp] theorem State.succeed_actMod (s : State) : (s.succeed).actMod = s.actMod := rfl
@[simp] theorem State.succeed_actLogd (s : State) : (s.succeed).actLogd = s.actLogd := rfl
@[simp] theorem State.succeed_actLogm (s : State) : (s.succeed).actLogm = s.actLogm := rfl
@[simp] theorem State.succeed_latch (s : State) : (s.succeed).latch = s.latch := rfl
@[simp] theorem State.succeed_bk (s : State) : (s.succeed).bk = s.bk := rfl
@[simp] theorem State.succeed_mu (s : State) : (s.succeed).mu = s.mu := rfl
@[simp] theorem State.succeed_mem (s : State) : (s.succeed).mem = s.mem := rfl
@[simp] theorem State.succeed_free (s : State) : (s.succeed).free = s.free := rfl

/-! ### fail -/

@[simp] theorem State.fail_params (s : State) (f : Status → Status) (e : ErrCode) (info : Word) :
    (s.fail f e info).params =
      s.params := rfl
@[simp] theorem State.fail_inbox (s : State) (f : Status → Status) (e : ErrCode) (info : Word) :
    (s.fail f e info).inbox =
      s.inbox := rfl
@[simp] theorem State.fail_responses (s : State) (f : Status → Status) (e : ErrCode) (info : Word) :
    (s.fail f e info).responses =
      s.responses := rfl
@[simp] theorem State.fail_rstN (s : State) (f : Status → Status) (e : ErrCode) (info : Word) :
    (s.fail f e info).rstN =
      s.rstN := rfl
@[simp] theorem State.fail_status (s : State) (f : Status → Status) (e : ErrCode) (info : Word) :
    (s.fail f e info).status =
      { f s.status with busy := false, err := true, errcode := e } := rfl
@[simp] theorem State.fail_irqStatus (s : State) (f : Status → Status) (e : ErrCode) (info : Word) :
    (s.fail f e info).irqStatus =
      { s.irqStatus with done := true, err := true } := rfl
@[simp] theorem State.fail_irqEnable (s : State) (f : Status → Status) (e : ErrCode) (info : Word) :
    (s.fail f e info).irqEnable =
      s.irqEnable := rfl
@[simp] theorem State.fail_errInfo (s : State) (f : Status → Status) (e : ErrCode) (info : Word) :
    (s.fail f e info).errInfo =
      info := rfl
@[simp] theorem State.fail_srcBase (s : State) (f : Status → Status) (e : ErrCode) (info : Word) :
    (s.fail f e info).srcBase =
      s.srcBase := rfl
@[simp] theorem State.fail_dstBase (s : State) (f : Status → Status) (e : ErrCode) (info : Word) :
    (s.fail f e info).dstBase =
      s.dstBase := rfl
@[simp] theorem State.fail_tblBase (s : State) (f : Status → Status) (e : ErrCode) (info : Word) :
    (s.fail f e info).tblBase =
      s.tblBase := rfl
@[simp] theorem State.fail_staging (s : State) (f : Status → Status) (e : ErrCode) (info : Word) :
    (s.fail f e info).staging =
      s.staging := rfl
@[simp] theorem State.fail_actMod (s : State) (f : Status → Status) (e : ErrCode) (info : Word) :
    (s.fail f e info).actMod =
      s.actMod := rfl
@[simp] theorem State.fail_actLogd (s : State) (f : Status → Status) (e : ErrCode) (info : Word) :
    (s.fail f e info).actLogd =
      s.actLogd := rfl
@[simp] theorem State.fail_actLogm (s : State) (f : Status → Status) (e : ErrCode) (info : Word) :
    (s.fail f e info).actLogm =
      s.actLogm := rfl
@[simp] theorem State.fail_latch (s : State) (f : Status → Status) (e : ErrCode) (info : Word) :
    (s.fail f e info).latch =
      s.latch := rfl
@[simp] theorem State.fail_bk (s : State) (f : Status → Status) (e : ErrCode) (info : Word) :
    (s.fail f e info).bk =
      s.bk := rfl
@[simp] theorem State.fail_mu (s : State) (f : Status → Status) (e : ErrCode) (info : Word) :
    (s.fail f e info).mu =
      s.mu := rfl
@[simp] theorem State.fail_mem (s : State) (f : Status → Status) (e : ErrCode) (info : Word) :
    (s.fail f e info).mem =
      s.mem := rfl
@[simp] theorem State.fail_free (s : State) (f : Status → Status) (e : ErrCode) (info : Word) :
    (s.fail f e info).free =
      s.free := rfl

/-! ### respond -/

@[simp] theorem State.respond_params (s : State) (r : Resp) : (s.respond r).params = s.params := rfl
@[simp] theorem State.respond_inbox (s : State) (r : Resp) : (s.respond r).inbox = s.inbox := rfl
@[simp] theorem State.respond_responses (s : State) (r : Resp) :
    (s.respond r).responses =
      r :: s.responses := rfl
@[simp] theorem State.respond_rstN (s : State) (r : Resp) : (s.respond r).rstN = s.rstN := rfl
@[simp] theorem State.respond_status (s : State) (r : Resp) : (s.respond r).status = s.status := rfl
@[simp] theorem State.respond_irqStatus (s : State) (r : Resp) :
    (s.respond r).irqStatus =
      s.irqStatus := rfl
@[simp] theorem State.respond_irqEnable (s : State) (r : Resp) :
    (s.respond r).irqEnable =
      s.irqEnable := rfl
@[simp] theorem State.respond_errInfo (s : State) (r : Resp) : (s.respond r).errInfo = s.errInfo := rfl
@[simp] theorem State.respond_srcBase (s : State) (r : Resp) : (s.respond r).srcBase = s.srcBase := rfl
@[simp] theorem State.respond_dstBase (s : State) (r : Resp) : (s.respond r).dstBase = s.dstBase := rfl
@[simp] theorem State.respond_tblBase (s : State) (r : Resp) : (s.respond r).tblBase = s.tblBase := rfl
@[simp] theorem State.respond_staging (s : State) (r : Resp) : (s.respond r).staging = s.staging := rfl
@[simp] theorem State.respond_actMod (s : State) (r : Resp) : (s.respond r).actMod = s.actMod := rfl
@[simp] theorem State.respond_actLogd (s : State) (r : Resp) : (s.respond r).actLogd = s.actLogd := rfl
@[simp] theorem State.respond_actLogm (s : State) (r : Resp) : (s.respond r).actLogm = s.actLogm := rfl
@[simp] theorem State.respond_latch (s : State) (r : Resp) : (s.respond r).latch = s.latch := rfl
@[simp] theorem State.respond_bk (s : State) (r : Resp) : (s.respond r).bk = s.bk := rfl
@[simp] theorem State.respond_mu (s : State) (r : Resp) : (s.respond r).mu = s.mu := rfl
@[simp] theorem State.respond_mem (s : State) (r : Resp) : (s.respond r).mem = s.mem := rfl
@[simp] theorem State.respond_free (s : State) (r : Resp) : (s.respond r).free = s.free := rfl

/-! ### resetRegisters -/

@[simp] theorem State.resetRegisters_params (s : State) : (s.resetRegisters).params = s.params := rfl
@[simp] theorem State.resetRegisters_inbox (s : State) : (s.resetRegisters).inbox = s.inbox := rfl
@[simp] theorem State.resetRegisters_responses (s : State) :
    (s.resetRegisters).responses =
      s.responses := rfl
@[simp] theorem State.resetRegisters_rstN (s : State) : (s.resetRegisters).rstN = s.rstN := rfl
@[simp] theorem State.resetRegisters_status (s : State) : (s.resetRegisters).status = Status.reset := rfl
@[simp] theorem State.resetRegisters_irqStatus (s : State) :
    (s.resetRegisters).irqStatus =
      IrqBits.reset := rfl
@[simp] theorem State.resetRegisters_irqEnable (s : State) :
    (s.resetRegisters).irqEnable =
      IrqBits.reset := rfl
@[simp] theorem State.resetRegisters_errInfo (s : State) : (s.resetRegisters).errInfo = 0 := rfl
@[simp] theorem State.resetRegisters_srcBase (s : State) : (s.resetRegisters).srcBase = 0 := rfl
@[simp] theorem State.resetRegisters_dstBase (s : State) : (s.resetRegisters).dstBase = 0 := rfl
@[simp] theorem State.resetRegisters_tblBase (s : State) : (s.resetRegisters).tblBase = 0 := rfl
@[simp] theorem State.resetRegisters_staging (s : State) : (s.resetRegisters).staging = Staging.reset := rfl
@[simp] theorem State.resetRegisters_actMod (s : State) : (s.resetRegisters).actMod = 0 := rfl
@[simp] theorem State.resetRegisters_actLogd (s : State) : (s.resetRegisters).actLogd = 0 := rfl
@[simp] theorem State.resetRegisters_actLogm (s : State) : (s.resetRegisters).actLogm = 0 := rfl
@[simp] theorem State.resetRegisters_latch (s : State) : (s.resetRegisters).latch = Latch.reset := rfl
@[simp] theorem State.resetRegisters_bk (s : State) : (s.resetRegisters).bk = Config.freeBk s.free := rfl
@[simp] theorem State.resetRegisters_mu (s : State) : (s.resetRegisters).mu = Config.freeMu s.free := rfl
@[simp] theorem State.resetRegisters_mem (s : State) : (s.resetRegisters).mem = s.mem := rfl
@[simp] theorem State.resetRegisters_free (s : State) : (s.resetRegisters).free = s.free + 1 := rfl

/-! ### abort: at most the memory, BK, MU and the counter of free values change -/

@[simp] theorem State.abort_params (s : State) : s.abort.params = s.params := by
  unfold State.abort; split <;> rfl
@[simp] theorem State.abort_inbox (s : State) : s.abort.inbox = s.inbox := by
  unfold State.abort; split <;> rfl
@[simp] theorem State.abort_responses (s : State) : s.abort.responses = s.responses := by
  unfold State.abort; split <;> rfl
@[simp] theorem State.abort_rstN (s : State) : s.abort.rstN = s.rstN := by
  unfold State.abort; split <;> rfl
@[simp] theorem State.abort_status (s : State) : s.abort.status = s.status := by
  unfold State.abort; split <;> rfl
@[simp] theorem State.abort_irqStatus (s : State) : s.abort.irqStatus = s.irqStatus := by
  unfold State.abort; split <;> rfl
@[simp] theorem State.abort_irqEnable (s : State) : s.abort.irqEnable = s.irqEnable := by
  unfold State.abort; split <;> rfl
@[simp] theorem State.abort_errInfo (s : State) : s.abort.errInfo = s.errInfo := by
  unfold State.abort; split <;> rfl
@[simp] theorem State.abort_srcBase (s : State) : s.abort.srcBase = s.srcBase := by
  unfold State.abort; split <;> rfl
@[simp] theorem State.abort_dstBase (s : State) : s.abort.dstBase = s.dstBase := by
  unfold State.abort; split <;> rfl
@[simp] theorem State.abort_tblBase (s : State) : s.abort.tblBase = s.tblBase := by
  unfold State.abort; split <;> rfl
@[simp] theorem State.abort_staging (s : State) : s.abort.staging = s.staging := by
  unfold State.abort; split <;> rfl
@[simp] theorem State.abort_actMod (s : State) : s.abort.actMod = s.actMod := by
  unfold State.abort; split <;> rfl
@[simp] theorem State.abort_actLogd (s : State) : s.abort.actLogd = s.actLogd := by
  unfold State.abort; split <;> rfl
@[simp] theorem State.abort_actLogm (s : State) : s.abort.actLogm = s.actLogm := by
  unfold State.abort; split <;> rfl
@[simp] theorem State.abort_latch (s : State) : s.abort.latch = s.latch := by
  unfold State.abort; split <;> rfl
@[simp] theorem State.abort_mem (s : State) : s.abort.mem = abortedMem s := by
  unfold State.abort; split <;> rfl

end Sys2Proof.Machine
end

