-- ==== Sys2Proof/Laws/Exec.lean ====
section
/-! SUPPORT. Every command as one completion of its two phases, one step by the head of the inbox, and a register
access at the port. -/

namespace Sys2Proof.Machine

/-- The two phases of a command: the state with its writes, or why it stopped. -/
def phases (i : Instr) (s : State) : Except Stop State :=
  let buffer (outs : Except Stop (List Entry)) : Except Stop State := outs.map fun vs =>
    { s with mem := s.mem.writeEntries (dmemAddr s.latch.dst.toNat) vs }
  match i with
  | .nop => .ok s
  | .mcfg => (mcfgChecks s.params s.latch.s0).map fun _ => mcfgCompute s s.latch.s0
  | .ccfg => (ccfgChecks s.params s.latch.s0.clen).map fun _ => ccfgCompute s s.latch.s0.clen
  | .chk k => (s.chkChecks k).map fun _ => s
  | .brev k => buffer (brevOutputs k s)
  | .nttFwd k => buffer (nttOutputs k s.fwdAt s)
  | .nttInv k => buffer (nttOutputs k s.invAt s)
  | .nttUsr k => buffer (nttUsrOutputs k s)
  | .fttf k => buffer (fttfOutputs k s)
  | .ftti k => buffer (fttiOutputs k s)
  | .fft k => buffer (fftOutputs k s)
  | .fftf k => buffer (fftfOutputs k s)
  | .ffti k => buffer (fftiOutputs k s)
  | .emb k => buffer (embOutputs k s)
  | .embi k => buffer (embiOutputs k s)

/-- The error effect of a command (60_exceptions.md R405). -/
def errorEffect : Instr → Status → Status
  | .mcfg => dropMcfg
  | .ccfg => dropCcfg
  | .nop | .chk _ | .brev _ | .nttFwd _ | .nttInv _ | .nttUsr _ | .fttf _ | .ftti _ | .fft _ | .fftf _
  | .ffti _ | .emb _ | .embi _ => noEffect

/-- Every command is the completion of its phases. -/
theorem exec_eq_finish (i : Instr) (s : State) : exec i s = s.finish (errorEffect i) (phases i s) := by
  cases i <;> rfl

/-- An error completion is what Safety.lean calls the state after the error. -/
theorem fail_eq_afterError (s : State) (i : Instr) (e : ErrCode) (info : Word) :
    s.fail (errorEffect i) e info = s.afterError i e info := by
  cases i <;> simp [State.fail, State.afterError, errorEffect, dropMcfg, dropCcfg, noEffect]

/-- What exec can answer: a success, an error, or a fault, by the phases; never a refusal. -/
theorem exec_next {i : Instr} {s t : State} : exec i s = .next t ↔
    (∃ u, phases i s = .ok u ∧ t = u.succeed) ∨
      ∃ e info, phases i s = .error (.raise e info) ∧ t = s.afterError i e info := by
  rw [exec_eq_finish, State.finish_next]
  simp only [fail_eq_afterError]

theorem exec_fault {i : Instr} {s : State} {f : Fault} :
    exec i s = .fault f ↔ phases i s = .error (.fault f) := by
  rw [exec_eq_finish, State.finish_fault]

theorem exec_not_refused {i : Instr} {s : State} {q : Refusal} : exec i s ≠ .refused q := by
  rw [exec_eq_finish]
  exact State.finish_not_refused

theorem step_nil {s : State} (h : s.inbox = []) : step s = sequencerTurn s := by
  unfold step
  rw [h]

theorem step_cons {s : State} {e : Event} {es : List Event} (h : s.inbox = e :: es) :
    step s = happen e { s with inbox := es } := by
  unfold step
  rw [h]

/-- The register map has each register at its own offset. -/
theorem regAt_offset (r : Reg) : regAt r.offset = some r := by cases r <;> decide

/-- A legal write and a legal read at a register offset, BUSY or not. -/
theorem serve_write_register {s : State} {off : Nat} (v : Word) (hr : s.rstN = true) (h : off < 0x1000)
    (h4 : off % 4 = 0) :
    serve (.write (BitVec.ofNat 24 off) .word v 0xF) s = .next ((s.writeRegs off v).respond .writeOkay) := by
  have e : (BitVec.ofNat 24 off).toNat = off := by
    rw [BitVec.toNat_ofNat]
    omega
  simp [serve, hr, Access.legal, serveWrite, e, h4, windowOf, h]

theorem serve_read_register {s : State} {off : Nat} (hr : s.rstN = true) (h : off < 0x1000)
    (h4 : off % 4 = 0) :
    serve (.read (BitVec.ofNat 24 off) .word) s = .next (s.respond (.readOkay (s.readRegs off))) := by
  have e : (BitVec.ofNat 24 off).toNat = off := by
    rw [BitVec.toNat_ofNat]
    omega
  simp [serve, hr, Access.legal, serveRead, e, h4, windowOf, h]

/-! ### Lengths -/

theorem brev_lt (k j : Nat) : brev k j < 2 ^ k := by
  have key : ∀ (n : Nat) (f : Nat → Nat), (∀ b, f b ≤ 1) → n ≤ k →
      ((List.range n).map fun b => f b * 2 ^ (k - 1 - b)).sum + 2 ^ (k - n) ≤ 2 ^ k := by
    intro n f hf
    induction n with
    | zero => intro _; simp
    | succ n ih =>
      intro hn
      have h := ih (by omega)
      rw [List.range_succ, List.map_append, List.sum_append]
      have e : 2 ^ (k - n) = 2 ^ (k - 1 - n) + 2 ^ (k - 1 - n) := by
        rw [show k - n = k - 1 - n + 1 by omega, pow_succ]
        omega
      have hm : f n * 2 ^ (k - 1 - n) ≤ 1 * 2 ^ (k - 1 - n) := Nat.mul_le_mul_right _ (hf n)
      rw [show k - (n + 1) = k - 1 - n by omega]
      simp only [List.map_cons, List.map_nil, List.sum_cons, List.sum_nil]
      omega
  have h := key k (fun b => (j.testBit b).toNat) (fun b => Bool.toNat_le _) le_rfl
  simp only [Nat.sub_self, pow_zero] at h
  unfold brev
  omega

theorem brevVec_length {α : Type} {k : Nat} {v : List α} (h : v.length = 2 ^ k) : (brevVec k v).length = 2 ^ k := by
  unfold brevVec
  have e : (List.range (2 ^ k)).filterMap (fun j => v[brev k j]?) =
      (List.range (2 ^ k)).map fun j => v[brev k j]'(h ▸ brev_lt k j) := by
    rw [← List.filterMap_eq_map]
    congr 1
    funext j
    simp [h, brev_lt k j]
  rw [e]
  simp

end Sys2Proof.Machine
end

