-- ==== Sys2Proof/Laws/PerInstr.lean ====
section
/-! SUPPORT. Statements made for each command of the syntax: the fields of its encoded word. -/

namespace Sys2Proof.Laws.Fields

/-- The four fields of the word of a well-formed command (30_encoding.md R150). -/
def Statement (i : Instr) : Prop :=
  i.wellFormed = true →
    opcField (encode i) = opcodeOf i ∧ lognField (encode i) = i.logn.getD 0 ∧
      tblField (encode i) = tableOf i ∧ rsvdField (encode i) = 0

theorem nop : Statement .nop := fun _ => by decide
theorem mcfg : Statement .mcfg := fun _ => by decide
theorem ccfg : Statement .ccfg := fun _ => by decide
theorem brev (k : Nat) : Statement (.brev k) := fun h =>
  have H : ∀ j < 32, opcField (encode (.brev j)) = opcodeOf (.brev j) ∧ lognField (encode (.brev j)) = j ∧
      tblField (encode (.brev j)) = tableOf (.brev j) ∧ rsvdField (encode (.brev j)) = 0 := by decide +kernel
  H k (of_decide_eq_true h)
theorem nttFwd (k : Nat) : Statement (.nttFwd k) := fun h =>
  have H : ∀ j < 32, opcField (encode (.nttFwd j)) = opcodeOf (.nttFwd j) ∧ lognField (encode (.nttFwd j)) = j ∧
      tblField (encode (.nttFwd j)) = tableOf (.nttFwd j) ∧ rsvdField (encode (.nttFwd j)) = 0 := by decide +kernel
  H k (of_decide_eq_true h)
theorem nttInv (k : Nat) : Statement (.nttInv k) := fun h =>
  have H : ∀ j < 32, opcField (encode (.nttInv j)) = opcodeOf (.nttInv j) ∧ lognField (encode (.nttInv j)) = j ∧
      tblField (encode (.nttInv j)) = tableOf (.nttInv j) ∧ rsvdField (encode (.nttInv j)) = 0 := by decide +kernel
  H k (of_decide_eq_true h)
theorem nttUsr (k : Nat) : Statement (.nttUsr k) := fun h =>
  have H : ∀ j < 32, opcField (encode (.nttUsr j)) = opcodeOf (.nttUsr j) ∧ lognField (encode (.nttUsr j)) = j ∧
      tblField (encode (.nttUsr j)) = tableOf (.nttUsr j) ∧ rsvdField (encode (.nttUsr j)) = 0 := by decide +kernel
  H k (of_decide_eq_true h)
theorem fttf (k : Nat) : Statement (.fttf k) := fun h =>
  have H : ∀ j < 32, opcField (encode (.fttf j)) = opcodeOf (.fttf j) ∧ lognField (encode (.fttf j)) = j ∧
      tblField (encode (.fttf j)) = tableOf (.fttf j) ∧ rsvdField (encode (.fttf j)) = 0 := by decide +kernel
  H k (of_decide_eq_true h)
theorem ftti (k : Nat) : Statement (.ftti k) := fun h =>
  have H : ∀ j < 32, opcField (encode (.ftti j)) = opcodeOf (.ftti j) ∧ lognField (encode (.ftti j)) = j ∧
      tblField (encode (.ftti j)) = tableOf (.ftti j) ∧ rsvdField (encode (.ftti j)) = 0 := by decide +kernel
  H k (of_decide_eq_true h)
theorem fft (k : Nat) : Statement (.fft k) := fun h =>
  have H : ∀ j < 32, opcField (encode (.fft j)) = opcodeOf (.fft j) ∧ lognField (encode (.fft j)) = j ∧
      tblField (encode (.fft j)) = tableOf (.fft j) ∧ rsvdField (encode (.fft j)) = 0 := by decide +kernel
  H k (of_decide_eq_true h)
theorem fftf (k : Nat) : Statement (.fftf k) := fun h =>
  have H : ∀ j < 32, opcField (encode (.fftf j)) = opcodeOf (.fftf j) ∧ lognField (encode (.fftf j)) = j ∧
      tblField (encode (.fftf j)) = tableOf (.fftf j) ∧ rsvdField (encode (.fftf j)) = 0 := by decide +kernel
  H k (of_decide_eq_true h)
theorem ffti (k : Nat) : Statement (.ffti k) := fun h =>
  have H : ∀ j < 32, opcField (encode (.ffti j)) = opcodeOf (.ffti j) ∧ lognField (encode (.ffti j)) = j ∧
      tblField (encode (.ffti j)) = tableOf (.ffti j) ∧ rsvdField (encode (.ffti j)) = 0 := by decide +kernel
  H k (of_decide_eq_true h)
theorem chk (k : Nat) : Statement (.chk k) := fun h =>
  have H : ∀ j < 32, opcField (encode (.chk j)) = opcodeOf (.chk j) ∧ lognField (encode (.chk j)) = j ∧
      tblField (encode (.chk j)) = tableOf (.chk j) ∧ rsvdField (encode (.chk j)) = 0 := by decide +kernel
  H k (of_decide_eq_true h)
theorem emb (k : Nat) : Statement (.emb k) := fun h =>
  have H : ∀ j < 32, opcField (encode (.emb j)) = opcodeOf (.emb j) ∧ lognField (encode (.emb j)) = j ∧
      tblField (encode (.emb j)) = tableOf (.emb j) ∧ rsvdField (encode (.emb j)) = 0 := by decide +kernel
  H k (of_decide_eq_true h)
theorem embi (k : Nat) : Statement (.embi k) := fun h =>
  have H : ∀ j < 32, opcField (encode (.embi j)) = opcodeOf (.embi j) ∧ lognField (encode (.embi j)) = j ∧
      tblField (encode (.embi j)) = tableOf (.embi j) ∧ rsvdField (encode (.embi j)) = 0 := by decide +kernel
  H k (of_decide_eq_true h)

end Sys2Proof.Laws.Fields
end

