-- ==== Sys2Proof/Machine/HostNotation.lean ====
section
/-! DEFINITION. The host-side statements, each as the bus accesses it expands to (30_encoding.md R162). They
build an `inbox`; no step uses them. What a read returns stands in `responses`. -/

namespace Sys2Proof.Machine

/-- MemRead(off, 4) and MemWrite(off, 4, v) (00_scope.md R10). -/
def memRead (off : Nat) : Event := .access (.read (BitVec.ofNat 24 off) .word)
def memWrite (off : Nat) (v : Word) : Event := .access (.write (BitVec.ofNat 24 off) .word v 0xF)

/-- `wr REG, v` and `rd REG`. -/
def wr (r : Reg) (v : Word) : List Event := [memWrite r.offset v]
def rd (r : Reg) : List Event := [memRead r.offset]

/-- `wr64 REG, v`, the pair given by its two registers: the low word first. -/
def wr64 (lo hi : Reg) (v : Dword) : List Event := wr lo (lowWord v) ++ wr hi (highWord v)

/-- `cmd <command>`. -/
def cmd (i : Instr) : List Event := wr .cmd (encode i)

/-- `wait`, when `polls` polls of STATUS come before the completion and one after it (log 22). -/
def wait (polls : Nat) : List Event :=
  List.replicate polls (memRead Reg.status.offset) ++ [.sequencer, memRead Reg.status.offset]

/-- `run <command>`. -/
def run (i : Instr) (polls : Nat) : List Event := cmd i ++ wait polls

/-- The four words of an entry, low word first, at offset `p`. -/
def entryWrites (p : Nat) (lo hi : Dword) : List Event :=
  [memWrite p (lowWord lo), memWrite (p + 4) (highWord lo),
   memWrite (p + 8) (lowWord hi), memWrite (p + 12) (highWord hi)]

/-- `ldm e, [v0, v1, …]`: residues into DMEM. -/
def ldm (e : Nat) : List Dword → List Event
  | [] => []
  | v :: vs => entryWrites (dmemAddr e) v 0 ++ ldm (e + 1) vs

/-- `ldc e, [z0, z1, …]`: complex values into DMEM. -/
def ldc (e : Nat) : List Cplx → List Event
  | [] => []
  | z :: zs => entryWrites (dmemAddr e) z.re z.im ++ ldc (e + 1) zs

/-- `ldr k0, [z0, z1, …]`: complex values into CROOT. -/
def ldr (k : Nat) : List Cplx → List Event
  | [] => []
  | z :: zs => entryWrites (crootAddr k) z.re z.im ++ ldr (k + 1) zs

/-- `rdm e, n`: the two low words of n DMEM entries, the high word first as R162 writes it. -/
def rdm (e : Nat) : Nat → List Event
  | 0 => []
  | n + 1 => [memRead (dmemAddr e + 4), memRead (dmemAddr e)] ++ rdm (e + 1) n

/-- `rdc e, n`: the four words of n DMEM entries. -/
def rdc (e : Nat) : Nat → List Event
  | 0 => []
  | n + 1 =>
    [memRead (dmemAddr e), memRead (dmemAddr e + 4), memRead (dmemAddr e + 8), memRead (dmemAddr e + 12)]
      ++ rdc (e + 1) n

end Sys2Proof.Machine
end

