-- ==== Sys2Proof/Tests/Slice0.lean ====
section
/-! SUPPORT. Tests on small states, with expected results from the spec's own examples and vectors, and for
each statement with hypotheses a named state and operands that meet them. -/

namespace Sys2Proof.Tests

open Sys2Proof.Machine Sys2Proof.Stated

-- One theorem after the other: many kernel evaluations at once need more threads than the check allows.
set_option Elab.async false

/-! ### Well-formedness: each sized command is refused at k = 32 and accepted at 31 (30_encoding.md R161) -/

theorem test_wellFormed_bare : Instr.nop.wellFormed ∧ Instr.mcfg.wellFormed ∧ Instr.ccfg.wellFormed := by decide

theorem test_wellFormed_refuses_32 :
    [Instr.brev 32, .nttFwd 32, .nttInv 32, .nttUsr 32, .fttf 32, .ftti 32, .fft 32, .fftf 32, .ffti 32, .chk 32,
     .emb 32, .embi 32].all (fun i => !i.wellFormed) = true := by decide

theorem test_wellFormed_accepts_31 :
    [Instr.brev 31, .nttFwd 31, .nttInv 31, .nttUsr 31, .fttf 31, .ftti 31, .fft 31, .fftf 31, .ffti 31, .chk 31,
     .emb 31, .embi 31].all (fun i => i.wellFormed) = true := by decide

/-! ### Decoding: words written out from OPC [5:0], LOGN [10:6], TBL [12:11] (30_encoding.md R150, R156) -/

theorem test_decode_nop : decode 0b0000000000000000000_00_00000_000000 = .ok .nop := by decide
theorem test_decode_mcfg : decode 0b0000000000000000000_00_00000_000001 = .ok .mcfg := by decide
theorem test_decode_ccfg : decode 0b0000000000000000000_00_00000_000010 = .ok .ccfg := by decide
theorem test_decode_brev : decode 0b0000000000000000000_00_10001_000011 = .ok (.brev 17) := by decide
theorem test_decode_nttFwd : decode 0b0000000000000000000_00_00010_001000 = .ok (.nttFwd 2) := by decide
theorem test_decode_nttInv : decode 0b0000000000000000000_01_00010_001000 = .ok (.nttInv 2) := by decide
theorem test_decode_nttUsr : decode 0b0000000000000000000_10_00011_001000 = .ok (.nttUsr 3) := by decide
theorem test_decode_fttf : decode 0b0000000000000000000_00_00010_001001 = .ok (.fttf 2) := by decide
theorem test_decode_ftti : decode 0b0000000000000000000_00_11111_001010 = .ok (.ftti 31) := by decide
theorem test_decode_fft : decode 0b0000000000000000000_00_00001_010000 = .ok (.fft 1) := by decide
theorem test_decode_fftf : decode 0b0000000000000000000_00_01000_010001 = .ok (.fftf 8) := by decide
theorem test_decode_ffti : decode 0b0000000000000000000_00_00100_010010 = .ok (.ffti 4) := by decide
theorem test_decode_chk : decode 0b0000000000000000000_00_00011_010011 = .ok (.chk 3) := by decide
theorem test_decode_emb : decode 0b0000000000000000000_00_00001_010100 = .ok (.emb 1) := by decide
theorem test_decode_embi : decode 0b0000000000000000000_00_00010_010101 = .ok (.embi 2) := by decide

/-- One word for each line of 30_encoding.md R158. -/
theorem test_decode_rejects :
    decode 0x00000016 = .error .opcode ∧ decode 0x00002000 = .error .reservedBits ∧
    decode 0x00001808 = .error .tableSelect ∧ decode 0x00000809 = .error .tableNotTaken ∧
    decode 0x00000041 = .error .lengthNotTaken := by decide

theorem test_decodeTableWord : decodeTableWord 32 0x10C8 = some (.nttUsr 3) ∧
    decodeTableWord 32 0x1808 = none := by decide

/-! ### Small states -/

/-- The next state of an outcome. -/
def after : Host.Outcome State Fault Refusal → Option State
  | .next t => some t
  | _ => none

/-- The fault of an outcome. -/
def stopped : Host.Outcome State Fault Refusal → Option Fault
  | .fault f => some f
  | _ => none

theorem next_of_after {o : Host.Outcome State Fault Refusal} (h : (after o).isSome = true) : ∃ t, o = .next t := by
  cases o with
  | next t => exact ⟨t, rfl⟩
  | fault f => cases h
  | refused r => cases h

/-- The error code and ERRINFO of a completion. -/
def errorOf (o : Host.Outcome State Fault Refusal) : Option (ErrCode × Word) :=
  (after o).map fun t => (t.status.errcode, t.errInfo)

/-- What a completion leaves in `n` DMEM entries from `e` on, read as residues and as complex values. -/
def residuesAfter (o : Host.Outcome State Fault Refusal) (e n : Nat) : Option (List Nat) :=
  (after o).bind fun t => (readFrom t.dReadResidue e n).toOption
def cplxAfter (o : Host.Outcome State Fault Refusal) (e n : Nat) : Option (List Cplx) :=
  (after o).bind fun t => (readFrom t.dReadCplx e n).toOption

/-- Bytes from an offset on, and the bytes of words, table entries and entries, least significant first
(20_memory.md R102). A test memory is such pieces joined in rising order. -/
def cellsFrom (a : Nat) : List Byte → Memory
  | [] => []
  | b :: bs => (a, b) :: cellsFrom (a + 1) bs
def bytesOf {w : Nat} (n : Nat) (v : BitVec w) : List Byte := (List.range n).map fun b => v.extractLsb' (8 * b) 8
def wordsAt (a : Nat) (vs : List Word) : Memory := cellsFrom a (vs.flatMap (bytesOf 4))
def tableAt (a : Nat) (vs : List Dword) : Memory := cellsFrom a (vs.flatMap (bytesOf 8))
def entriesFrom (a : Nat) (vs : List Entry) : Memory := cellsFrom a (vs.flatMap (bytesOf 16))

/-- Residues and complex values at a DMEM entry, and CROOT. -/
def residuesIn (e : Nat) (xs : List Nat) : Memory := entriesFrom (0x800000 + 16 * e) (xs.map residueEntry)
def cplxIn (e : Nat) (zs : List Cplx) : Memory := entriesFrom (0x800000 + 16 * e) (zs.map Cplx.toEntry)
def rootsIn (zs : List Cplx) : Memory := entriesFrom 0x400000 (zs.map Cplx.toEntry)

/-- A core that runs the word `w` over `m`: source 8, destination 0, table 16. -/
def running (w : Word) (m : Memory) : State :=
  { State.reset with
    status := { State.reset.status with busy := true }
    latch := { cmd := w, src := 8, dst := 0, tbl := 16, s0 := Staging.reset }
    mem := m }

/-- The modular context of 41_modular.md R250's example (d = 4, a = 17, w = 2) with the tables given. -/
def modularOver (m : Memory) : State :=
  let s := running 0x00000089 m
  { s with actMod := 17, actLogd := 2, bk := 5, mu := 60, status := { s.status with mcfgValid := true } }

/-- Its tables, the input `xs`, and a USR table that holds FWD. -/
def modular (xs : List Nat) : State :=
  modularOver (tableAt 0x100000 [1, 2, 4, 8] ++ tableAt 0x180000 [1, 9, 13, 15] ++
    tableAt 0x200000 [13, 15, 16, 8] ++ residuesIn 8 xs ++ residuesIn 16 [1, 2, 4, 8])

/-- A complex context of length M = 2^logm over a memory. -/
def complexOver (logm : BitVec 5) (m : Memory) : State :=
  let s := running 0x00000054 m
  { s with actLogm := logm, status := { s.status with ccfgValid := true } }

def zero : Dword := 0
def one : Dword := 0x3FF0000000000000
def minusOne : Dword := 0xBFF0000000000000
def two : Dword := 0x4000000000000000
def minusTwo : Dword := 0xC000000000000000

/-- The roots for M = 8 of 95_test_vectors.md V30. -/
def roots8 : List Cplx :=
  [⟨0x3FF0000000000000, 0x0000000000000000⟩, ⟨0x3FE6A09E667F3BCD, 0x3FE6A09E667F3BCC⟩,
   ⟨0x3C91A62633145C07, 0x3FF0000000000000⟩, ⟨0xBFE6A09E667F3BCC, 0x3FE6A09E667F3BCD⟩,
   ⟨0xBFF0000000000000, 0x3CA1A62633145C07⟩, ⟨0xBFE6A09E667F3BCE, 0xBFE6A09E667F3BCC⟩,
   ⟨0xBCAA79394C9E8A0A, 0xBFF0000000000000⟩, ⟨0x3FE6A09E667F3BCB, 0xBFE6A09E667F3BCE⟩,
   ⟨0x3FF0000000000000, 0xBCB1A62633145C07⟩]

/-- 1, 2, 3, 4 as complex values, and the transform of 42_complex.md R301, R302 of them. -/
def oneToFour : List Cplx := [⟨one, zero⟩, ⟨two, zero⟩, ⟨0x4008000000000000, zero⟩, ⟨0x4010000000000000, zero⟩]
def itsTransform : List Cplx :=
  [⟨0x4024000000000000, zero⟩, ⟨minusTwo, minusTwo⟩, ⟨minusTwo, zero⟩, ⟨minusTwo, two⟩]

/-- The M = 8 context of V30 and V31 with the input `zs`, and a table for fft at entry 16 that holds CROOT[0]
and CROOT[2]. -/
def complex8 (zs : List Cplx) : State :=
  complexOver 3 (wordsAt 0x280000 [1, 5] ++ rootsIn roots8 ++ cplxIn 8 zs ++
    cplxIn 16 [⟨one, zero⟩, ⟨0x3C91A62633145C07, one⟩])

/-- A staging record for mcfg and ccfg. -/
def offered (d a w wi di M : Nat) : State :=
  let s := running 0x00000001 []
  { s with latch := { s.latch with s0 :=
      { modulus := BitVec.ofNat 64 a, root := BitVec.ofNat 64 w, rootInv := BitVec.ofNat 64 wi
        dInv := BitVec.ofNat 64 di, degree := BitVec.ofNat 32 d, clen := BitVec.ofNat 32 M } } }

/-! ### One step of each command, against the spec's examples -/

/-- 40_common.md R230, example. -/
theorem test_nop : (after (exec .nop (State.reset.accept 0))).map
    (fun t => (t.status.word, t.irqStatus.word)) = some (0, 1) := by decide +kernel

/-- 41_modular.md R250, example. -/
theorem test_mcfg_tables : (after (exec .mcfg (offered 4 17 2 9 13 0))).bind (fun t =>
    do
      let f ← (readFrom t.fwdAt 0 4).toOption
      let i ← (readFrom t.invAt 0 4).toOption
      let v ← (readFrom t.sinvAt 0 4).toOption
      return (f, i, v, t.actMod, t.actLogd)) =
    some ([1, 2, 4, 8], [1, 9, 13, 15], [13, 15, 16, 8], 17, 2) := by decide +kernel

/-- 41_modular.md R250: with w = 4 it fails with E_ROOT(2). -/
theorem test_mcfg_root_order : errorOf (exec .mcfg (offered 4 17 4 13 13 0)) = some (.root, 2) := by
  decide +kernel

/-- 42_complex.md R300, examples. -/
theorem test_ccfg_rotation_group : (after (exec .ccfg (offered 0 0 0 0 0 32))).bind (fun t =>
    (readFrom t.rotgAt 0 8).toOption) = some [1, 5, 25, 29, 17, 21, 9, 13] := by decide +kernel
theorem test_ccfg_pow2 : errorOf (exec .ccfg (offered 0 0 0 0 0 12)) = some (.pow2, 0) := by decide +kernel

/-- 40_common.md R231: the example's order, and a buffer of two entries, which stays as it is. -/
theorem test_brev_order : brevVec 3 [0, 1, 2, 3, 4, 5, 6, 7] = [0, 4, 2, 6, 1, 5, 3, 7] := by decide +kernel
theorem test_brev : residuesAfter (exec (.brev 2) (running 0 (residuesIn 8 [0, 1, 2, 3]))) 0 4 =
    some [0, 2, 1, 3] := by decide +kernel

/-- 41_modular.md R252, examples; the USR table holds FWD's values, so ntt.usr gives what ntt.fwd gives. -/
theorem test_nttFwd : residuesAfter (exec (.nttFwd 2)
    (modularOver (tableAt 0x100000 [1, 2, 4, 8] ++ residuesIn 8 [1, 2, 3, 4]))) 0 4 = some [10, 7, 15, 6] := by
  decide +kernel
theorem test_nttInv : residuesAfter (exec (.nttInv 2)
    (modularOver (tableAt 0x180000 [1, 9, 13, 15] ++ residuesIn 8 [1, 2, 3, 4]))) 0 4 =
    some [10, 6, 15, 7] := by decide +kernel
theorem test_nttUsr : residuesAfter (exec (.nttUsr 2)
    (modularOver (residuesIn 8 [1, 2, 3, 4] ++ residuesIn 16 [1, 2, 4, 8]))) 0 4 = some [10, 7, 15, 6] := by
  decide +kernel
/-- 60_exceptions.md R402: n differs from d. -/
theorem test_nttFwd_len : errorOf (exec (.nttFwd 1) (modular [1, 2, 3, 4])) = some (.len, 0) := by decide +kernel
/-- 40_common.md R209: element 2 is no residue of 17. -/
theorem test_nttInv_operand : errorOf (exec (.nttInv 2) (modular [1, 2, 17, 4])) = some (.operand, 2) := by
  decide +kernel

/-- 41_modular.md R253 and R254, examples. -/
theorem test_fttf : residuesAfter (exec (.fttf 2)
    (modularOver (tableAt 0x100000 [1, 2, 4, 8] ++ residuesIn 8 [1, 2, 3, 4]))) 0 4 =
    some [15, 13, 11, 16] := by decide +kernel
theorem test_ftti : residuesAfter (exec (.ftti 2)
    (modularOver (tableAt 0x180000 [1, 9, 13, 15] ++ tableAt 0x200000 [13, 15, 16, 8] ++
      residuesIn 8 [15, 13, 11, 16]))) 0 4 = some [1, 2, 3, 4] := by decide +kernel

/-- 42_complex.md R301, example: entries 1 and 3 of the table are unwritten and never read. -/
theorem test_fft : cplxAfter (exec (.fft 2)
    (running 0x90 (cplxIn 8 oneToFour ++ cplxIn 16 [⟨one, zero⟩] ++ cplxIn 18 [⟨zero, one⟩]))) 0 4 =
    some itsTransform := by decide +kernel

/-- 42_complex.md R302 and R303, examples; the roots used are CROOT[0], CROOT[1], and CROOT[3], CROOT[4]. -/
theorem test_fftf : cplxAfter (exec (.fftf 2)
    (complexOver 2 (entriesFrom 0x400000 [Cplx.toEntry ⟨one, zero⟩, Cplx.toEntry ⟨zero, one⟩] ++
      cplxIn 8 oneToFour))) 0 4 = some itsTransform := by decide +kernel
theorem test_ffti : cplxAfter (exec (.ffti 2)
    (complexOver 2 (entriesFrom 0x400030 [Cplx.toEntry ⟨zero, minusOne⟩, Cplx.toEntry ⟨one, zero⟩] ++
      cplxIn 8 itsTransform))) 0 4 = some oneToFour := by decide +kernel

/-- 42_complex.md R304, example. -/
theorem test_chk : errorOf (exec (.chk 2) (complexOver 4 [])) = some (.ok, 0) ∧
    errorOf (exec (.chk 3) (complexOver 4 [])) = some (.len, 0) := by decide +kernel

/-- 95_test_vectors.md V31, rows 3 and 4: emb uses CROOT[1] and embi CROOT[7] of V30. -/
theorem test_emb : cplxAfter (exec (.emb 1)
    (complexOver 3 (wordsAt 0x280000 [1] ++
      entriesFrom 0x400010 [Cplx.toEntry ⟨0x3FE6A09E667F3BCD, 0x3FE6A09E667F3BCC⟩] ++
      cplxIn 8 [⟨one, two⟩, ⟨0x4008000000000000, minusOne⟩]))) 0 2 =
    some [⟨0x400EA09E667F3BCD, 0x400B504F333F9DE6⟩, ⟨0xBFFD413CCCFE779A, 0x3FE2BEC333018868⟩] := by
  decide +kernel
theorem test_embi : cplxAfter (exec (.embi 1)
    (complexOver 3 (wordsAt 0x280000 [1] ++
      entriesFrom 0x400070 [Cplx.toEntry ⟨0x3FE6A09E667F3BCB, 0xBFE6A09E667F3BCE⟩] ++
      cplxIn 8 [⟨0x400EA09E667F3BCD, 0x400B504F333F9DE6⟩, ⟨0xBFFD413CCCFE779A, 0x3FE2BEC333018868⟩]))) 0 2 =
    some [⟨one, two⟩, ⟨0x4008000000000000, 0xBFF0000000000004⟩] := by decide +kernel

/-! ### Sequencer, port and reset -/

/-- 70_reset_and_hazards.md R451: nothing is written after power-on, so brev from reset meets UNINIT_READ
(20_memory.md R120). -/
theorem test_step_from_reset : stopped (step (State.reset.withFetchWord 32 0x3)) = some (.uninitRead 0x800000) := by
  decide +kernel

/-- 40_common.md R201: a CMD write while BUSY = 1 sets OVR and is lost. -/
theorem test_overrun : (after (portWrite 0x010 0x89 (State.reset.accept 0))).map
    (fun t => (t.irqStatus.word, t.readReg .cmd)) = some (4, 0) := by decide +kernel

/-- 10_state.md R34. -/
theorem test_cap : State.reset.readReg .cap = 0x11121110 := by decide +kernel

/-- 20_memory.md R104 and R102: one word of an entry. -/
theorem test_dmem_word : (after (portWrite 0x800004 0x12345678 State.reset)).map (fun t => t.mem) =
    some [(0x800004, 0x78), (0x800005, 0x56), (0x800006, 0x34), (0x800007, 0x12)] := by decide +kernel

/-- 70_reset_and_hazards.md R453: the output buffer of an aborted brev is unwritten, its input is kept. -/
theorem test_abort : (running 0x3 (residuesIn 0 [6] ++ residuesIn 8 [5])).softReset.mem =
    residuesIn 8 [5] := by decide +kernel

/-! ### Hypotheses that can be met

One theorem or more for each statement that has hypotheses, at a boundary where a clause has one. -/

theorem residuesAt_of_read {s : State} {a base : Nat} {xs : List Nat}
    (h : checkResidues s.dReadResidue a 0 base 0 xs.length = .ok xs) : residuesAt s base a xs :=
  fun j v hv => (checkResidues_ok.1 h).2 j v hv

theorem cplxAt_of_read {s : State} {base : Nat} {zs : List Cplx}
    (h : readFrom s.dReadCplx base zs.length = .ok zs) : cplxAt s base zs :=
  fun j v hv => (readFrom_ok.1 h).2 j v hv

theorem entriesAt_of_read {s : State} {base : Nat} {vs : List Entry}
    (h : readFrom s.dRead base vs.length = .ok vs) : entriesAt s base vs :=
  fun j v hv => (readFrom_ok.1 h).2 j v hv

theorem witness_DecodeOfEncode : (Instr.embi 31).wellFormed = true ∧ (Instr.nttUsr 0).wellFormed = true := by
  decide

/-- A word of each line, at the edges of its range, and an idle and a running core for them. -/
theorem witness_IllegalWords :
    listedIllegal 0x04 ∧ listedIllegal 0x07 ∧ listedIllegal 0x0B ∧ listedIllegal 0x0F ∧ listedIllegal 0x16 ∧
    listedIllegal 0x3F ∧ listedIllegal 0x2000 ∧ listedIllegal 0x80000003 ∧ listedIllegal 0x1808 ∧
    listedIllegal 0x1803 ∧ listedIllegal 0x0810 ∧ listedIllegal 0x0040 ∧ listedIllegal 0x07C2 ∧
    State.reset.rstN = true ∧ State.reset.status.busy = false ∧
    listedIllegal (State.reset.accept 0x41).latch.cmd := by
  refine ⟨?_, ?_, ?_, ?_, ?_, ?_, ?_, ?_, ?_, ?_, ?_, ?_, ?_, rfl, rfl, ?_⟩ <;> unfold listedIllegal <;> decide

theorem witness_StepRuns :
    ((State.reset.accept 0).inbox = [] ∧ (State.reset.accept 0).status.busy = true ∧
      decode (State.reset.accept 0).latch.cmd = .ok .nop) ∧
    (∃ s : State, s.inbox = [.sequencer] ∧ s.status.busy = true ∧ decode s.latch.cmd = .ok .nop) ∧
    (State.reset.inbox = [] ∧ State.reset.status.busy = false) ∧
    ∃ s : State, s.inbox = [.access (.read 0x14 .word)] :=
  ⟨by decide, ⟨{ State.reset.accept 0 with inbox := [.sequencer] }, by decide⟩, by decide,
    ⟨{ State.reset with inbox := [.access (.read 0x14 .word)] }, rfl⟩⟩

theorem witness_CommandWrites :
    (State.reset.rstN = true ∧ State.reset.status.busy = false) ∧
    (State.reset.accept 0).rstN = true ∧ (State.reset.accept 0).status.busy = true := by decide

/-- ntt.fwd without a context, and an illegal word. -/
theorem witness_ErrorCompletion :
    ((State.reset.accept 0x8).status.err = false ∧ decode (State.reset.accept 0x8).latch.cmd = .ok (.nttFwd 0) ∧
      (after (completion (State.reset.accept 0x8))).map (fun t => t.status.err) = some true) ∧
    (State.reset.accept 0x41).status.err = false ∧
      decode (State.reset.accept 0x41).latch.cmd = .error .lengthNotTaken ∧
      (after (completion (State.reset.accept 0x41))).map (fun t => t.status.err) = some true := by decide +kernel

/-- A success and an error. -/
theorem witness_BufferCommandFrame :
    Instr.fttf 2 ∈ bufferCommands 2 ∧ errorOf (exec (.fttf 2) (modular [1, 2, 3, 4])) = some (.ok, 0) ∧
    Instr.fttf 1 ∈ bufferCommands 1 ∧ errorOf (exec (.fttf 1) (modular [1, 2, 3, 4])) = some (.len, 0) := by
  decide +kernel

theorem witness_ConfigurationFrame :
    errorOf (exec .mcfg (offered 1 3 2 2 1 0)) = some (.ok, 0) ∧
    errorOf (exec .mcfg (offered 0 3 2 2 1 0)) = some (.pow2, 0) ∧
    errorOf (exec .ccfg (offered 0 0 0 0 0 4)) = some (.ok, 0) ∧
    errorOf (exec .ccfg (offered 0 0 0 0 0 2)) = some (.limit, 0) := by decide +kernel

theorem numbersAt_of_read {s : State} {base : Nat} {xs : List Nat}
    (h : readFrom s.dReadResidue base xs.length = .ok xs) : numbersAt s base xs :=
  fun j v hv => (readFrom_ok.1 h).2 j v hv

theorem firstNonResidue_of {a : Nat} {x : List Nat} {j : Nat}
    (h : (x[j]?.any fun v => a ≤ v) = true ∧ ∀ l < j, (x[l]?.any fun v => v < a) = true) :
    firstNonResidue a x j := by
  have key : ∀ {o : Option Nat} {p : Nat → Prop} [DecidablePred p], (o.any fun v => p v) = true →
      ∃ v, o = some v ∧ p v := by
    intro o p _ ho
    cases o with
    | none => cases ho
    | some v => exact ⟨v, rfl, by simpa using ho⟩
  exact ⟨key h.1, fun l hl => key (h.2 l hl)⟩

/-- The first check and the last one of mcfg; an illegal word. -/
theorem witness_ChecksRunInTheListedOrder :
    firstFailing (checkList (offered 0 0 0 0 0 0) .mcfg) = some (.pow2, 0) ∧
    firstFailing (checkList (offered 4 17 2 9 12 0) .mcfg) = some (.inv, 3) ∧
    decode (State.reset.accept 0x41).latch.cmd = .error .lengthNotTaken := by decide +kernel

/-- The first element no residue, and the last one. -/
theorem witness_ChecksRunInTheListedOrder_input :
    let s := modular [17, 2, 3, 4]
    let r := modular [1, 2, 3, 17]
    (Instr.ftti 2 ∈ modularCommands 2 ∧ checksPass s (.ftti 2) ∧
      numbersAt s s.latch.src.toNat [17, 2, 3, 4] ∧ firstNonResidue s.ctxMod [17, 2, 3, 4] 0) ∧
    checksPass r (.nttUsr 2) ∧ numbersAt r r.latch.src.toNat [1, 2, 3, 17] ∧
      firstNonResidue r.ctxMod [1, 2, 3, 17] 3 :=
  ⟨⟨by decide, by decide +kernel, numbersAt_of_read (by decide +kernel), firstNonResidue_of (by decide +kernel)⟩,
    by decide +kernel, numbersAt_of_read (by decide +kernel), firstNonResidue_of (by decide +kernel)⟩

theorem witness_ChecksRunInTheListedOrder_table :
    let s := modularOver (residuesIn 8 [1, 2, 3, 4] ++ residuesIn 16 [1, 17, 1, 1])
    checksPass s (.nttUsr 2) ∧ residuesAt s s.latch.src.toNat s.ctxMod [1, 2, 3, 4] ∧
      numbersAt s s.latch.tbl.toNat [1, 17, 1, 1] ∧ firstNonResidue s.ctxMod [1, 17, 1, 1] 1 :=
  ⟨by decide +kernel, residuesAt_of_read (by decide +kernel), numbersAt_of_read (by decide +kernel),
    firstNonResidue_of (by decide +kernel)⟩

theorem witness_NopAndChk : (complexOver 4 []).params = Config.defaults ∧
    (complexOver 4 []).status.ccfgValid = true ∧ (complexOver 4 []).actLogm = 4 := by
  decide +kernel

theorem witness_BitReversal : 0 < 2 ^ 0 ∧ 5 < 2 ^ 3 ∧ 1 < 3 ∧ ([1, 2, 3, 4] : List Nat).length = 2 ^ 2 := by decide

/-- In place, and through another buffer. -/
theorem witness_BrevTwiceRestores :
    let s := running 0x83 (residuesIn 8 [1, 2, 3, 4])
    let r := { s with latch := { s.latch with dst := 8 } }
    let x := [residueEntry 1, residueEntry 2, residueEntry 3, residueEntry 4]
    (checksPass s (.brev 2) ∧ entriesAt s s.latch.src.toNat x ∧
      checksPass { s with latch := { s.latch with src := s.latch.dst, dst := 12 } } (.brev 2)) ∧
    (checksPass r (.brev 2) ∧ entriesAt r r.latch.src.toNat x ∧
      checksPass { r with latch := { r.latch with src := r.latch.dst, dst := 8 } } (.brev 2) ∧ r.mem.wf ∧
      r.latch.src = r.latch.dst) :=
  ⟨⟨by decide +kernel, entriesAt_of_read (by decide +kernel), by decide +kernel⟩,
    by decide +kernel, entriesAt_of_read (by decide +kernel), by decide +kernel, by decide +kernel, rfl⟩

theorem witness_BrevPermutes :
    let s := running 0x3 (residuesIn 8 [7])
    checksPass s (.brev 0) ∧ entriesAt s s.latch.src.toNat [residueEntry 7] :=
  ⟨by decide +kernel, entriesAt_of_read (by decide +kernel)⟩

/-- d = 1 and d = 4. -/
theorem witness_McfgBuildsTheTables :
    (offered 4 17 2 9 13 0).params.wf ∧ checksPass (offered 4 17 2 9 13 0) .mcfg ∧
    checksPass (offered 1 3 2 2 1 0) .mcfg := by decide +kernel

/-- M not a power of two, M = 2 and M = 2^18 beyond the limits, M = 4 and M = 2^17 at them. -/
theorem witness_CcfgBuildsTheRotationGroup :
    (offered 0 0 0 0 0 12).params.wf ∧ (∀ e, (12 : Nat) ≠ 2 ^ e) ∧ (2 = 2 ^ 1 ∧ 2 < 4) ∧
    (262144 = 2 ^ 18 ∧ 2 ^ (offered 0 0 0 0 0 0).params.logmMax < 262144) ∧
    (4 = 2 ^ 2 ∧ 4 ≤ 2 ^ (offered 0 0 0 0 0 0).params.logmMax) ∧
    131072 = 2 ^ 17 ∧ 131072 ≤ 2 ^ (offered 0 0 0 0 0 0).params.logmMax := by
  refine ⟨by decide, fun e h => ?_, by decide, by decide, by decide, by decide, by decide⟩
  rcases Nat.lt_or_ge e 4 with h4 | h4
  · interval_cases e <;> omega
  · have := Nat.pow_le_pow_right (show 0 < 2 by decide) h4
    omega

theorem witness_NttWritesTheTransform :
    let s := modular [1, 2, 3, 4]
    checksPass s (.nttFwd 2) ∧ checksPass s (.nttInv 2) ∧ checksPass s (.nttUsr 2) ∧
      residuesAt s s.latch.src.toNat s.ctxMod [1, 2, 3, 4] ∧
      residuesAt s s.latch.tbl.toNat s.ctxMod [1, 2, 4, 8] ∧
      (∀ j, 2 * j + 2 ≤ 2 ^ 2 → s.fwdAt (2 * j) = .ok (2 ^ (2 * j) % 17)) ∧
      ∀ j, 2 * j + 2 ≤ 2 ^ 2 → s.invAt (2 * j) = .ok (9 ^ (2 * j) % 17) := by
  have H : ∀ j < 2, (modular [1, 2, 3, 4]).fwdAt (2 * j) = .ok (2 ^ (2 * j) % 17) ∧
      (modular [1, 2, 3, 4]).invAt (2 * j) = .ok (9 ^ (2 * j) % 17) := by decide +kernel
  exact ⟨by decide +kernel, by decide +kernel, by decide +kernel, residuesAt_of_read (by decide +kernel),
    residuesAt_of_read (by decide +kernel), fun j h => (H j (by omega)).1, fun j h => (H j (by omega)).2⟩

theorem witness_FttWritesTheTwistedTransform :
    let s := modular [1, 2, 3, 4]
    checksPass s (.fttf 2) ∧ checksPass s (.ftti 2) ∧ residuesAt s s.latch.src.toNat s.ctxMod [1, 2, 3, 4] ∧
      (∀ j, j < 2 ^ 2 → s.fwdAt j = .ok (2 ^ j % 17)) ∧
      (∀ j, 2 * j + 2 ≤ 2 ^ 2 → s.invAt (2 * j) = .ok (9 ^ (2 * j) % 17)) ∧
      ∀ j, j < 2 ^ 2 → s.sinvAt j = .ok (13 * 9 ^ j % 17) :=
  ⟨by decide +kernel, by decide +kernel, residuesAt_of_read (by decide +kernel), by decide +kernel,
    witness_NttWritesTheTransform.2.2.2.2.2.2, by decide +kernel⟩

theorem witness_Stages : 0 < 1 ∧ ([3] : List Nat).length = 2 ^ 0 ∧ ([1, 2, 3, 4] : List Nat).length = 2 ^ 2 ∧
    1 ≤ 1 ∧ 2 ≤ 2 ∧ 1 < 2 ^ (2 - 1) ∧ 1 < 2 ^ (2 - 1) := by decide

/-- The first and the last pair of the last stage; the last even index. -/
theorem witness_TwiddleIndex : (1 ≤ 3 ∧ 3 ≤ 3 ∧ 0 < 2 ^ (3 - 1) ∧ 3 < 2 ^ (3 - 1)) ∧ 1 ≤ 3 ∧ 2 * 3 ≤ 2 ^ 3 - 2 := by
  decide

/-- n = 1 (w = -1) and n = 4. -/
theorem witness_CyclicTransform :
    (2 ≤ 3 ∧ 2 ^ 2 ^ 0 % 3 = 3 - 1 ∧ [2].length = 2 ^ 0 ∧ ∀ v ∈ [2], v < 3) ∧
    (2 ≤ 17 ∧ 2 ^ 2 ^ 2 % 17 = 17 - 1 ∧ [1, 2, 3, 16].length = 2 ^ 2 ∧ ∀ v ∈ [1, 2, 3, 16], v < 17) ∧
    2 * 9 % 17 = 1 ∧ 2 ^ 2 % 17 * 13 % 17 = 1 := by decide

theorem witness_FttRoundTrip :
    let s := modular [1, 2, 3, 4]
    s.params.wf ∧ s.modularTables 2 9 13 ∧ checksPass s (.fttf 2) ∧
      residuesAt s s.latch.src.toNat s.ctxMod [1, 2, 3, 4] ∧
      checksPass { s with latch := { s.latch with src := s.latch.dst, dst := 8 } } (.ftti 2) := by
  refine ⟨by decide, ?_, by decide +kernel, residuesAt_of_read (by decide +kernel), by decide +kernel⟩
  refine ⟨by decide, by decide, by decide, by decide, by decide, by decide, by decide, by decide, by decide, ?_,
    by decide, by decide⟩
  have H : ∀ i < 4, (modular [1, 2, 3, 4]).fwdAt i = .ok (2 ^ i % 17) ∧
      (modular [1, 2, 3, 4]).invAt i = .ok (9 ^ i % 17) ∧
      (modular [1, 2, 3, 4]).sinvAt i = .ok (13 * 9 ^ i % 17) := by decide +kernel
  exact fun i h => H i h

theorem witness_NegacyclicConvolution_prime :
    Nat.Prime 17 ∧ 2 ^ (2 * 4) % 17 = 1 ∧ 2 ^ 4 % 17 ≠ 1 := by norm_num

theorem witness_NegacyclicConvolution : 2 ≤ 17 ∧ 2 ^ 2 ^ 2 % 17 = 17 - 1 ∧ 2 * 9 % 17 = 1 ∧
    2 ^ 2 % 17 * 13 % 17 = 1 ∧ [1, 2, 3, 4].length = 2 ^ 2 ∧ ∀ v ∈ [1, 2, 3, 4], v < 17 := by decide

theorem witness_Arithmetic : (2 ≤ 2 ∧ 0 < 2 ∧ 1 < 2) ∧ 2 ≤ 2 ^ 64 - 1 ∧ 2 ^ 64 - 1 < 2 ^ 64 ∧
    2 ^ 64 - 2 < 2 ^ 64 - 1 := by decide

theorem unpack_one : unpack one = .fin false (2 ^ 52) (-52) := by decide +kernel
theorem valueOf_one : valueOf one = 1 := by norm_num [valueOf, unpack_one, Exact.toRat]

/-- Below the overflow threshold, and at it. -/
theorem witness_Rounding :
    |(Exact.fin false 1 0).toRat| < 2 ^ 1024 - 2 ^ 970 ∧ finite one = true ∧
    2 ^ 1024 - 2 ^ 970 ≤ |(Exact.fin true (2 ^ 54 - 1) 970).toRat| := by
  have h : (2 : ℚ) ^ 1024 = 2 ^ 970 * 2 ^ 54 := by rw [← pow_add]
  have p : (1 : ℚ) ≤ 2 ^ 970 := one_le_pow₀ (by norm_num)
  have e : (2 : ℚ) ^ (970 : Int) = 2 ^ 970 := zpow_ofNat 2 970
  refine ⟨?_, by decide +kernel, ?_⟩
  · rw [h]
    generalize (2 : ℚ) ^ 970 = x at p ⊢
    norm_num [Exact.toRat]
    linarith
  · rw [h]
    simp only [Exact.toRat, e, abs_mul, abs_of_nonneg (zero_le_one.trans p)]
    generalize (2 : ℚ) ^ 970 = x at p ⊢
    norm_num
    linarith

/-- A normal number, a subnormal, zero, infinity and a signalling NaN. -/
theorem witness_Patterns :
    finite one = true ∧ valueOf one ≠ 0 ∧ (one.extractLsb' 52 11).toNat ≠ 2047 ∧ (one.extractLsb' 52 11).toNat ≠ 0 ∧
    ((1 : Dword).extractLsb' 52 11).toNat = 0 ∧ ¬isNaN plusInf ∧ isNaN 0x7FF0000000000001 := by
  refine ⟨by decide +kernel, by rw [valueOf_one]; norm_num, by decide +kernel, by decide +kernel, by decide +kernel,
    ?_, ?_⟩ <;> unfold isNaN <;> decide +kernel

theorem witness_ZerosAndInfinities :
    finite zero = true ∧ finite minusZero = true ∧ valueOf zero = 0 ∧ valueOf zero + valueOf minusZero = 0 ∧
    valueOf zero * valueOf minusZero = 0 := by
  have h : unpack zero = .fin false 0 (-1074) := by decide +kernel
  have g : unpack minusZero = .fin true 0 (-1074) := by decide +kernel
  refine ⟨by decide +kernel, by decide +kernel, ?_⟩
  simp [valueOf, h, g, Exact.toRat]

theorem witness_NaNsAreCanonical_oneEntry :
    let s := complex8 [⟨0x7FF0000000000001, one⟩]
    let r := complexOver 2 (cplxIn 8 [⟨one, zero⟩])
    checksPass s (.brev 0) ∧ checksPass s (.fft 0) ∧ checksPass s (.fftf 0) ∧
    s.dRead s.latch.src.toNat = .ok (Cplx.toEntry ⟨0x7FF0000000000001, one⟩) ∧
    checksPass r (.emb 0) ∧ r.dRead r.latch.src.toNat = .ok (Cplx.toEntry ⟨one, zero⟩) := by decide +kernel

theorem witness_NaNsAreCanonical_operations :
    fadd plusInf minusInf = canonicalNaN ∧ isNaN canonicalNaN ∧ isNaN 0xFFF8000000000001 := by
  unfold isNaN; decide +kernel

theorem witness_Scaling : finite one = true ∧ (2 : ℚ) ^ (-1022 : Int) ≤ |valueOf one| / 2 ^ 31 := by
  rw [valueOf_one]
  refine ⟨by decide +kernel, ?_⟩
  have h : (2 : ℚ) ^ (-1022 : Int) ≤ 2 ^ (-31 : Int) := zpow_le_zpow_right₀ (by norm_num) (by norm_num)
  refine h.trans (le_of_eq ?_)
  norm_num

theorem witness_FftWritesTheStages :
    let s := complex8 [⟨one, two⟩, ⟨two, one⟩]
    checksPass s (.fft 1) ∧ cplxAt s s.latch.src.toNat [⟨one, two⟩, ⟨two, one⟩] ∧
      ∀ j, 2 * j + 2 ≤ 2 ^ 1 → s.dReadCplx (s.latch.tbl.toNat + 2 * j) = .ok ⟨one, zero⟩ := by
  refine ⟨by decide +kernel, cplxAt_of_read (by decide +kernel), fun j h => ?_⟩
  obtain rfl : j = 0 := by omega
  decide +kernel

theorem only_pair {st j : Nat} (h1 : 1 ≤ st) (h2 : st ≤ 1) (h3 : j < 2 ^ (st - 1)) : st = 1 ∧ j = 0 := by
  obtain rfl : st = 1 := by omega
  exact ⟨rfl, by simpa using h3⟩

theorem witness_FftfAndFfti :
    let s := complex8 [⟨one, two⟩, ⟨two, one⟩]
    checksPass s (.fftf 1) ∧ checksPass s (.ffti 1) ∧ cplxAt s s.latch.src.toNat [⟨one, two⟩, ⟨two, one⟩] ∧
    (∀ st j, 1 ≤ st → st ≤ 1 → j < 2 ^ (st - 1) →
      s.crootAt (j * (s.ctxLen / 2 ^ st)) = .ok (roots8.getD (j * (s.ctxLen / 2 ^ st)) ⟨0, 0⟩)) ∧
    ∀ st j, 1 ≤ st → st ≤ 1 → j < 2 ^ (st - 1) →
      s.crootAt ((2 ^ st - j) * (s.ctxLen / 2 ^ st)) =
        .ok (roots8.getD ((2 ^ st - j) * (s.ctxLen / 2 ^ st)) ⟨0, 0⟩) := by
  refine ⟨by decide +kernel, by decide +kernel, cplxAt_of_read (by decide +kernel), fun st j h1 h2 h3 => ?_,
    fun st j h1 h2 h3 => ?_⟩ <;> obtain ⟨rfl, rfl⟩ := only_pair h1 h2 h3 <;> decide +kernel

theorem witness_EmbAndEmbi :
    let s := complex8 [⟨one, two⟩, ⟨two, one⟩]
    s.complexContext ∧ checksPass s (.emb 1) ∧ checksPass s (.embi 1) ∧
    cplxAt s s.latch.src.toNat [⟨one, two⟩, ⟨two, one⟩] ∧
    (∀ st j, 1 ≤ st → st ≤ 1 → j < 2 ^ (st - 1) →
      s.crootAt (5 ^ j % s.ctxLen % (4 * 2 ^ st) * (s.ctxLen / (4 * 2 ^ st))) =
        .ok (roots8.getD (5 ^ j % s.ctxLen % (4 * 2 ^ st) * (s.ctxLen / (4 * 2 ^ st))) ⟨0, 0⟩)) ∧
    ∀ st j, 1 ≤ st → st ≤ 1 → j < 2 ^ (st - 1) →
      s.crootAt ((4 * 2 ^ st - 5 ^ j % s.ctxLen % (4 * 2 ^ st)) * (s.ctxLen / (4 * 2 ^ st))) =
        .ok (roots8.getD ((4 * 2 ^ st - 5 ^ j % s.ctxLen % (4 * 2 ^ st)) * (s.ctxLen / (4 * 2 ^ st))) ⟨0, 0⟩) := by
  refine ⟨fun _ => ⟨by decide, by decide, ?_⟩, by decide +kernel, by decide +kernel,
    cplxAt_of_read (by decide +kernel), fun st j h1 h2 h3 => ?_, fun st j h1 h2 h3 => ?_⟩
  · have H : ∀ j < 2, (complex8 [⟨one, two⟩, ⟨two, one⟩]).rotgAt j = .ok (5 ^ j % 8) := by decide +kernel
    exact fun j h => H j h
  · obtain ⟨rfl, rfl⟩ := only_pair h1 h2 h3
    decide +kernel
  · obtain ⟨rfl, rfl⟩ := only_pair h1 h2 h3
    decide +kernel

theorem witness_RootIndices : (1 ≤ 3 ∧ 3 ≤ 3 ∧ 3 < 2 ^ (3 - 1) ∧ 0 < 2 ^ (1 - 1)) ∧ 1 ≤ 1 ∧ 1 ≤ 1 ∧ 5 % 2 = 1 := by
  decide

theorem witness_FftAgreesWithFftf :
    let s := complex8 [⟨one, two⟩, ⟨two, one⟩]
    checksPass s (.fft 1) ∧ checksPass s (.fftf 1) ∧ 2 * 2 ^ 1 ≤ s.ctxLen ∧
      ∀ j, j < 2 ^ 1 → ∃ v, s.dReadCplx (s.latch.tbl.toNat + j) = .ok v ∧
        s.crootAt (j * (s.ctxLen / (2 * 2 ^ 1))) = .ok v := by
  refine ⟨by decide +kernel, by decide +kernel, by decide +kernel, fun j h => ?_⟩
  have H : ∀ j < 2, (complex8 [⟨one, two⟩, ⟨two, one⟩]).dReadCplx (16 + j) = .ok (roots8.getD (2 * j) ⟨0, 0⟩) ∧
      (complex8 [⟨one, two⟩, ⟨two, one⟩]).crootAt (j * 2) = .ok (roots8.getD (2 * j) ⟨0, 0⟩) := by decide +kernel
  exact ⟨_, H j h⟩

/-- Each of the five cases at an edge of its range, and an access in none of them. -/
theorem witness_ErrorResponse :
    let s := State.reset
    let b := State.reset.accept 0
    s.params.wf ∧ s.rstN = true ∧ b.rstN = true ∧ errorCase s (.read 0x000002 .word) ∧
    errorCase s (.write 0x000000 .half 0 0x3) ∧ errorCase s (.write 0x800000 .word 0 0x7) ∧
    errorCase s (.read 0x001000 .word) ∧ errorCase s (.read 0x3FFFFC .word) ∧
    errorCase s (.read 0x600010 .word) ∧ errorCase s (.read 0xC00000 .word) ∧
    errorCase s (.write 0x100000 .word 0 0xF) ∧ errorCase b (.read 0x800000 .word) ∧
    ¬errorCase s (.read 0x60000C .word) ∧ ¬errorCase s (.write 0xBFFFFC .word 0 0xF) ∧
    ¬errorCase b (.read 0x000FFC .word) := by
  refine ⟨by decide, rfl, rfl, ?_, ?_, ?_, ?_, ?_, ?_, ?_, ?_, ?_, ?_, ?_, ?_⟩ <;>
    simp only [errorCase, wholeWord, beyondEntries, isWrite, offsetOf] <;> decide +kernel

theorem witness_Reads :
    (after (serve (.read 0x14 .word) State.reset)).isSome = true ∧
    (after (serve (.write 0x800000 .word 7 0xF) State.reset)).isSome = true ∧
    ¬isCommandOrReset (.write 0x800000 .word 7 0xF) := by
  unfold isCommandOrReset isWrite offsetOf; decide +kernel

/-- The first and the last entry of both data windows, and the edges of the tables. -/
theorem witness_MemoryWindows :
    State.reset.params.wf ∧ State.reset.rstN = true ∧ State.reset.status.busy = false ∧ 3 < 4 ∧
    (0x800000 = 0x800000 + 16 * 0 ∧ 0 < 2 ^ State.reset.params.dmemLogw) ∧
    262143 < 2 ^ State.reset.params.dmemLogw ∧ 131072 ≤ 2 ^ State.reset.params.logmMax ∧
    65535 < 2 ^ State.reset.params.logdMax ∧ 32767 < 2 ^ (State.reset.params.logmMax - 2) := by decide

theorem witness_MemoryWindows_written :
    let s := { modular [1, 2, 3, 4] with status := State.reset.status
                                         mem := tableAt 0x200000 [13, 15, 16, 8] ++ wordsAt 0x280000 [1] ++ residuesIn 8 [1, 2, 3, 4] }
    s.params.wf ∧ s.rstN = true ∧ s.status.busy = false ∧
    s.loadEntry (0x800000 + 16 * 11) = .ok (residueEntry 4) ∧ s.loadDword (0x200000 + 8 * 3) = .ok 8 ∧
    s.loadWord (0x280000 + 4 * 0) = .ok 1 := by decide +kernel

/-- An entry of which words 0 and 3 are written and words 1 and 2 are not, and one word of a table entry. -/
theorem witness_MemoryWindows_partlyWritten :
    let s := { State.reset with
               mem := wordsAt 0x180004 [9] ++ wordsAt 0x400000 [7] ++ wordsAt 0x40000C [5] ++ wordsAt 0xBFFFFC [3] }
    s.params.wf ∧ s.rstN = true ∧ s.status.busy = false ∧
    s.mem.readWord (0x400000 + 16 * 0 + 4 * 0) = some 7 ∧ s.mem.readWord (0x400000 + 16 * 0 + 4 * 3) = some 5 ∧
    s.mem.readWord (0x800000 + 16 * 262143 + 4 * 3) = some 3 ∧ s.mem.readWord (0x180000 + 8 * 0 + 4 * 1) = some 9 ∧
    (s.loadEntry (0x400000 + 16 * 0)).toOption = none := by decide +kernel

theorem witness_UnwrittenWords :
    let s := running 0x3 ([] : Memory)
    let r := modular [1, 2, 3]
    (State.reset.status.busy = false ∧ (0x400000 : Nat) < 2 ^ 24 ∧ 0x400000 % 4 = 0 ∧
      windowOf State.reset.params 0x400000 = .readWrite ∧ State.reset.mem.readWord 0x400000 = none) ∧
    (Instr.brev 0 ∈ wholeEntryCommands 0 ∧ checksPass s (.brev 0) ∧
      s.mem.readWord (0x800000 + 16 * (s.latch.src.toNat + 0) + 4 * 3) = none) ∧
    (Instr.fttf 2 ∈ modularCommands 2 ∧ checksPass r (.fttf 2) ∧
      r.mem.readWord (0x800000 + 16 * (r.latch.src.toNat + 3) + 4 * 1) = none) ∧
    residuesAt r r.latch.src.toNat r.ctxMod [1, 2, 3] :=
  ⟨by decide +kernel, by decide +kernel, by decide +kernel, residuesAt_of_read (by decide +kernel)⟩

/-- The table of ntt.usr: its first entry unwritten, and its last one after residues. -/
theorem witness_UnwrittenWords_usrTable :
    let s := modularOver (residuesIn 8 [1, 2, 3, 4] ++ residuesIn 16 [1, 2, 4])
    let r := modularOver (residuesIn 8 [1, 2, 3, 4])
    (checksPass s (.nttUsr 2) ∧ residuesAt s s.latch.src.toNat s.ctxMod [1, 2, 3, 4] ∧
      residuesAt s s.latch.tbl.toNat s.ctxMod [1, 2, 4] ∧
      s.mem.readWord (0x800000 + 16 * (s.latch.tbl.toNat + 3) + 4 * 1) = none) ∧
    checksPass r (.nttUsr 2) ∧ residuesAt r r.latch.src.toNat r.ctxMod [1, 2, 3, 4] ∧
      residuesAt r r.latch.tbl.toNat r.ctxMod [] ∧
      r.mem.readWord (0x800000 + 16 * (r.latch.tbl.toNat + 0) + 4 * 0) = none :=
  ⟨⟨by decide +kernel, residuesAt_of_read (by decide +kernel), residuesAt_of_read (by decide +kernel),
    by decide +kernel⟩, by decide +kernel, residuesAt_of_read (by decide +kernel), fun j v h => by simp at h,
    by decide +kernel⟩

/-- The last entry each modular command reads of a table: FWD[2] and FWD[3], INV[2], SINV[3]; no run reaches
such a state (10_state.md R62). -/
theorem witness_UnwrittenWords_modularTables :
    let s := modularOver (tableAt 0x100000 [1, 2] ++ tableAt 0x180000 [1, 9] ++ tableAt 0x200000 [13, 15, 16] ++
      residuesIn 8 [1, 2, 3, 4])
    checksPass s (.nttFwd 2) ∧ checksPass s (.nttInv 2) ∧ checksPass s (.fttf 2) ∧ checksPass s (.ftti 2) ∧
    residuesAt s s.latch.src.toNat s.ctxMod [1, 2, 3, 4] ∧
    (readsTableWord s 0x100010 (.nttFwd 2) ∧ s.mem.readWord 0x100010 = none) ∧
    (readsTableWord s 0x180014 (.nttInv 2) ∧ s.mem.readWord 0x180014 = none) ∧
    (readsTableWord s 0x10001C (.fttf 2) ∧ s.mem.readWord 0x10001C = none) ∧
    (readsTableWord s 0x180010 (.ftti 2) ∧ s.mem.readWord 0x180010 = none) ∧
    readsTableWord s 0x20001C (.ftti 2) ∧ s.mem.readWord 0x20001C = none :=
  ⟨by decide +kernel, by decide +kernel, by decide +kernel, by decide +kernel,
    residuesAt_of_read (by decide +kernel),
    ⟨⟨1, 0, by decide, by decide, by decide⟩, by decide +kernel⟩,
    ⟨⟨1, 1, by decide, by decide, by decide⟩, by decide +kernel⟩,
    ⟨⟨3, 1, by decide, by decide, by decide⟩, by decide +kernel⟩,
    ⟨.inl ⟨1, 0, by decide, by decide, by decide⟩, by decide +kernel⟩,
    .inr ⟨3, 1, by decide, by decide, by decide⟩, by decide +kernel⟩

/-- M = 8 with ROTG[0] and the input written, and nothing else: fft's entry 16, CROOT[0] for fftf, CROOT[8] for
ffti, CROOT[1] for emb, CROOT[7] for embi; and the same without ROTG[0]. -/
theorem witness_UnwrittenWords_complexTables :
    let s := complexOver 3 (wordsAt 0x280000 [1] ++ cplxIn 8 [⟨one, two⟩, ⟨two, one⟩])
    let r := complexOver 3 (cplxIn 8 [⟨one, two⟩, ⟨two, one⟩])
    checksPass s (.fft 1) ∧ checksPass s (.fftf 1) ∧ checksPass s (.ffti 1) ∧ checksPass s (.emb 1) ∧
    checksPass s (.embi 1) ∧ checksPass r (.emb 1) ∧ checksPass r (.embi 1) ∧
    (readsTableWord s 0x80010C (.fft 1) ∧ s.mem.readWord 0x80010C = none) ∧
    (readsTableWord s 0x400000 (.fftf 1) ∧ s.mem.readWord 0x400000 = none) ∧
    (readsTableWord s 0x40008C (.ffti 1) ∧ s.mem.readWord 0x40008C = none) ∧
    (readsTableWord s 0x400010 (.emb 1) ∧ s.mem.readWord 0x400010 = none) ∧
    (readsTableWord s 0x40007C (.embi 1) ∧ s.mem.readWord 0x40007C = none) ∧
    (readsTableWord r 0x280000 (.emb 1) ∧ readsTableWord r 0x280000 (.embi 1) ∧ r.mem.readWord 0x280000 = none) :=
  ⟨by decide +kernel, by decide +kernel, by decide +kernel, by decide +kernel, by decide +kernel,
    by decide +kernel, by decide +kernel,
    ⟨⟨0, 3, by decide, by decide, by decide +kernel⟩, by decide +kernel⟩,
    ⟨⟨1, 0, 0, by decide, by decide, by decide, by decide, by decide +kernel⟩, by decide +kernel⟩,
    ⟨⟨1, 0, 3, by decide, by decide, by decide, by decide, by decide +kernel⟩, by decide +kernel⟩,
    ⟨⟨1, 0, by decide, by decide, by decide, .inr ⟨1, 0, by decide +kernel, by decide, by decide +kernel⟩⟩,
      by decide +kernel⟩,
    ⟨⟨1, 0, by decide, by decide, by decide, .inr ⟨1, 3, by decide +kernel, by decide, by decide +kernel⟩⟩,
      by decide +kernel⟩,
    ⟨1, 0, by decide, by decide, by decide, .inl rfl⟩, ⟨1, 0, by decide, by decide, by decide, .inl rfl⟩,
    by decide +kernel⟩

/-- On those states the commands fault at the word named (20_memory.md R120, 70_reset_and_hazards.md R454). -/
theorem test_unwritten_tables_fault :
    let s := complexOver 3 (wordsAt 0x280000 [1] ++ cplxIn 8 [⟨one, two⟩, ⟨two, one⟩])
    [exec (.fft 1) s, exec (.fftf 1) s, exec (.ffti 1) s, exec (.emb 1) s, exec (.embi 1) s].map stopped =
      [0x800100, 0x400000, 0x400080, 0x400010, 0x400070].map fun a => some (.uninitRead a) := by
  decide +kernel

theorem witness_Registers :
    State.reset.rstN = true ∧ Reg.srcBase ∈ storedRegs ∧ Reg.clen ∈ storedRegs ∧ Reg.modHi ≠ Reg.modLo ∧
    Reg.id ∈ readOnlyRegs ∧ (0x024 : Nat) < 0x1000 ∧ (0xFFC : Nat) % 4 = 0 ∧
    (∀ r : Reg, r.offset ≠ 0x024) ∧ (∀ r : Reg, r.offset ≠ 0xFFC) ∧ State.reset.params = Config.defaults ∧
    State.reset.params.wf := by
  refine ⟨by decide, by decide, by decide, by decide, by decide, by decide, by decide, fun r => ?_, fun r => ?_,
    by decide, by decide⟩ <;> cases r <;> decide

/-- Each source of an interrupt. -/
theorem witness_Interrupts :
    (after (happen .sequencer (State.reset.accept 0x8))).map
      (fun t => (t.irqStatus.done, t.irqStatus.err, t.status.err)) = some (true, true, true) ∧
    (State.reset.accept 0x8).status.busy = true ∧ (State.reset.accept 0x8).status.err = false ∧
    (after (happen (.access (.write 0x000010 .word 7 0xF)) (State.reset.accept 0x8))).map
      (fun t => t.irqStatus.ovr) = some true := by decide +kernel

/-- A soft reset of an idle core, of a running command, and of an illegal one; a write of 0. -/
theorem witness_SoftReset :
    State.reset.rstN = true ∧ (1 : Word).getLsbD 0 = true ∧ (0xFFFFFFFE : Word).getLsbD 0 = false ∧
    State.reset.status.busy = false ∧ decode (running 0x3 []).latch.cmd = .ok (.brev 0) ∧
    decode (running 0x41 []).latch.cmd = .error .lengthNotTaken := by decide +kernel

/-- A command that would succeed, and one that would fail its checks. -/
theorem witness_AbortedCommand :
    let s := running 0x3 (residuesIn 8 [5])
    let r := running 0x8 []
    (s.status.busy = true ∧ decode s.latch.cmd = .ok (.brev 0) ∧
      (after (completion s)).map (fun u => u.status.err) = some false ∧
      inRanges (mayHaveWritten s (.brev 0)) 0x800000 ∧ ¬inRanges (mayHaveWritten s (.brev 0)) 0x800010) ∧
    r.status.busy = true ∧ decode r.latch.cmd = .ok (.nttFwd 0) ∧
      (after (completion r)).map (fun u => u.status.err) = some true := by
  refine ⟨⟨by decide +kernel, by decide +kernel, by decide +kernel, ?_, ?_⟩, by decide +kernel, by decide +kernel,
    by decide +kernel⟩
  · exact ⟨(0x800000, 16), by decide +kernel, by decide, by decide⟩
  · rintro ⟨r, hr, h1, h2⟩
    obtain rfl : r = (0x800000, 16) := by simpa [mayHaveWritten, running] using hr
    exact absurd h2 (by decide)

theorem witness_ResetPin :
    State.reset.status.busy = false ∧ (State.reset.resetPin false).rstN = false ∧ State.reset.rstN = true := by
  decide +kernel

theorem witness_ResetStateReads : Instr.ftti 0 ∈ modularCommands 0 ∧
    Instr.embi 31 ∈ [Instr.fftf 31, .ffti 31, .chk 31, .emb 31, .embi 31] := by decide

/-- A running command in a state that meets every invariant, and its step. -/
theorem witness_Invariants :
    let s := State.reset.accept 0
    s.mem.wf ∧ s.consistent ∧ s.params.wf ∧ s.memoryMapped ∧ s.modularContext ∧ s.complexContext ∧
      (after (step s)).isSome = true := by
  refine ⟨by decide, ?_, by decide, fun c h => (by cases h), fun h => (by cases h),
    fun h => (by cases h), by decide +kernel⟩
  unfold State.consistent; decide +kernel

/-- States with valid contexts meet the invariants, and step. -/
theorem witness_ContextInvariants :
    (∃ w wi di, (modular [1, 2, 3, 4]).modularTables w wi di) ∧
    (complex8 [⟨one, two⟩, ⟨two, one⟩]).complexContext ∧
    (modular [1, 2, 3, 4]).status.mcfgValid = true ∧ (complex8 []).status.ccfgValid = true ∧
    (after (step (complex8 [⟨one, two⟩, ⟨two, one⟩]))).isSome = true ∧
    (after (step { modular [1, 2, 3, 4] with
      latch := { (modular [1, 2, 3, 4]).latch with cmd := 0x89 } })).isSome = true :=
  ⟨⟨2, 9, 13, witness_FttRoundTrip.2.1⟩, witness_EmbAndEmbi.1, by decide +kernel, by decide +kernel,
    by decide +kernel, by decide +kernel⟩

/-- A staging write while mcfg runs, and a command that faults. -/
theorem witness_HostCannotDisturb :
    let s := offered 4 17 2 9 13 0
    s.status.busy = true ∧
    (after (serve (.write 0x040 .word 5 0xF) s)).map (fun t => t.status.busy) = some true ∧
    (after (exec .mcfg s)).isSome = true ∧ stopped (exec (.brev 0) s) = some (.uninitRead 0x800080) := by
  decide +kernel

end Sys2Proof.Tests
end

section
/-! PROOF. A list of butterflies over disjoint pairs acts on each pair by itself; the pairs of a stage are
disjoint and inside the buffer (00_scope.md R11, 41_modular.md R255). -/

namespace Sys2Proof.Machine

/-! ### Butterflies over disjoint pairs -/

/-- Two pairs that share no index. -/
def disjointPairs (p q : Nat × Nat × Nat) : Prop :=
  p.1 ≠ q.1 ∧ p.1 ≠ q.2.1 ∧ p.2.1 ≠ q.1 ∧ p.2.1 ≠ q.2.1

section
variable {α τ : Type} {tw : Nat → Except Stop τ} {bfly : τ → α → α → α × α}

/-- Butterflies whose twiddles can all be read run to their end. -/
theorem runPairs_completes {ps : List (Nat × Nat × Nat)} (A : List α) (h : ∀ p ∈ ps, ∃ w, tw p.2.2 = .ok w) :
    ∃ B, runPairs tw bfly ps A = .ok B := by
  cases hr : runPairs tw bfly ps A with
  | ok B => exact ⟨B, rfl⟩
  | error r =>
    obtain ⟨p, hp, he⟩ := runPairs_error hr
    obtain ⟨w, hw⟩ := h p hp
    cases hw.symm.trans he

/-- What butterflies on pairs without the index j leave there. -/
theorem runPairs_frame {j : Nat} : ∀ {ps : List (Nat × Nat × Nat)} {A B : List α},
    runPairs tw bfly ps A = .ok B → (∀ p ∈ ps, p.1 ≠ j ∧ p.2.1 ≠ j) → B[j]? = A[j]? := by
  intro ps
  induction ps with
  | nil =>
    intro A B h _
    cases h
    rfl
  | cons p ps ih =>
    obtain ⟨e, o, i⟩ := p
    intro A B h hj
    obtain ⟨⟨he, ho⟩, hps⟩ := List.forall_mem_cons.1 hj
    simp only [runPairs, except_bind_ok] at h
    obtain ⟨w, _, h⟩ := h
    split at h
    · rw [ih h hps, List.getElem?_set_ne ho, List.getElem?_set_ne he]
    · exact ih h hps

/-- Over disjoint pairs each butterfly sees the values from before all of them, and its results stay. -/
theorem runPairs_pointwise {e o i : Nat} {w : τ} {u v : α} (heo : e ≠ o) (hw : tw i = .ok w) :
    ∀ {ps : List (Nat × Nat × Nat)} {A B : List α}, runPairs tw bfly ps A = .ok B → ps.Pairwise disjointPairs →
      (e, o, i) ∈ ps → A[e]? = some u → A[o]? = some v →
      B[e]? = some (bfly w u v).1 ∧ B[o]? = some (bfly w u v).2 := by
  intro ps
  induction ps with
  | nil =>
    intro A B _ _ hp
    cases hp
  | cons q ps ih =>
    intro A B h hd hp hu hv
    obtain ⟨hq, hdps⟩ := List.pairwise_cons.1 hd
    rcases List.mem_cons.1 hp with rfl | hps
    case inl =>
      simp only [runPairs, hw, hu, hv, except_bind_ok, Except.ok.injEq, exists_eq_left'] at h
      have keptE := runPairs_frame h fun p hp => ⟨(hq p hp).1.symm, (hq p hp).2.1.symm⟩
      have keptO := runPairs_frame h fun p hp => ⟨(hq p hp).2.2.1.symm, (hq p hp).2.2.2.symm⟩
      obtain ⟨hle, _⟩ := List.getElem?_eq_some_iff.1 hu
      obtain ⟨hlo, _⟩ := List.getElem?_eq_some_iff.1 hv
      rw [keptE, keptO]
      simp [heo.symm, hle, hlo]
    case inr =>
      obtain ⟨e', o', i'⟩ := q
      obtain ⟨hee, heo', hoe, hoo⟩ := hq _ hps
      simp only [runPairs, except_bind_ok] at h
      obtain ⟨w', _, h⟩ := h
      split at h
      · apply ih h hdps hps
        · rwa [List.getElem?_set_ne hoe, List.getElem?_set_ne hee]
        · rwa [List.getElem?_set_ne hoo, List.getElem?_set_ne heo']
      · exact ih h hdps hps hu hv

end

/-! ### The pairs of a stage -/

theorem stagePairs_eq {k s : Nat} (h1 : 1 ≤ s) (h2 : s ≤ k) :
    stagePairs k s = (List.range (2 ^ (k - s))).flatMap fun blk =>
      (List.range (2 ^ (s - 1))).map fun i => (blk * 2 ^ s + i, blk * 2 ^ s + i + 2 ^ (s - 1), i) := by
  have half : 2 ^ s / 2 = 2 ^ (s - 1) := Nat.pow_div h1 (by decide)
  rw [stagePairs, Nat.pow_div h2 (by decide), half]

theorem mem_stagePairs {k s : Nat} {p : Nat × Nat × Nat} (h1 : 1 ≤ s) (h2 : s ≤ k) :
    p ∈ stagePairs k s ↔ ∃ blk < 2 ^ (k - s), ∃ i < 2 ^ (s - 1),
      (blk * 2 ^ s + i, blk * 2 ^ s + i + 2 ^ (s - 1), i) = p := by
  simp only [stagePairs_eq h1 h2, List.mem_flatMap, List.mem_map, List.mem_range]

theorem stagePairs_inside {k s blk i : Nat} (h1 : 1 ≤ s) (h2 : s ≤ k) (hb : blk < 2 ^ (k - s))
    (hi : i < 2 ^ (s - 1)) : blk * 2 ^ s + i + 2 ^ (s - 1) < 2 ^ k := by
  have half := Nat.two_pow_pred_add_two_pow_pred h1
  calc blk * 2 ^ s + i + 2 ^ (s - 1) < (blk + 1) * 2 ^ s := by rw [add_mul]; omega
    _ ≤ 2 ^ (k - s) * 2 ^ s := Nat.mul_le_mul_right _ hb
    _ = 2 ^ k := Nat.pow_sub_mul_pow 2 h2

/-- Pairs of one block differ in i below half the block; the blocks lie one after another. -/
theorem stagePairs_disjoint {k s : Nat} (h1 : 1 ≤ s) (h2 : s ≤ k) :
    (stagePairs k s).Pairwise disjointPairs := by
  rw [stagePairs_eq h1 h2, List.pairwise_flatMap]
  constructor
  · intro blk _
    rw [List.pairwise_map]
    refine List.Pairwise.imp_of_mem ?_ List.pairwise_lt_range
    intro i j hi hj hij
    rw [List.mem_range] at hi hj
    refine ⟨?_, ?_, ?_, ?_⟩ <;> simp only <;> omega
  · refine List.pairwise_lt_range.imp fun {b c} hbc => ?_
    simp only [List.mem_map, List.mem_range]
    rintro _ ⟨i, hi, rfl⟩ _ ⟨j, hj, rfl⟩
    have half := Nat.two_pow_pred_add_two_pow_pred h1
    have after : b * 2 ^ s + 2 ^ s ≤ c * 2 ^ s := by
      rw [← Nat.succ_mul]
      exact Nat.mul_le_mul_right _ hbc
    refine ⟨?_, ?_, ?_, ?_⟩ <;> simp only <;> omega

/-- Settles O22: the pairs of a stage are disjoint and inside the buffer, so the law of disjoint butterflies
holds of each. -/
theorem stageOfButterfliesPointwise : Obligations.StageOfButterfliesPointwise := by
  intro α τ bfly w k st A hA h1 h2
  obtain ⟨B, hB⟩ := runPairs_completes (tw := fun i => .ok (w i)) (bfly := bfly) (ps := stagePairs k st) A
    fun p _ => ⟨w p.2.2, rfl⟩
  refine ⟨B, hB, (runPairs_length hB).trans hA, fun blk i hb hi => ?_⟩
  have inside := stagePairs_inside h1 h2 hb hi
  have hu := List.getElem?_eq_getElem (l := A) (i := blk * 2 ^ st + i) (by omega)
  have hv := List.getElem?_eq_getElem (l := A) (i := blk * 2 ^ st + i + 2 ^ (st - 1)) (by omega)
  have distinct : blk * 2 ^ st + i ≠ blk * 2 ^ st + i + 2 ^ (st - 1) := by omega
  exact ⟨_, _, hu, hv, runPairs_pointwise (tw := fun i => .ok (w i)) distinct rfl hB (stagePairs_disjoint h1 h2)
    ((mem_stagePairs h1 h2).2 ⟨blk, hb, i, hi, rfl⟩) hu hv⟩

end Sys2Proof.Machine
end

section
/-! PROOF. What one event, and so one step, can do to the state (10_state.md R30): an invariant of a step is a
case analysis of `Happens`. -/

namespace Sys2Proof.Machine

/-! ### The code of an error is never 0 (60_exceptions.md R401) -/

/-- The result is no error with the code E_OK. -/
def raisesNoOk {α : Type} (r : Except Stop α) : Prop := ∀ info, r ≠ .error (.raise .ok info)

section
variable {α β τ : Type}

@[simp] theorem raisesNoOk_ok (a : α) : raisesNoOk (.ok a : Except Stop α) := fun _ h => nomatch h

@[simp] theorem raisesNoOk_pure (a : α) : raisesNoOk (pure a : Except Stop α) := raisesNoOk_ok a

@[simp] theorem raisesNoOk_bind {r : Except Stop α} {f : α → Except Stop β} :
    raisesNoOk (r >>= f) ↔ raisesNoOk r ∧ ∀ x, r = .ok x → raisesNoOk (f x) := by
  simp only [raisesNoOk, ne_eq, except_bind_error, not_or, not_exists, not_and, forall_and]
  exact and_congr_right fun _ => ⟨fun h x hx info => h info x hx, fun h info x hx => h x hx info⟩

@[simp] theorem raisesNoOk_map {r : Except Stop α} {f : α → β} : raisesNoOk (r.map f) ↔ raisesNoOk r := by
  simp only [raisesNoOk, ne_eq, except_map_error]

@[simp] theorem raisesNoOk_fmap {r : Except Stop α} {f : α → β} : raisesNoOk (f <$> r) ↔ raisesNoOk r :=
  raisesNoOk_map

@[simp] theorem raisesNoOk_require {c : Prop} [Decidable c] {e : ErrCode} {info : Word} :
    raisesNoOk (require c e info) ↔ (e = .ok → c) := by
  have noCheck : raisesNoOk (require c e info) ↔ ∀ i, ¬(¬c ∧ ErrCode.ok = e ∧ i = info) := by
    simp only [raisesNoOk, ne_eq, require_error, Stop.raise.injEq]
  rw [noCheck]
  constructor
  · exact fun h he => by_contra fun hc => h info ⟨hc, he.symm, rfl⟩
  · exact fun h i ⟨hc, he, _⟩ => hc (h he.symm)

@[simp] theorem raisesNoOk_loadWord (s : State) (a : Nat) : raisesNoOk (s.loadWord a) := by
  intro info h
  cases (State.loadWord_error.1 h).2

@[simp] theorem raisesNoOk_loadDword (s : State) (a : Nat) : raisesNoOk (s.loadDword a) := by
  simp [State.loadDword]

@[simp] theorem raisesNoOk_loadEntry (s : State) (a : Nat) : raisesNoOk (s.loadEntry a) := by
  simp [State.loadEntry]

@[simp] theorem raisesNoOk_readFrom {f : Nat → Except Stop α} (hf : ∀ i, raisesNoOk (f i)) (i n : Nat) :
    raisesNoOk (readFrom f i n) := by
  induction n generalizing i with
  | zero => simp [readFrom]
  | succ n ih => simp [readFrom, hf, ih]

@[simp] theorem raisesNoOk_checkResidues {f : Nat → Except Stop Nat} (hf : ∀ i, raisesNoOk (f i)) (a : Nat)
    (tag : Word) (base j n : Nat) : raisesNoOk (checkResidues f a tag base j n) := by
  induction n generalizing j with
  | zero => simp [checkResidues]
  | succ n ih => simp [checkResidues, hf, ih]

@[simp] theorem raisesNoOk_twist {T : Nat → Except Stop Nat} (hT : ∀ i, raisesNoOk (T i)) (a i : Nat)
    (xs : List Nat) : raisesNoOk (twist a T i xs) := by
  induction xs generalizing i with
  | nil => simp [twist]
  | cons x xs ih => simp [twist, hT, ih]

@[simp] theorem raisesNoOk_runStages {tw : Nat → Nat → Except Stop τ} (ht : ∀ s i, raisesNoOk (tw s i))
    (bfly : τ → α → α → α × α) (k : Nat) (ss : List Nat) (A : List α) :
    raisesNoOk (runStages tw bfly k ss A) := by
  intro info h
  obtain ⟨s, _, p, _, hp⟩ := runStages_error h
  exact ht s p.2.2 info hp

end

@[simp] theorem raisesNoOk_checkRange (s : State) (n : Nat) (useTbl : Bool) :
    raisesNoOk (s.checkRange n useTbl) := by
  simp [State.checkRange]

@[simp] theorem raisesNoOk_checkOverlap (s : State) (n : Nat) (useTbl : Bool) :
    raisesNoOk (s.checkOverlap n useTbl) := by
  simp [State.checkOverlap]

@[simp] theorem raisesNoOk_dReadResidue (s : State) (e : Nat) : raisesNoOk (s.dReadResidue e) := by
  simp [State.dReadResidue]

@[simp] theorem raisesNoOk_dRead (s : State) (e : Nat) : raisesNoOk (s.dRead e) := by
  simp [State.dRead]

@[simp] theorem raisesNoOk_dReadCplx (s : State) (e : Nat) : raisesNoOk (s.dReadCplx e) := by
  simp [State.dReadCplx]

@[simp] theorem raisesNoOk_fwdAt (s : State) (i : Nat) : raisesNoOk (s.fwdAt i) := by
  simp [State.fwdAt]

@[simp] theorem raisesNoOk_invAt (s : State) (i : Nat) : raisesNoOk (s.invAt i) := by
  simp [State.invAt]

@[simp] theorem raisesNoOk_sinvAt (s : State) (i : Nat) : raisesNoOk (s.sinvAt i) := by
  simp [State.sinvAt]

@[simp] theorem raisesNoOk_crootAt (s : State) (k : Nat) : raisesNoOk (s.crootAt k) := by
  simp [State.crootAt]

@[simp] theorem raisesNoOk_rotatedRoot (s : State) (index : Nat → Nat → Nat → Nat) (st j : Nat) :
    raisesNoOk (s.rotatedRoot index st j) := by
  simp [State.rotatedRoot, State.rotgAt]

@[simp] theorem raisesNoOk_chkChecks (s : State) (k : Nat) : raisesNoOk (s.chkChecks k) := by
  simp [State.chkChecks, State.checkCcfg, State.checkLimit]

@[simp] theorem raisesNoOk_embChecks (s : State) (k : Nat) : raisesNoOk (s.embChecks k) := by
  simp [State.embChecks]

@[simp] theorem raisesNoOk_fftChecks (s : State) (k : Nat) : raisesNoOk (s.fftChecks k) := by
  simp [State.fftChecks, State.checkCcfg, State.checkLimit]

@[simp] theorem raisesNoOk_cplxInputs (s : State) (k : Nat) : raisesNoOk (s.cplxInputs k) := by
  simp [State.cplxInputs]

@[simp] theorem raisesNoOk_nttCore {T : Nat → Except Stop Nat} (hT : ∀ j, raisesNoOk (T j)) (a k : Nat)
    (x : List Nat) : raisesNoOk (nttCore a k T x) := by
  simp [nttCore, hT]

@[simp] theorem raisesNoOk_nttOutputs {T : Nat → Except Stop Nat} (hT : ∀ j, raisesNoOk (T j)) (k : Nat)
    (s : State) : raisesNoOk (nttOutputs k T s) := by
  simp [nttOutputs, hT, State.checkMcfg, State.checkLimit]

@[simp] theorem raisesNoOk_fttInputs (k : Nat) (s : State) : raisesNoOk (fttInputs k s) := by
  simp [fttInputs, State.checkMcfg, State.checkLimit]

theorem raisesNoOk_phases (i : Instr) (s : State) : raisesNoOk (phases i s) := by
  cases i with
  | nop => exact raisesNoOk_ok s
  | mcfg => simp [phases, mcfgChecks]
  | ccfg => simp [phases, ccfgChecks]
  | brev k => simp [phases, brevOutputs, State.checkLimit]
  | nttFwd k => simp [phases]
  | nttInv k => simp [phases]
  | nttUsr k => simp [phases, nttUsrOutputs, State.checkMcfg, State.checkLimit]
  | fttf k => simp [phases, fttfOutputs]
  | ftti k => simp [phases, fttiOutputs]
  | fft k => simp [phases, fftOutputs, State.checkLimit]
  | fftf k => simp [phases, fftfOutputs]
  | ffti k => simp [phases, fftiOutputs]
  | chk k => simp [phases]
  | emb k => simp [phases, embOutputs]
  | embi k => simp [phases, embiOutputs]

/-- 60_exceptions.md R401: the code that a command raises is not 0. -/
theorem phases_raise_ne_ok {i : Instr} {s : State} {e : ErrCode} {info : Word}
    (h : phases i s = .error (.raise e info)) : e ≠ .ok := by
  rintro rfl
  exact raisesNoOk_phases i s info h

/-! ### The result of a command's phases -/

/-- What the phases of a command that succeeds make of `s`. -/
inductive Computes (s : State) : State → Prop
  | unchanged : Computes s s
  | buffer (vs : List Entry) : Computes s { s with mem := s.mem.writeEntries (dmemAddr s.latch.dst.toNat) vs }
  | mcfg (checks : mcfgChecks s.params s.latch.s0 = .ok ()) : Computes s (mcfgCompute s s.latch.s0)
  | ccfg (checks : ccfgChecks s.params s.latch.s0.clen = .ok ()) : Computes s (ccfgCompute s s.latch.s0.clen)

theorem phases_ok {i : Instr} {s u : State} (h : phases i s = .ok u) : Computes s u := by
  cases i
  case nop =>
    cases h
    exact .unchanged
  all_goals obtain ⟨_, checks, rfl⟩ := except_map_ok.1 h
  case chk => exact .unchanged
  case mcfg => exact .mcfg checks
  case ccfg => exact .ccfg checks
  all_goals exact .buffer _

/-! ### One event -/

/-- `t` has every field of `s` that a command reads or an invariant speaks of; the host's side may differ. -/
structure State.sameCore (s t : State) : Prop where
  params : t.params = s.params
  rstN : t.rstN = s.rstN
  status : t.status = s.status
  errInfo : t.errInfo = s.errInfo
  latch : t.latch = s.latch
  actMod : t.actMod = s.actMod
  actLogd : t.actLogd = s.actLogd
  actLogm : t.actLogm = s.actLogm
  bk : t.bk = s.bk
  mu : t.mu = s.mu
  mem : t.mem = s.mem

/-- What one event can make of `s`. -/
inductive Happens (s : State) : State → Prop
  | quiet {t : State} (same : s.sameCore t) : Happens s t
  | accepted (v : Word) (live : s.rstN = true) (idle : s.status.busy = false) :
      Happens s ((s.accept v).respond .writeOkay)
  | hostWrote (a : Nat) (v : Word) (idle : s.status.busy = false) (aligned : a % 4 = 0)
      (writable : windowOf s.params a = .readWrite) :
      Happens s (State.respond { s with mem := s.mem.writeWord a v } .writeOkay)
  | reset {t : State} (params : t.params = s.params) (status : t.status = Status.reset) (errInfo : t.errInfo = 0)
      (mem : t.mem = s.mem ∨ t.mem = abortedMem s ∨ t.mem = []) : Happens s t
  | succeeded (i : Instr) (u : State) (running : s.status.busy = true) (ok : phases i s = .ok u) :
      Happens s u.succeed
  | failed (i : Instr) (e : ErrCode) (info : Word) (running : s.status.busy = true) (code : e ≠ .ok) :
      Happens s (s.afterError i e info)

theorem State.sameCore_respond (s : State) (r : Resp) : s.sameCore (s.respond r) :=
  ⟨rfl, rfl, rfl, rfl, rfl, rfl, rfl, rfl, rfl, rfl, rfl⟩

theorem Happens.answer {s : State} (r : Resp) : Happens s (s.respond r) := .quiet (s.sameCore_respond r)

theorem State.abortIfBusy_cases (s : State) : s.abortIfBusy = s ∨ s.abortIfBusy = s.abort := by
  unfold State.abortIfBusy
  split
  · exact .inr rfl
  · exact .inl rfl

@[simp] theorem State.abortIfBusy_params (s : State) : s.abortIfBusy.params = s.params := by
  rcases s.abortIfBusy_cases with h | h <;> simp [h]

theorem State.abortIfBusy_mem (s : State) : s.abortIfBusy.mem = s.mem ∨ s.abortIfBusy.mem = abortedMem s := by
  rcases s.abortIfBusy_cases with h | h <;> simp [h]

theorem happens_writeReg {s : State} (live : s.rstN = true) (r : Reg) (v : Word) :
    Happens s ((s.writeReg r v).respond .writeOkay) := by
  cases r
  case ctrl =>
    simp only [State.writeReg]
    split
    · exact .reset s.abortIfBusy_params rfl rfl (s.abortIfBusy_mem.imp_right .inl)
    · exact .answer _
  case cmd =>
    simp only [State.writeReg, State.writeCmd]
    split
    · exact .quiet ⟨rfl, rfl, rfl, rfl, rfl, rfl, rfl, rfl, rfl, rfl, rfl⟩
    · next h => exact .accepted v live (Bool.eq_false_of_not_eq_true h)
  all_goals exact .quiet ⟨rfl, rfl, rfl, rfl, rfl, rfl, rfl, rfl, rfl, rfl, rfl⟩

theorem happens_serveRead {s t : State} {a : Nat} (h : serveRead s a = .next t) : Happens s t := by
  have answered : ∃ r, t = s.respond r := by
    unfold serveRead at h
    grind
  obtain ⟨r, rfl⟩ := answered
  exact .answer r

theorem happens_serveWrite {s t : State} {a : Nat} {v : Word} (live : s.rstN = true) (aligned : a % 4 = 0)
    (h : serveWrite s a v = .next t) : Happens s t := by
  unfold serveWrite at h
  split at h
  · cases h
    unfold State.writeRegs
    split
    · exact happens_writeReg live _ v
    · exact .answer _
  · next writable =>
    split at h
    · cases h
      exact .answer _
    · next idle =>
      cases h
      exact .hostWrote a v (Bool.eq_false_of_not_eq_true idle) aligned writable
  all_goals
    cases h
    exact .answer _

theorem happens_serve {s t : State} {a : Access} (h : serve a s = .next t) : Happens s t := by
  unfold serve at h
  split at h
  · cases h
  · next low =>
    have live : s.rstN = true := eq_true_of_ne_false low
    split at h
    all_goals
      split at h
      case isFalse =>
        cases h
        exact .answer _
    case h_1.isTrue => exact happens_serveRead h
    case h_2.isTrue legal =>
      simp only [Access.legal, Bool.and_eq_true, beq_iff_eq] at legal
      exact happens_serveWrite live legal.1.2 h

theorem happens_sequencerTurn {s t : State} (h : sequencerTurn s = .next t) : Happens s t := by
  unfold sequencerTurn at h
  split at h
  case isFalse =>
    cases h
    exact .quiet ⟨rfl, rfl, rfl, rfl, rfl, rfl, rfl, rfl, rfl, rfl, rfl⟩
  case isTrue running =>
    unfold completion at h
    split at h
    · next i _ =>
      rcases exec_next.1 h with ⟨u, ok, rfl⟩ | ⟨e, info, raised, rfl⟩
      · exact .succeeded i u running ok
      · exact .failed i e info running (phases_raise_ne_ok raised)
    · injection h with h
      have : s.fail noEffect .illegal 0 = s.afterError .nop .illegal 0 := fail_eq_afterError s .nop .illegal 0
      rw [← h, this]
      exact .failed .nop .illegal 0 running nofun

theorem happens_resetPin (s : State) (level : Bool) : Happens s (s.resetPin level) := by
  unfold State.resetPin
  split
  · exact .quiet ⟨rfl, rfl, rfl, rfl, rfl, rfl, rfl, rfl, rfl, rfl, rfl⟩
  · exact .reset s.abortIfBusy_params rfl rfl (s.abortIfBusy_mem.imp_right .inl)

theorem happens_of_happen {e : Event} {s t : State} (h : happen e s = .next t) : Happens s t := by
  cases e with
  | access a => exact happens_serve h
  | sequencer => exact happens_sequencerTurn h
  | rst level =>
    cases h
    exact happens_resetPin s level
  | powerCycle =>
    cases h
    exact .reset rfl rfl rfl (.inr (.inr rfl))

/-- A step is one event, the head of the inbox or the sequencer's turn, over the rest of the inbox. -/
theorem step_eq_happen (s : State) :
    step s = happen (s.inbox.headD .sequencer) { s with inbox := s.inbox.tail } := by
  cases h : s.inbox with
  | nil =>
    have : { s with inbox := [] } = s := by rw [← h]
    rw [step_nil h, List.headD_nil, List.tail_nil, this]
    rfl
  | cons e es => exact step_cons h

theorem happens_of_step {s t : State} (h : step s = .next t) : Happens { s with inbox := s.inbox.tail } t :=
  happens_of_happen (step_eq_happen s ▸ h)

end Sys2Proof.Machine
end

section
/-! PROOF. The error record stays consistent (10_state.md R37, R40, 40_common.md R200, 70_reset_and_hazards.md
R450). -/

namespace Sys2Proof.Machine

theorem State.sameCore.consistent {s t : State} (h : s.sameCore t) (hs : s.consistent) : t.consistent := by
  rwa [State.consistent, h.rstN, h.status, h.errInfo]

theorem consistent_of_reset {t : State} (status : t.status = Status.reset) (errInfo : t.errInfo = 0) :
    t.consistent := by
  simp [State.consistent, status, errInfo, Status.reset]

/-- A command keeps the level of rst_n and writes no field of the error record before its completion. -/
theorem phases_ok_record {i : Instr} {s u : State} (h : phases i s = .ok u) :
    u.rstN = s.rstN ∧ u.errInfo = s.errInfo ∧ u.status.err = s.status.err ∧
      u.status.errcode = s.status.errcode := by
  cases phases_ok h <;> exact ⟨rfl, rfl, rfl, rfl⟩

theorem Happens.consistent {s t : State} (h : Happens s t) (hs : s.consistent) : t.consistent := by
  obtain ⟨err_iff, info, record, low⟩ := id hs
  have high (running : s.status.busy = true) : s.rstN = true := by
    by_contra hn
    exact absurd running (by simp [low (Bool.eq_false_of_not_eq_true hn)])
  cases h with
  | quiet same => exact same.consistent hs
  | accepted v live _ => simp [State.consistent, live]
  | hostWrote a v _ _ _ => exact hs
  | reset params status errInfo _ => exact consistent_of_reset status errInfo
  | succeeded i u running ok =>
    obtain ⟨hr, hi, he, hc⟩ := phases_ok_record ok
    simp [State.consistent, hr, hi, he, hc, err_iff, record running, info (record running), high running]
  | failed i e info running code => simp [State.consistent, State.afterError, code, high running]

/-- Settles O55: every error code is other than 0, every acceptance and reset clears the record, and a command
runs only while rst_n is high. -/
theorem stepKeepsStatusConsistent : Obligations.StepKeepsStatusConsistent :=
  fun _ _ hs h => (happens_of_step h).consistent hs

end Sys2Proof.Machine
end

section
/-! PROOF. The modular and the complex context stay what mcfg and ccfg built, while they are valid (10_state.md R62,
R64, R71, 41_modular.md R250, R251, 42_complex.md R300). -/

namespace Sys2Proof.Machine

/-! ### The sizes of the contexts -/

/-- `x AND (x - 1) = 0` is the test for a power of two (41_modular.md R250, 42_complex.md R300). -/
theorem toNat_eq_two_pow_log2 {x : Word} (h : x ≠ 0 ∧ x &&& (x - 1) = 0) : x.toNat = 2 ^ x.toNat.log2 := by
  obtain ⟨hx, hand⟩ := h
  have ne : x.toNat ≠ 0 := fun h0 => hx (BitVec.eq_of_toNat_eq h0)
  have one_le : (1 : Word) ≤ x := by
    show 1 ≤ x.toNat
    omega
  have hnat : x.toNat &&& (x.toNat - 1) = 0 := by
    have := congrArg BitVec.toNat hand
    rwa [BitVec.toNat_and, BitVec.toNat_sub_of_le one_le] at this
  obtain ⟨k, hk⟩ := (Nat.and_sub_one_eq_zero_iff_isPowerOfTwo ne).1 hnat
  rw [hk, Nat.log2_two_pow]

theorem mcfgChecks_ok {p : Config.Params} {st : Staging} :
    mcfgChecks p st = .ok () ↔
      (st.degree ≠ 0 ∧ st.degree &&& (st.degree - 1) = 0) ∧ st.degree.toNat ≤ 2 ^ p.logdMax ∧
      2 ≤ st.modulus.toNat ∧ st.root.toNat < st.modulus.toNat ∧ st.rootInv.toNat < st.modulus.toNat ∧
      st.dInv.toNat < st.modulus.toNat ∧ st.root.toNat ^ (2 * st.degree.toNat) % st.modulus.toNat = 1 ∧
      st.root.toNat ^ st.degree.toNat % st.modulus.toNat ≠ 1 ∧
      st.root.toNat * st.rootInv.toNat % st.modulus.toNat = 1 ∧
      st.degree.toNat % st.modulus.toNat * st.dInv.toNat % st.modulus.toNat = 1 := by
  simp only [mcfgChecks, except_bind_ok, require_ok, exists_const]

theorem ccfgChecks_ok {p : Config.Params} {clen : Word} :
    ccfgChecks p clen = .ok () ↔
      (clen ≠ 0 ∧ clen &&& (clen - 1) = 0) ∧ 4 ≤ clen.toNat ∧ clen.toNat ≤ 2 ^ p.logmMax := by
  simp only [ccfgChecks, except_bind_ok, require_ok, exists_const]

/-! ### The tables as lists -/

theorem powerTable_length (a w x n : Nat) : (powerTable a w x n).length = n := by
  induction n generalizing x with
  | zero => rfl
  | succ n ih => simp [powerTable, ih]

theorem powerTable_getElem? {a w x n i : Nat} (hx : x < a) (hi : i < n) :
    (powerTable a w x n)[i]? = some (BitVec.ofNat 64 (x * w ^ i % a)) := by
  induction n generalizing x i with
  | zero => omega
  | succ n ih =>
    cases i with
    | zero => simp [powerTable, Nat.mod_eq_of_lt hx]
    | succ i =>
      have next := ih (x := mmul a x w) (Nat.mod_lt _ (by omega)) (Nat.lt_of_succ_lt_succ hi)
      rw [powerTable, List.getElem?_cons_succ, next, mmul, Nat.mod_mul_mod, mul_assoc, ← pow_succ']

theorem rotationTable_getElem? {M x n j : Nat} (hx : x < M) (hj : j < n) :
    (rotationTable M x n)[j]? = some (BitVec.ofNat 32 (5 ^ j * x % M)) := by
  induction n generalizing x j with
  | zero => omega
  | succ n ih =>
    cases j with
    | zero => simp [rotationTable, Nat.mod_eq_of_lt hx]
    | succ j =>
      have next := ih (x := 5 * x % M) (Nat.mod_lt _ (by omega)) (Nat.lt_of_succ_lt_succ hj)
      rw [rotationTable, List.getElem?_cons_succ, next, Nat.mul_mod_mod, ← mul_assoc, ← pow_succ]

/-! ### What a command can compute -/

theorem get_mcfgCompute {s : State} {st : Staging} {b : Nat} (hd : st.degree.toNat ≤ 2 ^ 16)
    (hb : b < fwdAddr 0 ∨ rotgAddr 0 ≤ b) : (mcfgCompute s st).mem.get b = s.mem.get b := by
  simp only [fwdAddr, rotgAddr] at hb
  simp only [mcfgCompute]
  rw [Memory.get_writeDwords_other, Memory.get_writeDwords_other, Memory.get_writeDwords_other] <;>
    simp only [powerTable_length, fwdAddr, invAddr, sinvAddr] <;> omega

theorem get_ccfgCompute {s : State} {clen : Word} {b : Nat} (hb : b < rotgAddr 0) :
    (ccfgCompute s clen).mem.get b = s.mem.get b :=
  Memory.get_writeWords_other _ _ _ (.inl hb)

/-- A table is read back after it was written, when nothing wrote there since. -/
theorem State.loadDword_of_table {t : State} {m : Memory} {a j : Nat} {v : Dword} {vs : List Dword}
    (hv : vs[j]? = some v)
    (kept : ∀ b, a ≤ b → b < a + 8 * vs.length → t.mem.get b = (m.writeDwords a vs).get b) :
    t.loadDword (a + 8 * j) = .ok v := by
  obtain ⟨hj, _⟩ := List.getElem?_eq_some_iff.1 hv
  rw [State.loadDword_congr (t := { t with mem := m.writeDwords a vs })]
  · exact State.loadDword_writeDwords vs m a j v hv rfl
  · exact fun b h1 h2 => kept b (by omega) (by omega)

/-- The tables of a successful mcfg are those of its operands (41_modular.md R251). -/
theorem mcfgCompute_tables {s : State} {st : Staging} {i : Nat} (hd : st.degree.toNat ≤ 2 ^ 16)
    (ha : 2 ≤ st.modulus.toNat) (hdi : st.dInv.toNat < st.modulus.toNat) (hi : i < st.degree.toNat) :
    (mcfgCompute s st).fwdAt i = .ok (st.root.toNat ^ i % st.modulus.toNat) ∧
    (mcfgCompute s st).invAt i = .ok (st.rootInv.toNat ^ i % st.modulus.toNat) ∧
    (mcfgCompute s st).sinvAt i = .ok (st.dInv.toNat * st.rootInv.toNat ^ i % st.modulus.toNat) := by
  have fits (x : Nat) : (BitVec.ofNat 64 (x % st.modulus.toNat)).toNat = x % st.modulus.toNat := by
    have := Nat.mod_lt x (show 0 < st.modulus.toNat by omega)
    rw [BitVec.toNat_ofNat, Nat.mod_eq_of_lt (by omega)]
  have read {w x a : Nat} {m : Memory} (hx : x < st.modulus.toNat)
      (kept : ∀ b, a ≤ b → b < a + 8 * st.degree.toNat → (mcfgCompute s st).mem.get b =
        (m.writeDwords a (powerTable st.modulus.toNat w x st.degree.toNat)).get b) :
      ((mcfgCompute s st).loadDword (a + 8 * i)).map BitVec.toNat = .ok (x * w ^ i % st.modulus.toNat) := by
    rw [State.loadDword_of_table (powerTable_getElem? hx hi) (by rwa [powerTable_length]), Except.map, fits]
  refine ⟨?_, ?_, ?_⟩
  · have fwd := read (w := st.root.toNat) (x := 1) (a := fwdAddr 0) (m := s.mem) ha fun b h1 h2 => by
      simp only [mcfgCompute]
      rw [Memory.get_writeDwords_other, Memory.get_writeDwords_other] <;>
        simp only [powerTable_length, fwdAddr, invAddr, sinvAddr] at * <;> omega
    rwa [one_mul] at fwd
  · have inv := read (w := st.rootInv.toNat) (x := 1) (a := invAddr 0) ha fun b h1 h2 => by
      simp only [mcfgCompute]
      rw [Memory.get_writeDwords_other]
      simp only [powerTable_length, invAddr, sinvAddr] at *
      omega
    rwa [one_mul] at inv
  · exact read (a := sinvAddr 0) hdi fun b _ _ => rfl

/-- MU needs at most 66 bits (10_state.md R71; log 8). -/
theorem barrettMu_lt {a : Nat} (h0 : a ≠ 0) (h : a < 2 ^ 64) : barrettMu a < 2 ^ 66 := by
  have low : 2 ^ a.log2 ≤ a := Nat.log2_self_le h0
  have bits : a.log2 < 64 := (Nat.log2_lt h0).2 h
  have bound : barrettMu a ≤ 2 ^ (a.log2 + 2) := by
    apply Nat.div_le_of_le_mul
    calc 2 ^ (2 * bitLength a) = 2 ^ a.log2 * 2 ^ (a.log2 + 2) := by rw [← pow_add, bitLength]; congr 1; omega
      _ ≤ a * 2 ^ (a.log2 + 2) := Nat.mul_le_mul_right _ low
  calc barrettMu a ≤ 2 ^ (a.log2 + 2) := bound
    _ < 2 ^ 66 := Nat.pow_lt_pow_right (by decide) (by omega)

/-- A successful mcfg builds a modular context (41_modular.md R250, R251). -/
theorem mcfgCompute_modularTables {s : State} (hp : s.params.wf) {st : Staging}
    (checks : mcfgChecks s.params st = .ok ()) :
    (mcfgCompute s st).modularTables st.root.toNat st.rootInv.toNat st.dInv.toNat := by
  obtain ⟨pow2, limit, ha, hw, hwi, hdi, order, least, hinv, hdinv⟩ := mcfgChecks_ok.1 checks
  obtain ⟨hlogd, _, _⟩ := hp
  have degree := toNat_eq_two_pow_log2 pow2
  have logd : st.degree.toNat.log2 ≤ s.params.logdMax := by
    rw [degree] at limit
    exact (Nat.pow_le_pow_iff_right (by decide)).1 limit
  have small : st.degree.toNat ≤ 2 ^ 16 := limit.trans (Nat.pow_le_pow_right (by decide) hlogd)
  have actLogd : (mcfgCompute s st).actLogd.toNat = st.degree.toNat.log2 := by
    simp only [mcfgCompute, BitVec.toNat_ofNat]
    omega
  have ctxDegree : (mcfgCompute s st).ctxDegree = st.degree.toNat := by
    rw [State.ctxDegree, actLogd, ← degree]
  have ctxMod : (mcfgCompute s st).ctxMod = st.modulus.toNat := rfl
  have nonzero : st.modulus.toNat ≠ 0 := by omega
  have bits : st.modulus.toNat.log2 < 64 := (Nat.log2_lt nonzero).2 st.modulus.isLt
  have bk : (mcfgCompute s st).bk.toNat = bitLength st.modulus.toNat := by
    simp only [mcfgCompute, BitVec.toNat_ofNat, bitLength]
    omega
  have mu : (mcfgCompute s st).mu.toNat = barrettMu st.modulus.toNat := by
    simp only [mcfgCompute, BitVec.toNat_ofNat]
    exact Nat.mod_eq_of_lt (barrettMu_lt nonzero st.modulus.isLt)
  rw [State.modularTables, ctxDegree, ctxMod, actLogd]
  exact ⟨ha, logd, hw, hwi, hdi, order, least, hinv, hdinv, fun i hi => mcfgCompute_tables small ha hdi hi, bk, mu⟩

/-- A successful ccfg builds a complex context (42_complex.md R300). -/
theorem ccfgCompute_complexContext {s : State} (hp : s.params.wf) {clen : Word}
    (checks : ccfgChecks s.params clen = .ok ()) : (ccfgCompute s clen).complexContext := by
  obtain ⟨pow2, four, limit⟩ := ccfgChecks_ok.1 checks
  obtain ⟨_, ⟨_, hlogm⟩, _⟩ := hp
  have len := toNat_eq_two_pow_log2 pow2
  have logm : clen.toNat.log2 ≤ s.params.logmMax := by
    rw [len] at limit
    exact (Nat.pow_le_pow_iff_right (by decide)).1 limit
  have two : 2 ≤ clen.toNat.log2 := by
    rw [len] at four
    exact (Nat.pow_le_pow_iff_right (a := 2) (by decide)).1 four
  have actLogm : (ccfgCompute s clen).actLogm.toNat = clen.toNat.log2 := by
    simp only [ccfgCompute, BitVec.toNat_ofNat]
    omega
  have ctxLen : (ccfgCompute s clen).ctxLen = clen.toNat := by rw [State.ctxLen, actLogm, ← len]
  intro _
  rw [ctxLen, actLogm]
  refine ⟨two, logm, fun j hj => ?_⟩
  have entry := rotationTable_getElem? (M := clen.toNat) (x := 1) (by omega) hj
  have read : (ccfgCompute s clen).loadWord (rotgAddr 0 + 4 * j) = _ :=
    State.loadWord_writeWords _ s.mem (rotgAddr 0) j _ entry rfl
  have fits : 5 ^ j % clen.toNat < 2 ^ 32 := (Nat.mod_lt _ (by omega)).trans clen.isLt
  rw [State.rotgAt, show rotgAddr j = rotgAddr 0 + 4 * j from rfl, read, Except.map, BitVec.toNat_ofNat, mul_one,
    Nat.mod_eq_of_lt fits]

/-! ### What keeps the modular context -/

/-- `t` has the modular context of `s`, its tables included, unless it is no longer valid. -/
structure State.keepsModular (s t : State) : Prop where
  valid : t.status.mcfgValid = true → s.status.mcfgValid = true
  params : t.params = s.params
  actMod : t.actMod = s.actMod
  actLogd : t.actLogd = s.actLogd
  bk : t.bk = s.bk
  mu : t.mu = s.mu
  mem : ∀ b < rotgAddr 0, t.mem.get b = s.mem.get b

theorem State.keepsModular.tables {s t : State} (k : s.keepsModular t) {i : Nat} (hi : i < 2 ^ 16) :
    t.fwdAt i = s.fwdAt i ∧ t.invAt i = s.invAt i ∧ t.sinvAt i = s.sinvAt i := by
  have read {a : Nat} (ha : a + 8 ≤ rotgAddr 0) : t.loadDword a = s.loadDword a :=
    State.loadDword_congr fun b _ hb => k.mem b (by omega)
  have below : fwdAddr i + 8 ≤ rotgAddr 0 ∧ invAddr i + 8 ≤ rotgAddr 0 ∧ sinvAddr i + 8 ≤ rotgAddr 0 := by
    simp only [fwdAddr, invAddr, sinvAddr, rotgAddr]
    omega
  obtain ⟨hf, hi, hs⟩ := below
  exact ⟨congrArg (Except.map BitVec.toNat) (read hf), congrArg (Except.map BitVec.toNat) (read hi),
    congrArg (Except.map BitVec.toNat) (read hs)⟩

theorem modularContext_of_keeps {s t : State} (hp : s.params.wf) (hs : s.modularContext)
    (k : s.keepsModular t) : t.modularContext := by
  intro valid
  obtain ⟨w, wi, di, ha, logd, hw, hwi, hdi, order, least, hinv, hdinv, tables, hbk, hmu⟩ := hs (k.valid valid)
  have ctxMod : t.ctxMod = s.ctxMod := by rw [State.ctxMod, State.ctxMod, k.actMod]
  have ctxDegree : t.ctxDegree = s.ctxDegree := by rw [State.ctxDegree, State.ctxDegree, k.actLogd]
  have small : s.ctxDegree ≤ 2 ^ 16 := Nat.pow_le_pow_right (by decide) (logd.trans hp.1)
  refine ⟨w, wi, di, ?_⟩
  rw [State.modularTables, ctxMod, ctxDegree, k.actLogd, k.params, k.bk, k.mu]
  refine ⟨ha, logd, hw, hwi, hdi, order, least, hinv, hdinv, fun i hi => ?_, hbk, hmu⟩
  obtain ⟨hf, hi', hsi⟩ := k.tables (hi.trans_le small)
  rw [hf, hi', hsi]
  exact tables i hi

/-! ### What keeps the complex context -/

/-- `t` has the complex context of `s`, ROTG included, unless it is no longer valid. -/
structure State.keepsComplex (s t : State) : Prop where
  valid : t.status.ccfgValid = true → s.status.ccfgValid = true
  params : t.params = s.params
  actLogm : t.actLogm = s.actLogm
  mem : ∀ b, rotgAddr 0 ≤ b → b < crootAddr 0 → t.mem.get b = s.mem.get b

theorem complexContext_of_keeps {s t : State} (hp : s.params.wf) (hs : s.complexContext)
    (k : s.keepsComplex t) : t.complexContext := by
  intro valid
  obtain ⟨two, logm, rotg⟩ := hs (k.valid valid)
  have ctxLen : t.ctxLen = s.ctxLen := by rw [State.ctxLen, State.ctxLen, k.actLogm]
  have small : s.ctxLen ≤ 2 ^ 17 := Nat.pow_le_pow_right (by decide) (logm.trans hp.2.1.2)
  rw [ctxLen, k.actLogm, k.params]
  refine ⟨two, logm, fun j hj => ?_⟩
  have read : t.loadWord (rotgAddr j) = s.loadWord (rotgAddr j) := State.loadWord_congr fun b h1 h2 => by
    simp only [rotgAddr] at h1 h2
    exact k.mem b (by simp only [rotgAddr]; omega) (by simp only [crootAddr]; omega)
  rw [State.rotgAt, read]
  exact rotg j hj

/-! ### One event -/

theorem State.sameCore.keepsModular {s t : State} (h : s.sameCore t) : s.keepsModular t where
  valid := by simp [h.status]
  params := h.params
  actMod := h.actMod
  actLogd := h.actLogd
  bk := h.bk
  mu := h.mu
  mem := by simp [h.mem]

theorem State.sameCore.keepsComplex {s t : State} (h : s.sameCore t) : s.keepsComplex t where
  valid := by simp [h.status]
  params := h.params
  actLogm := h.actLogm
  mem := by simp [h.mem]

/-- The host writes no table: CROOT and DMEM lie above ROTG (20_memory.md R101). -/
theorem crootAddr_le_of_readWrite {p : Config.Params} {a : Nat} (h : windowOf p a = .readWrite) :
    crootAddr 0 ≤ a := by
  by_contra hlt
  simp only [crootAddr] at hlt
  unfold windowOf at h
  simp only [crootAddr, dmemAddr] at h
  grind

theorem Happens.params {s t : State} (h : Happens s t) : t.params = s.params := by
  cases h with
  | quiet same => exact same.params
  | reset params _ _ _ => exact params
  | succeeded i u _ ok => cases phases_ok ok <;> rfl
  | accepted | hostWrote | failed => rfl

theorem Happens.modularContext {s t : State} (h : Happens s t) (hp : s.params.wf) (hs : s.modularContext) :
    t.modularContext := by
  cases h with
  | quiet same => exact modularContext_of_keeps hp hs same.keepsModular
  | accepted v _ _ => exact hs
  | hostWrote a v _ _ writable =>
    have above := crootAddr_le_of_readWrite writable
    refine modularContext_of_keeps hp hs ⟨id, rfl, rfl, rfl, rfl, rfl, fun b hb => ?_⟩
    simp only [crootAddr, rotgAddr] at above hb
    exact Memory.get_writeWord_other _ _ (by omega)
  | reset _ status _ _ => simp [State.modularContext, status, Status.reset]
  | failed i e info _ _ =>
    refine modularContext_of_keeps hp hs ⟨?_, rfl, rfl, rfl, rfl, rfl, fun _ _ => rfl⟩
    simp [State.afterError]
  | succeeded i u _ ok =>
    cases phases_ok ok with
    | unchanged => exact hs
    | buffer vs =>
      refine modularContext_of_keeps hp hs ⟨id, rfl, rfl, rfl, rfl, rfl, fun b hb => ?_⟩
      simp only [rotgAddr] at hb
      exact Memory.get_writeEntries_other _ _ _ (by simp only [dmemAddr]; omega)
    | mcfg checks => exact fun _ => ⟨_, _, _, mcfgCompute_modularTables hp checks⟩
    | ccfg _ => exact modularContext_of_keeps hp hs ⟨id, rfl, rfl, rfl, rfl, rfl, fun _ hb => get_ccfgCompute hb⟩

theorem Happens.complexContext {s t : State} (h : Happens s t) (hp : s.params.wf) (hs : s.complexContext) :
    t.complexContext := by
  cases h with
  | quiet same => exact complexContext_of_keeps hp hs same.keepsComplex
  | accepted v _ _ => exact hs
  | hostWrote a v _ _ writable =>
    have above := crootAddr_le_of_readWrite writable
    exact complexContext_of_keeps hp hs
      ⟨id, rfl, rfl, fun b _ hb => Memory.get_writeWord_other _ _ (.inl (hb.trans_le above))⟩
  | reset _ status _ _ => simp [State.complexContext, status, Status.reset]
  | failed i e info _ _ =>
    refine complexContext_of_keeps hp hs ⟨?_, rfl, rfl, fun _ _ _ => rfl⟩
    simp [State.afterError]
  | succeeded i u _ ok =>
    cases phases_ok ok with
    | unchanged => exact hs
    | buffer vs =>
      refine complexContext_of_keeps hp hs ⟨id, rfl, rfl, fun b _ hb => ?_⟩
      simp only [crootAddr] at hb
      exact Memory.get_writeEntries_other _ _ _ (by simp only [dmemAddr]; omega)
    | mcfg checks =>
      obtain ⟨_, limit, _⟩ := mcfgChecks_ok.1 checks
      have small := limit.trans (Nat.pow_le_pow_right (by decide) hp.1)
      exact complexContext_of_keeps hp hs ⟨id, rfl, rfl, fun _ hb _ => get_mcfgCompute small (.inr hb)⟩
    | ccfg checks => exact ccfgCompute_complexContext hp checks

/-- Settles O57: only mcfg writes the tables, and a failed mcfg or a reset drops MCFG_VALID. -/
theorem stepKeepsModularContext : Obligations.StepKeepsModularContext := by
  intro s t hp hs h
  have event := happens_of_step h
  exact ⟨event.params.symm ▸ hp, event.modularContext hp hs⟩

/-- Settles O58: only ccfg writes ROTG, and a failed ccfg or a reset drops CCFG_VALID. -/
theorem stepKeepsComplexContext : Obligations.StepKeepsComplexContext := by
  intro s t hp hs h
  have event := happens_of_step h
  exact ⟨event.params.symm ▸ hp, event.complexContext hp hs⟩

end Sys2Proof.Machine
end

section
/-! PROOF. The register file at the port: what is stored, what is ignored, the fields of each register, and the
interrupt line (10_state.md section 2, R73, 60_exceptions.md R408). -/

namespace Sys2Proof.Machine

open Sys2Proof.Stated

/-! ### A register at the port -/

theorem Reg.offset_aligned (r : Reg) : r.offset < 0x1000 ∧ r.offset % 4 = 0 := by cases r <;> decide

theorem regAt_reserved {off : Nat} (h : ∀ r : Reg, r.offset ≠ off) : regAt off = none := by
  rw [regAt, List.find?_eq_none]
  intro r _
  simpa using h r

theorem portRead_register {s : State} (hr : s.rstN = true) (r : Reg) :
    portRead r.offset s = .next (answered s (.readOkay (s.readReg r))) := by
  obtain ⟨low, aligned⟩ := r.offset_aligned
  rw [portRead, serve_read_register hr low aligned, State.readRegs, regAt_offset]
  rfl

theorem portWrite_register {s : State} (hr : s.rstN = true) (r : Reg) (v : Word) :
    portWrite r.offset v s = .next ((s.writeReg r v).respond .writeOkay) := by
  obtain ⟨low, aligned⟩ := r.offset_aligned
  rw [portWrite, serve_write_register v hr low aligned, State.writeRegs, regAt_offset]

@[simp] theorem State.readReg_respond (s : State) (a : Resp) (r : Reg) : (s.respond a).readReg r = s.readReg r := by
  cases r <;> rfl

/-! ### Stored registers -/

@[simp] theorem lowWord_withLow (v : Dword) (w : Word) : lowWord (withLow v w) = w := low_of_append _ _
@[simp] theorem highWord_withLow (v : Dword) (w : Word) : highWord (withLow v w) = highWord v := high_of_append _ _
@[simp] theorem lowWord_withHigh (v : Dword) (w : Word) : lowWord (withHigh v w) = lowWord v := low_of_append _ _
@[simp] theorem highWord_withHigh (v : Dword) (w : Word) : highWord (withHigh v w) = w := high_of_append _ _

theorem highWord_append_lowWord (v : Dword) : highWord v ++ lowWord v = v := append_halves v

theorem readReg_writeReg_same {s : State} {r : Reg} (h : r ∈ storedRegs) (v : Word) :
    (s.writeReg r v).readReg r = v := by
  fin_cases h <;> simp [State.writeReg, State.readReg]

theorem readReg_writeReg_other {s : State} {r q : Reg} (h : r ∈ storedRegs) (hq : q ≠ r) (v : Word) :
    (s.writeReg r v).readReg q = s.readReg q := by
  fin_cases h <;> cases q <;> simp [State.writeReg, State.readReg] at hq ⊢

/-- Beside the base and staging registers a write to a stored register changes nothing. -/
theorem writeReg_stored_frame {s : State} {r : Reg} (h : r ∈ storedRegs) (v : Word) :
    s.writeReg r v = { s with
      srcBase := (s.writeReg r v).srcBase, dstBase := (s.writeReg r v).dstBase
      tblBase := (s.writeReg r v).tblBase, staging := (s.writeReg r v).staging } := by
  fin_cases h <;> rfl

/-- Settles O45: a register is served at its own offset, and a write to a stored one sets it and no other. -/
theorem storedRegistersHoldWhatIsWritten : Obligations.StoredRegistersHoldWhatIsWritten := by
  refine ⟨fun s r hr => portRead_register hr r, fun s r v hr hs => ⟨_, portWrite_register hr r v, ?_, ?_, ?_⟩, ?_⟩
  · rw [State.readReg_respond, readReg_writeReg_same hs]
  · intro q hq
    rw [State.readReg_respond, readReg_writeReg_other hs hq]
  · rw [writeReg_stored_frame hs]
    rfl
  · exact fun s => ⟨highWord_append_lowWord _, highWord_append_lowWord _, highWord_append_lowWord _,
      highWord_append_lowWord _, highWord_append_lowWord _⟩

/-! ### The bits of the register words -/

@[simp] theorem getLsbD_bitAt {b : Bool} {n i : Nat} (hn : n < 32) :
    (bitAt b n).getLsbD i = (decide (i = n) && b) := by
  simp only [bitAt, BitVec.getLsbD_shiftLeft, BitVec.getLsbD_setWidth, BitVec.getLsbD_ofBool]
  grind

theorem bitAt_and_eq_zero {b : Bool} {n : Nat} {m : Word} (hn : n < 32) (hm : m.getLsbD n = false) :
    bitAt b n &&& m = 0 := by
  apply BitVec.eq_of_getLsbD_eq
  intro i _
  rw [BitVec.getLsbD_and, getLsbD_bitAt hn]
  by_cases hi : i = n <;> simp [hi, hm]

theorem code_and_reserved (e : ErrCode) : (e.code.setWidth 32 <<< 8) &&& (0xFFFCF0FC : Word) = 0 := by
  cases e <;> decide

theorem statusWord_reserved (st : Status) : st.word &&& 0xFFFCF0FC = 0 := by
  simp only [Status.word, BitVec.and_or_distrib_right]
  rw [bitAt_and_eq_zero (by decide) (by decide), bitAt_and_eq_zero (by decide) (by decide), code_and_reserved,
    bitAt_and_eq_zero (by decide) (by decide), bitAt_and_eq_zero (by decide) (by decide)]
  rfl

theorem irqWord_reserved (b : IrqBits) : b.word &&& 0xFFFFFFF8 = 0 := by
  simp only [IrqBits.word, BitVec.and_or_distrib_right]
  rw [bitAt_and_eq_zero (by decide) (by decide), bitAt_and_eq_zero (by decide) (by decide),
    bitAt_and_eq_zero (by decide) (by decide)]
  rfl

theorem logField_reserved : ∀ x : BitVec 5, x.setWidth 32 &&& (0xFFFFFFE0 : Word) = 0 := by decide

theorem writeReg_readOnly {s : State} {r : Reg} (h : r ∈ readOnlyRegs) (v : Word) : s.writeReg r v = s := by
  fin_cases h <;> rfl

/-- Settles O46: the registers at the port, and the words of STATUS and the interrupt registers by their bits. -/
theorem reservedReadsZeroAndWritesAreIgnored : Obligations.ReservedReadsZeroAndWritesAreIgnored := by
  refine ⟨fun s r v hr hro => ?_, fun s off v hr low aligned hoff => ⟨?_, ?_⟩, fun s => ?_⟩
  · rw [portWrite_register hr, writeReg_readOnly hro]
    rfl
  · rw [portRead, serve_read_register hr low aligned, State.readRegs, regAt_reserved hoff]
    rfl
  · rw [portWrite, serve_write_register v hr low aligned, State.writeRegs, regAt_reserved hoff]
    rfl
  · exact ⟨rfl, statusWord_reserved _, irqWord_reserved _, irqWord_reserved _, logField_reserved _,
      logField_reserved _⟩

/-! ### CAP, STATUS and the error codes -/

/-- A field placed above all the bits of a word adds its weight. -/
theorem toNat_or_shiftLeft {lo x : Word} {n : Nat} (hlo : lo.toNat < 2 ^ n) (hx : 2 ^ n * x.toNat < 2 ^ 32) :
    (lo ||| x <<< n).toNat = lo.toNat + 2 ^ n * x.toNat := by
  rw [BitVec.toNat_or, BitVec.toNat_shiftLeft, Nat.shiftLeft_eq, mul_comm, Nat.mod_eq_of_lt hx, Nat.or_comm,
    ← Nat.two_pow_add_eq_or_of_lt hlo, add_comm]

/-- CAP as the sum of its fields (10_state.md R34). -/
theorem capWord_toNat {p : Config.Params} (hp : p.wf) :
    (capWord p).toNat = p.logdMax + 2 ^ 8 * p.logmMax + 2 ^ 16 * p.dmemLogw +
      2 ^ 24 * lognMax p + 2 ^ 31 * (p.cmulMode == .fused).toNat := by
  obtain ⟨hd, ⟨_, hm⟩, _, hw⟩ := hp
  have hn : lognMax p ≤ 17 := by
    unfold lognMax
    omega
  have field {x : Nat} (hx : x ≤ 19) : (BitVec.ofNat 32 x).toNat = x := Nat.mod_eq_of_lt (by omega)
  have mode : ((BitVec.ofBool (p.cmulMode == .fused)).setWidth 32 : Word).toNat = (p.cmulMode == .fused).toNat := by
    cases p.cmulMode <;> rfl
  have bit := Bool.toNat_le (p.cmulMode == .fused)
  have fd := field (hd.trans (by decide))
  have fm := field (hm.trans (by decide))
  have fw := field hw
  have fn := field (hn.trans (by decide))
  have s1 := toNat_or_shiftLeft (n := 8) (by rw [fd]; omega) (by rw [fm]; omega)
  have s2 := toNat_or_shiftLeft (n := 16) (by rw [s1]; omega) (by rw [fw]; omega)
  have s3 := toNat_or_shiftLeft (n := 24) (by rw [s2]; omega) (by rw [fn]; omega)
  have s4 := toNat_or_shiftLeft (n := 31) (by rw [s3]; omega) (by rw [mode]; omega)
  rw [capWord, bitAt, s4, s3, s2, s1, fd, fm, fw, fn, mode]

theorem capWord_defaults : capWord Config.defaults = 0x11121110 := by decide

theorem capWord_fields {p : Config.Params} (hp : p.wf) :
      ((capWord p).extractLsb' 0 5).toNat = p.logdMax ∧ (capWord p).extractLsb' 5 3 = 0 ∧
      ((capWord p).extractLsb' 8 5).toNat = p.logmMax ∧ (capWord p).extractLsb' 13 3 = 0 ∧
      ((capWord p).extractLsb' 16 5).toNat = p.dmemLogw ∧ (capWord p).extractLsb' 21 3 = 0 ∧
      ((capWord p).extractLsb' 24 5).toNat = max p.logdMax p.logmMax ∧
      (capWord p).extractLsb' 29 2 = 0 ∧ ((capWord p).getLsbD 31 = true ↔ p.cmulMode = .fused) := by
  have sum := capWord_toNat hp
  obtain ⟨hd, ⟨_, hm⟩, _, hw⟩ := hp
  have bit := Bool.toNat_le (p.cmulMode == .fused)
  have field (i n : Nat) : ((capWord p).extractLsb' i n).toNat = (capWord p).toNat / 2 ^ i % 2 ^ n := by
    rw [BitVec.extractLsb'_toNat, Nat.shiftRight_eq_div_pow]
  have gap {i n : Nat} (h : (capWord p).toNat / 2 ^ i % 2 ^ n = 0) : (capWord p).extractLsb' i n = 0 :=
    BitVec.eq_of_toNat_eq ((field i n).trans h)
  have top : (capWord p).getLsbD 31 = decide ((capWord p).toNat / 2 ^ 31 % 2 = 1) :=
    Nat.testBit_eq_decide_div_mod_eq
  have mode : p.cmulMode = .fused ↔ (p.cmulMode == .fused).toNat = 1 := by
    cases p.cmulMode <;> decide
  rw [field, field, field, field, top, mode, decide_eq_true_eq]
  have hn : max p.logdMax p.logmMax ≤ 17 := by omega
  unfold lognMax at sum
  generalize max p.logdMax p.logmMax = n at sum hn ⊢
  refine ⟨by omega, gap (by omega), by omega, gap (by omega), by omega, gap (by omega), by omega, gap (by omega),
    by omega⟩

theorem statusWord_fields (st : Status) :
    st.word.getLsbD 0 = st.busy ∧ st.word.getLsbD 1 = st.err ∧ st.word.extractLsb' 8 4 = st.errcode.code ∧
      st.word.getLsbD 16 = st.mcfgValid ∧ st.word.getLsbD 17 = st.ccfgValid := by
  refine ⟨?_, ?_, ?_, ?_, ?_⟩
  case refine_3 =>
    apply BitVec.eq_of_getLsbD_eq
    intro i hi
    have inside : 8 + i < 32 ∧ i < 32 := by omega
    have apart : 8 + i ≠ 0 ∧ 8 + i ≠ 1 ∧ 8 + i ≠ 16 ∧ 8 + i ≠ 17 := by omega
    simp [Status.word, hi, inside, apart, -BitVec.getLsbD_eq_getElem]
  all_goals simp [Status.word, -BitVec.getLsbD_eq_getElem]

/-- Settles O47: CAP as the sum of its fields, STATUS bit by bit. -/
theorem readOnlyRegisterFields : Obligations.ReadOnlyRegisterFields := by
  refine ⟨fun s => ⟨rfl, rfl, ?_, capWord_fields⟩, fun s => statusWord_fields s.status, by decide, fun e => ?_⟩
  · intro h
    rw [State.readReg, h, capWord_defaults]
  · cases e <;> decide

/-! ### The interrupt registers -/

theorem getLsbD_irqWord (b : IrqBits) (i : Nat) : b.word.getLsbD i =
    (decide (i = 0) && b.done || decide (i = 1) && b.err || decide (i = 2) && b.ovr) := by
  simp [IrqBits.word]

/-- A word that agrees with the three bits and is 0 above them is their word. -/
theorem eq_irqWord {x : Word} {b : IrqBits} (h0 : x.getLsbD 0 = b.done) (h1 : x.getLsbD 1 = b.err)
    (h2 : x.getLsbD 2 = b.ovr) (above : ∀ i, 3 ≤ i → x.getLsbD i = false) : x = b.word := by
  apply BitVec.eq_of_getLsbD_eq
  intro i _
  rw [getLsbD_irqWord]
  match i with
  | 0 => rw [h0]; simp
  | 1 => rw [h1]; simp
  | 2 => rw [h2]; simp
  | i + 3 => rw [above _ (by omega)]; simp

theorem getLsbD_irqWord_above (b : IrqBits) {i : Nat} (hi : 3 ≤ i) : b.word.getLsbD i = false := by
  rw [getLsbD_irqWord]
  simp [show i ≠ 0 by omega, show i ≠ 1 by omega, show i ≠ 2 by omega]

theorem irqWord_clear (b : IrqBits) (v : Word) : (b.clear v).word = b.word &&& ~~~v := by
  refine (eq_irqWord ?_ ?_ ?_ fun i hi => ?_).symm
  case refine_4 => rw [BitVec.getLsbD_and, getLsbD_irqWord_above b hi, Bool.false_and]
  all_goals
    rw [BitVec.getLsbD_and, BitVec.getLsbD_not, getLsbD_irqWord]
    simp [IrqBits.clear]

theorem irqWord_ofWord (v : Word) : (IrqBits.ofWord v).word = v &&& 7 := by
  have mask {i : Nat} (hi : 3 ≤ i) : (7 : Word).getLsbD i = false :=
    getLsbD_irqWord_above ⟨true, true, true⟩ hi
  refine (eq_irqWord ?_ ?_ ?_ fun i hi => ?_).symm
  case refine_4 => rw [BitVec.getLsbD_and, mask hi, Bool.and_false]
  all_goals
    rw [BitVec.getLsbD_and]
    exact Bool.and_true _

theorem irqWord_and (a b : IrqBits) :
    a.word &&& b.word = IrqBits.word ⟨a.done && b.done, a.err && b.err, a.ovr && b.ovr⟩ := by
  refine eq_irqWord ?_ ?_ ?_ fun i hi => ?_
  case refine_4 => rw [BitVec.getLsbD_and, getLsbD_irqWord_above a hi, Bool.false_and]
  all_goals
    rw [BitVec.getLsbD_and, getLsbD_irqWord, getLsbD_irqWord]
    simp

theorem irqWord_ne_zero (b : IrqBits) : b.word ≠ 0 ↔ (b.done || b.err || b.ovr) = true := by
  obtain ⟨d, e, o⟩ := b
  revert d e o
  decide

/-- Settles O48: a word of an interrupt register is given by its three bits. -/
theorem interruptRegistersAndLine : Obligations.InterruptRegistersAndLine := by
  refine ⟨fun s v hr => ?_, fun s v hr => ?_, rfl, fun s => ?_⟩
  · exact ⟨_, portWrite_register hr .irqStatus v, irqWord_clear _ _, rfl⟩
  · exact ⟨_, portWrite_register hr .irqEnable v, irqWord_ofWord _, rfl⟩
  · rw [State.readReg, State.readReg, irqWord_and, irqWord_ne_zero]
    rfl

end Sys2Proof.Machine
end

section
/-! PROOF. A command that writes an output buffer is its checks, then a body that reads and computes
(40_common.md R202 to R209). -/

namespace Sys2Proof.Machine

/-! ### Checks and bodies -/

/-- The input of a modular command: residues of the context's modulus (40_common.md R209). -/
def State.residueInputs (s : State) (k : Nat) : Except Stop (List Nat) :=
  checkResidues s.dReadResidue s.ctxMod 0 s.latch.src.toNat 0 (2 ^ k)

/-- The residue check of the table of ntt.usr (41_modular.md R252). -/
def State.residueTable (s : State) (k : Nat) : Except Stop (List Nat) :=
  checkResidues s.dReadResidue s.ctxMod tableTag s.latch.tbl.toNat 0 (2 ^ k)

/-- A modular command after its checks: residues in, `core`, residues out. -/
def State.residueTransform (s : State) (k : Nat) (core : List Nat → Except Stop (List Nat)) :
    Except Stop (List Entry) := do
  let x ← s.residueInputs k
  let A ← core x
  return residueEntries A

/-- A complex command after its checks: complex values in, the stages `ss` between `pre` and `post`, and out. -/
def State.cplxTransform {τ : Type} (s : State) (k : Nat) (tw : Nat → Nat → Except Stop τ)
    (bfly : τ → Cplx → Cplx → Cplx × Cplx) (ss : List Nat) (pre post : List Cplx → List Cplx) :
    Except Stop (List Entry) := do
  let x ← s.cplxInputs k
  let A ← runStages tw bfly k ss (pre x)
  return cplxEntries (post A)

/-- The checks of a command with an output buffer, before it reads its input. -/
def bufferChecks (s : State) : Instr → Except Stop Unit
  | .brev k => do s.checkLimit k; s.checkRange (2 ^ k) false; s.checkOverlap (2 ^ k) false
  | .nttFwd k | .nttInv k | .fttf k | .ftti k => do
    s.checkMcfg
    s.checkLimit k
    require (2 ^ k = s.ctxDegree) .len 0
    s.checkRange (2 ^ k) false
    s.checkOverlap (2 ^ k) false
  | .nttUsr k => do s.checkMcfg; s.checkLimit k; s.checkRange (2 ^ k) true; s.checkOverlap (2 ^ k) true
  | .fft k => do s.checkLimit k; s.checkRange (2 ^ k) true; s.checkOverlap (2 ^ k) true
  | .fftf k | .ffti k => s.fftChecks k
  | .emb k | .embi k => s.embChecks k
  | .nop | .mcfg | .ccfg | .chk _ => .ok ()

/-- What a command with an output buffer reads and computes after its checks; the others have no output. -/
def bufferBody (s : State) : Instr → Except Stop (List Entry)
  | .brev k => do
    let v ← readFrom s.dRead s.latch.src.toNat (2 ^ k)
    return brevVec k v
  | .nttFwd k => s.residueTransform k (nttCore s.ctxMod k s.fwdAt)
  | .nttInv k => s.residueTransform k (nttCore s.ctxMod k s.invAt)
  | .nttUsr k => s.residueTransform k fun x => do
    let _ ← s.residueTable k
    nttCore s.ctxMod k (fun j => s.dReadResidue (s.latch.tbl.toNat + j)) x
  | .fttf k => s.residueTransform k fun x => do
    let y ← twist s.ctxMod s.fwdAt 0 x
    nttCore s.ctxMod k s.fwdAt y
  | .ftti k => s.residueTransform k fun x => do
    let z ← nttCore s.ctxMod k s.invAt x
    twist s.ctxMod s.sinvAt 0 z
  | .fft k => s.cplxTransform k (fun st i => s.dReadCplx (s.latch.tbl.toNat + twiddleIndex k st i))
    (cbfly s.params.cmulMode) (stagesUp k) (brevVec k) id
  | .fftf k => s.cplxTransform k (fun st j => s.crootAt (fftfIndex s.ctxLen st j))
    (cbfly s.params.cmulMode) (stagesUp k) (brevVec k) id
  | .ffti k => s.cplxTransform k (fun st j => s.crootAt (fftiIndex s.ctxLen st j))
    (cbfly s.params.cmulMode) (stagesUp k) (brevVec k) (List.map (cscale k))
  | .emb k => s.cplxTransform k (s.rotatedRoot embIndex) (cbfly s.params.cmulMode) (stagesUp k) (brevVec k) id
  | .embi k => s.cplxTransform k (s.rotatedRoot embiIndex) (cbflyInv s.params.cmulMode) (stagesDown k) id
    fun A => (brevVec k A).map (cscale k)
  | .nop | .mcfg | .ccfg | .chk _ => .ok []

theorem phases_eq_bufferBody {k : Nat} {i : Instr} {s : State} (h : i ∈ bufferCommands k) :
    phases i s = (bufferChecks s i >>= fun _ => bufferBody s i).map fun vs =>
      { s with mem := s.mem.writeEntries (dmemAddr s.latch.dst.toNat) vs } := by
  fin_cases h
  · -- brev
    simp [phases, brevOutputs, bufferChecks, bufferBody]
  · -- nttFwd
    simp [phases, nttOutputs, bufferChecks, bufferBody, State.residueTransform, State.residueInputs]
  · -- nttInv
    simp [phases, nttOutputs, bufferChecks, bufferBody, State.residueTransform, State.residueInputs]
  · -- nttUsr
    simp [phases, nttUsrOutputs, bufferChecks, bufferBody, State.residueTransform, State.residueInputs,
      State.residueTable]
  · -- fttf
    simp [phases, fttfOutputs, fttInputs, bufferChecks, bufferBody, State.residueTransform, State.residueInputs]
  · -- ftti
    simp [phases, fttiOutputs, fttInputs, bufferChecks, bufferBody, State.residueTransform, State.residueInputs]
  · -- fft
    simp [phases, fftOutputs, bufferChecks, bufferBody, State.cplxTransform]
  · -- fftf
    simp [phases, fftfOutputs, bufferChecks, bufferBody, State.cplxTransform]
  · -- ffti
    simp [phases, fftiOutputs, bufferChecks, bufferBody, State.cplxTransform]
  · -- emb
    simp [phases, embOutputs, bufferChecks, bufferBody, State.cplxTransform]
  · -- embi
    simp [phases, embiOutputs, bufferChecks, bufferBody, State.cplxTransform]

/-- The commands without an output buffer, and those with one. -/
theorem instr_cases_buffer (i : Instr) :
    i = .nop ∨ i = .mcfg ∨ i = .ccfg ∨ (∃ k, i = .chk k) ∨ ∃ k, i ∈ bufferCommands k := by
  cases i <;> simp [bufferCommands]

/-! ### The output buffer -/

theorem check_then_ok {β : Type} {r : Except Stop Unit} {f : Unit → Except Stop β} {b : β} :
    (r >>= f) = .ok b ↔ r = .ok () ∧ f () = .ok b :=
  except_bind_ok.trans ⟨fun ⟨(), h⟩ => h, fun h => ⟨(), h⟩⟩

theorem bufferChecks_range {k : Nat} {i : Instr} {s : State} (hi : i ∈ bufferCommands k)
    (h : bufferChecks s i = .ok ()) : s.latch.dst.toNat + 2 ^ k ≤ dmemSize s.params := by
  fin_cases hi
  all_goals
    simp only [bufferChecks, State.fftChecks, State.embChecks, check_then_ok, State.checkRange_ok] at h
    tauto

theorem nttCore_length {a k : Nat} {T : Nat → Except Stop Nat} {x A : List Nat} (hx : x.length = 2 ^ k)
    (h : nttCore a k T x = .ok A) : A.length = 2 ^ k := by
  rw [runStages_length h, brevVec_length hx]

theorem twist_length {a i : Nat} {T : Nat → Except Stop Nat} {xs ys : List Nat} (h : twist a T i xs = .ok ys) :
    ys.length = xs.length := (twist_ok.1 h).1

theorem residueTransform_length {s : State} {k : Nat} {core : List Nat → Except Stop (List Nat)} {vs : List Entry}
    (hcore : ∀ x A, x.length = 2 ^ k → core x = .ok A → A.length = 2 ^ k)
    (h : s.residueTransform k core = .ok vs) : vs.length = 2 ^ k := by
  simp only [State.residueTransform, except_bind_ok, except_pure_ok] at h
  obtain ⟨x, hx, A, hA, rfl⟩ := h
  rw [residueEntries, List.length_map, hcore x A (checkResidues_ok.1 hx).1 hA]

theorem cplxTransform_length {τ : Type} {s : State} {k : Nat} {tw : Nat → Nat → Except Stop τ}
    {bfly : τ → Cplx → Cplx → Cplx × Cplx} {ss : List Nat} {pre post : List Cplx → List Cplx} {vs : List Entry}
    (hpre : ∀ x, x.length = 2 ^ k → (pre x).length = 2 ^ k)
    (hpost : ∀ x, x.length = 2 ^ k → (post x).length = 2 ^ k)
    (h : s.cplxTransform k tw bfly ss pre post = .ok vs) : vs.length = 2 ^ k := by
  simp only [State.cplxTransform, except_bind_ok, except_pure_ok] at h
  obtain ⟨x, hx, A, hA, rfl⟩ := h
  have stages : A.length = 2 ^ k := (runStages_length hA).trans (hpre x (readFrom_ok.1 hx).1)
  rw [cplxEntries, List.length_map, hpost A stages]

theorem bufferBody_length {k : Nat} {i : Instr} {s : State} {vs : List Entry} (hi : i ∈ bufferCommands k)
    (h : bufferBody s i = .ok vs) : vs.length = 2 ^ k := by
  have reversed (x : List Cplx) (hx : x.length = 2 ^ k) : (brevVec k x).length = 2 ^ k := brevVec_length hx
  have scaled (x : List Cplx) (hx : x.length = 2 ^ k) : (x.map (cscale k)).length = 2 ^ k := by
    rw [List.length_map, hx]
  fin_cases hi
  · -- brev
    simp only [bufferBody, except_bind_ok, except_pure_ok] at h
    obtain ⟨v, hv, rfl⟩ := h
    exact brevVec_length (readFrom_ok.1 hv).1
  · -- nttFwd
    exact residueTransform_length (fun _ _ => nttCore_length) h
  · -- nttInv
    exact residueTransform_length (fun _ _ => nttCore_length) h
  · -- nttUsr
    refine residueTransform_length (fun x A hx hA => ?_) h
    obtain ⟨_, _, hA⟩ := except_bind_ok.1 hA
    exact nttCore_length hx hA
  · -- fttf
    refine residueTransform_length (fun x A hx hA => ?_) h
    obtain ⟨y, hy, hA⟩ := except_bind_ok.1 hA
    exact nttCore_length ((twist_length hy).trans hx) hA
  · -- ftti
    refine residueTransform_length (fun x A hx hA => ?_) h
    obtain ⟨z, hz, hA⟩ := except_bind_ok.1 hA
    exact (twist_length hA).trans (nttCore_length hx hz)
  · -- fft
    exact cplxTransform_length reversed (fun _ => id) h
  · -- fftf
    exact cplxTransform_length reversed (fun _ => id) h
  · -- ffti
    exact cplxTransform_length reversed scaled h
  · -- emb
    exact cplxTransform_length reversed (fun _ => id) h
  · -- embi
    exact cplxTransform_length (fun _ => id) (fun x hx => scaled _ (reversed x hx)) h

/-- A buffer command that succeeds writes entries that lie in DMEM (40_common.md R207). -/
theorem phases_buffer_ok {k : Nat} {i : Instr} {s u : State} (hi : i ∈ bufferCommands k)
    (h : phases i s = .ok u) : ∃ vs, s.latch.dst.toNat + vs.length ≤ dmemSize s.params ∧
      u = { s with mem := s.mem.writeEntries (dmemAddr s.latch.dst.toNat) vs } := by
  rw [phases_eq_bufferBody hi, except_map_ok] at h
  obtain ⟨vs, h, rfl⟩ := h
  obtain ⟨_, checks, body⟩ := except_bind_ok.1 h
  exact ⟨vs, bufferBody_length hi body ▸ bufferChecks_range hi checks, rfl⟩

end Sys2Proof.Machine
end

section
/-! PROOF. Every step keeps the memory canonical and every written byte inside the implemented windows, in whole
words (20_memory.md R101, R103, R112, R120). -/

namespace Sys2Proof.Machine

/-! ### The canonical form -/

/-- What an abort makes unwritten is whole words (70_reset_and_hazards.md R453). -/
theorem abortedRanges_aligned {s : State} {i : Instr} {r : Nat × Nat} (h : r ∈ abortedRanges s i) :
    r.1 % 4 = 0 ∧ r.2 % 4 = 0 := by
  cases i <;> simp only [abortedRanges, List.mem_cons, List.not_mem_nil, or_false] at h
  case mcfg =>
    rcases h with rfl | rfl | rfl <;> simp only [fwdAddr, invAddr, sinvAddr, true_and] <;> omega
  all_goals
    subst h
    simp only [rotgAddr, dmemAddr, true_and]
    omega

/-- What erasing whole words keeps holds of the memory after an abort. -/
theorem abortedMem_induction {P : Memory → Prop} {s : State} (h : P s.mem)
    (erase : ∀ m lo n, lo % 4 = 0 → n % 4 = 0 → P m → P (m.erase lo n)) : P (abortedMem s) := by
  have erased : ∀ (rs : List (Nat × Nat)) (m : Memory), (∀ r ∈ rs, r.1 % 4 = 0 ∧ r.2 % 4 = 0) → P m →
      P (rs.foldl (fun m r => m.erase r.1 r.2) m) := by
    intro rs
    induction rs with
    | nil => exact fun _ _ hm => hm
    | cons r rs ih =>
      intro m hrs hm
      obtain ⟨⟨hlo, hn⟩, hrs⟩ := List.forall_mem_cons.1 hrs
      exact ih _ hrs (erase m r.1 r.2 hlo hn hm)
  unfold abortedMem
  split
  · exact h
  · split
    · exact h
    · exact erased _ _ (fun _ => abortedRanges_aligned) h

theorem Happens.memoryCanonical {s t : State} (h : Happens s t) (hs : s.mem.wf) : t.mem.wf := by
  cases h with
  | quiet same => exact same.mem.symm ▸ hs
  | accepted | failed => exact hs
  | hostWrote a v _ _ _ => exact Memory.wf_writeWord hs a v
  | reset _ _ _ mem =>
    rcases mem with h | h | h <;> rw [h]
    · exact hs
    · exact abortedMem_induction hs fun _ lo n _ _ hm => Memory.wf_erase hm lo n
    · exact List.Pairwise.nil
  | succeeded i u _ ok =>
    cases phases_ok ok with
    | unchanged => exact hs
    | buffer vs => exact Memory.wf_writeEntries hs _
    | mcfg _ => exact Memory.wf_writeDwords (Memory.wf_writeDwords (Memory.wf_writeDwords hs _) _) _
    | ccfg _ => exact Memory.wf_writeWords hs _

/-- Settles O54: all that happens to the memory is writes of words and erasures. -/
theorem stepKeepsMemoryCanonical : Obligations.StepKeepsMemoryCanonical :=
  fun _ _ hs h => (happens_of_step h).memoryCanonical hs

/-! ### The address map (20_memory.md R101) -/

theorem windowOf_regs_iff {p : Config.Params} {a : Nat} : windowOf p a = .regs ↔ a < 0x1000 := by
  unfold windowOf
  split_ifs <;> simp_all

theorem windowOf_readOnly_iff {p : Config.Params} {a : Nat} : windowOf p a = .readOnly ↔
    (0x100000 ≤ a ∧ a < 0x100000 + 8 * 2 ^ p.logdMax) ∨ (0x180000 ≤ a ∧ a < 0x180000 + 8 * 2 ^ p.logdMax) ∨
    (0x200000 ≤ a ∧ a < 0x200000 + 8 * 2 ^ p.logdMax) ∨
    (0x280000 ≤ a ∧ a < 0x280000 + 4 * 2 ^ (p.logmMax - 2)) := by
  unfold windowOf fwdAddr invAddr sinvAddr rotgAddr
  split_ifs <;> simp only [false_iff, true_iff] <;> omega

theorem sizes_le {p : Config.Params} (hp : p.wf) : 2 ^ p.logdMax ≤ 0x10000 ∧ 2 ^ (p.logmMax - 2) ≤ 0x8000 ∧
    2 ^ p.logmMax ≤ 0x20000 ∧ 2 ^ p.dmemLogw ≤ 0x80000 := by
  have pow {m n : Nat} (h : m ≤ n) : 2 ^ m ≤ 2 ^ n := Nat.pow_le_pow_right (by decide) h
  obtain ⟨hd, ⟨_, hm⟩, _, hw⟩ := hp
  exact ⟨pow hd, pow (n := 15) (by omega), pow hm, pow hw⟩

/-- With parameters in their ranges the tables end below CROOT. -/
theorem windowOf_readWrite_iff {p : Config.Params} {a : Nat} (hp : p.wf) : windowOf p a = .readWrite ↔
    (0x400000 ≤ a ∧ a < 0x400000 + 16 * (2 ^ p.logmMax + 1)) ∨
    (0x800000 ≤ a ∧ a < 0x800000 + 16 * 2 ^ p.dmemLogw) := by
  have sizes := sizes_le hp
  unfold windowOf fwdAddr invAddr sinvAddr rotgAddr crootAddr dmemAddr dmemSize
  split_ifs <;> simp only [false_iff, true_iff] <;> omega

/-- The offset lies in an implemented memory window. -/
def implemented (p : Config.Params) (a : Nat) : Prop := windowOf p a = .readOnly ∨ windowOf p a = .readWrite

/-- The `n` bytes from `a` on lie in implemented memory windows. -/
def implements (p : Config.Params) (a n : Nat) : Prop := ∀ b, a ≤ b → b < a + n → implemented p b

theorem implements.mono {p : Config.Params} {a n b k : Nat} (h : implements p a n) (hb : a ≤ b)
    (hk : b + k ≤ a + n) : implements p b k := fun c h1 h2 => h c (by omega) (by omega)

/-- Every window is whole words. -/
theorem implemented_congr {p : Config.Params} {a b : Nat} (hp : p.wf) (h : a / 4 = b / 4) :
    implemented p a ↔ implemented p b := by
  unfold implemented
  rw [windowOf_readOnly_iff, windowOf_readOnly_iff, windowOf_readWrite_iff hp, windowOf_readWrite_iff hp]
  omega

theorem implements_dmem {p : Config.Params} {e n : Nat} (hp : p.wf) (h : e + n ≤ dmemSize p) :
    implements p (dmemAddr e) (16 * n) := by
  intro b h1 h2
  unfold dmemAddr at h1 h2
  unfold dmemSize at h
  exact .inr ((windowOf_readWrite_iff hp).2 (.inr (by omega)))

theorem implements_tables {p : Config.Params} {d : Nat} (h : d ≤ 2 ^ p.logdMax) :
    implements p (fwdAddr 0) (8 * d) ∧ implements p (invAddr 0) (8 * d) ∧ implements p (sinvAddr 0) (8 * d) := by
  refine ⟨?_, ?_, ?_⟩
  all_goals
    intro b h1 h2
    simp only [fwdAddr, invAddr, sinvAddr] at h1 h2
    exact .inl (windowOf_readOnly_iff.2 (by omega))

theorem implements_rotg {p : Config.Params} {M : Nat} (hp : p.wf) (h : M ≤ 2 ^ p.logmMax) :
    implements p (rotgAddr 0) (4 * (M / 4)) := by
  have quarter : 2 ^ p.logmMax = 2 ^ (p.logmMax - 2) * 2 ^ 2 := (Nat.pow_sub_mul_pow 2 hp.2.1.1).symm
  intro b h1 h2
  simp only [rotgAddr] at h1 h2
  exact .inl (windowOf_readOnly_iff.2 (by omega))

/-! ### Memory inside the windows, in whole words -/

/-- `State.memoryMapped` of a memory by itself. -/
def Memory.mapped (p : Config.Params) (m : Memory) : Prop :=
  ∀ c ∈ m, implemented p c.1 ∧ (m.readWord (c.1 / 4 * 4)).isSome = true

theorem State.memoryMapped_iff {s : State} : s.memoryMapped ↔ s.mem.mapped s.params := Iff.rfl

theorem Memory.mem_writeWord {m : Memory} {a : Nat} {w : Word} {c : Host.Cell} (h : c ∈ m.writeWord a w) :
    (a ≤ c.1 ∧ c.1 < a + 4) ∨ c ∈ m := by
  unfold Memory.writeWord at h
  rcases Memory.mem_set h with rfl | h
  · exact .inl ⟨by simp, by simp⟩
  rcases Memory.mem_set h with rfl | h
  · exact .inl ⟨by simp, by simp⟩
  rcases Memory.mem_set h with rfl | h
  · exact .inl ⟨by simp, by simp⟩
  rcases Memory.mem_set h with rfl | h
  · exact .inl ⟨by simp, by simp⟩
  exact .inr h

section
variable {p : Config.Params} {m : Memory} {a : Nat}

theorem Memory.mapped_writeWord (hp : p.wf) (h : m.mapped p) (ha : a % 4 = 0) (hi : implemented p a) (w : Word) :
    (m.writeWord a w).mapped p := by
  intro c hc
  by_cases inside : c.1 / 4 * 4 = a
  · rw [inside, Memory.readWord_writeWord_same]
    exact ⟨(implemented_congr hp (by omega)).2 hi, rfl⟩
  · obtain ⟨himp, hread⟩ := h c ((Memory.mem_writeWord hc).resolve_left (by omega))
    rw [Memory.readWord_writeWord_other _ _ (by omega)]
    exact ⟨himp, hread⟩

theorem Memory.mapped_writeDword (hp : p.wf) (h : m.mapped p) (ha : a % 4 = 0) (hi : implements p a 8)
    (v : Dword) : (m.writeDword a v).mapped p :=
  mapped_writeWord hp (mapped_writeWord hp h ha (hi a (by omega) (by omega)) _) (by omega)
    (hi (a + 4) (by omega) (by omega)) _

theorem Memory.mapped_writeEntry (hp : p.wf) (h : m.mapped p) (ha : a % 4 = 0) (hi : implements p a 16)
    (v : Entry) : (m.writeEntry a v).mapped p :=
  mapped_writeDword hp (mapped_writeDword hp h ha (hi.mono (by omega) (by omega)) _) (by omega)
    (hi.mono (by omega) (by omega)) _

theorem Memory.mapped_writeWords {vs : List Word} (hp : p.wf) (h : m.mapped p) (ha : a % 4 = 0)
    (hi : implements p a (4 * vs.length)) : (m.writeWords a vs).mapped p := by
  induction vs generalizing m a with
  | nil => exact h
  | cons v vs ih =>
    rw [List.length_cons] at hi
    exact ih (mapped_writeWord hp h ha (hi a (by omega) (by omega)) v) (by omega)
      (hi.mono (by omega) (by omega))

theorem Memory.mapped_writeDwords {vs : List Dword} (hp : p.wf) (h : m.mapped p) (ha : a % 4 = 0)
    (hi : implements p a (8 * vs.length)) : (m.writeDwords a vs).mapped p := by
  induction vs generalizing m a with
  | nil => exact h
  | cons v vs ih =>
    rw [List.length_cons] at hi
    exact ih (mapped_writeDword hp h ha (hi.mono (by omega) (by omega)) v) (by omega)
      (hi.mono (by omega) (by omega))

theorem Memory.mapped_writeEntries {vs : List Entry} (hp : p.wf) (h : m.mapped p) (ha : a % 4 = 0)
    (hi : implements p a (16 * vs.length)) : (m.writeEntries a vs).mapped p := by
  induction vs generalizing m a with
  | nil => exact h
  | cons v vs ih =>
    rw [List.length_cons] at hi
    exact ih (mapped_writeEntry hp h ha (hi.mono (by omega) (by omega)) v) (by omega)
      (hi.mono (by omega) (by omega))

theorem Memory.mapped_erase {lo n : Nat} (h : m.mapped p) (hlo : lo % 4 = 0) (hn : n % 4 = 0) :
    (m.erase lo n).mapped p := by
  intro c hc
  obtain ⟨hm, outside⟩ := List.mem_filter.1 hc
  obtain ⟨himp, hread⟩ := h c hm
  have outside : c.1 < lo ∨ lo + n ≤ c.1 := by simpa using outside
  refine ⟨himp, ?_⟩
  rw [Memory.readWord_congr (n := m)]
  · exact hread
  · intro b h1 h2
    rw [Memory.get_erase, if_neg (by omega)]

end
/-! ### One event -/

theorem rotationTable_length (M x n : Nat) : (rotationTable M x n).length = n := by
  induction n generalizing x with
  | zero => rfl
  | succ n ih => simp [rotationTable, ih]

theorem mapped_mcfgCompute {s : State} (hp : s.params.wf) (hs : s.mem.mapped s.params) {st : Staging}
    (checks : mcfgChecks s.params st = .ok ()) : (mcfgCompute s st).mem.mapped s.params := by
  obtain ⟨_, limit, _⟩ := mcfgChecks_ok.1 checks
  obtain ⟨fwd, inv, sinv⟩ := implements_tables limit
  have length (w x : Nat) : (powerTable st.modulus.toNat w x st.degree.toNat).length = st.degree.toNat :=
    powerTable_length _ _ _ _
  have written := Memory.mapped_writeDwords hp hs rfl ((length st.root.toNat 1).symm ▸ fwd)
  have written := Memory.mapped_writeDwords hp written rfl ((length st.rootInv.toNat 1).symm ▸ inv)
  exact Memory.mapped_writeDwords hp written rfl ((length st.rootInv.toNat st.dInv.toNat).symm ▸ sinv)

theorem mapped_ccfgCompute {s : State} (hp : s.params.wf) (hs : s.mem.mapped s.params) {clen : Word}
    (checks : ccfgChecks s.params clen = .ok ()) : (ccfgCompute s clen).mem.mapped s.params := by
  obtain ⟨_, _, limit⟩ := ccfgChecks_ok.1 checks
  refine Memory.mapped_writeWords hp hs rfl ?_
  rw [rotationTable_length]
  exact implements_rotg hp limit

theorem mapped_phases {i : Instr} {s u : State} (hp : s.params.wf) (hs : s.memoryMapped)
    (h : phases i s = .ok u) : u.memoryMapped := by
  rcases instr_cases_buffer i with rfl | rfl | rfl | ⟨k, rfl⟩ | ⟨k, hi⟩
  case inr.inr.inr.inr =>
    obtain ⟨vs, fits, rfl⟩ := phases_buffer_ok hi h
    refine Memory.mapped_writeEntries hp hs ?_ (implements_dmem hp fits)
    unfold dmemAddr
    omega
  case inl =>
    cases h
    exact hs
  all_goals obtain ⟨_, checks, rfl⟩ := except_map_ok.1 h
  · exact mapped_mcfgCompute hp hs checks
  · exact mapped_ccfgCompute hp hs checks
  · exact hs

theorem Happens.memoryMapped {s t : State} (h : Happens s t) (hp : s.params.wf) (hs : s.memoryMapped) :
    t.memoryMapped := by
  cases h with
  | quiet same => rwa [State.memoryMapped_iff, same.mem, same.params]
  | accepted | failed => exact hs
  | hostWrote a v _ aligned writable => exact Memory.mapped_writeWord hp hs aligned (.inr writable) v
  | reset params _ _ mem =>
    rw [State.memoryMapped_iff, params]
    rcases mem with h | h | h <;> rw [h]
    · exact hs
    · exact abortedMem_induction (P := Memory.mapped s.params) hs
        fun _ _ _ hlo hn hm => Memory.mapped_erase hm hlo hn
    · exact nofun
  | succeeded i u _ ok =>
    have computed : u.memoryMapped := mapped_phases hp hs ok
    exact computed

/-- Settles O56: the host writes aligned words of CROOT and DMEM, a command writes only buffers and tables that its
checks have found inside their windows, and an abort erases whole words. -/
theorem stepKeepsMemoryMapped : Obligations.StepKeepsMemoryMapped := by
  intro s t hp hs h
  have event := happens_of_step h
  exact ⟨event.params, event.memoryMapped hp hs⟩

end Sys2Proof.Machine
end

section
/-! PROOF. The host port over the whole aperture: which accesses get ERROR, what a second access sees, and the memory
windows (20_memory.md R103 to R111). -/

namespace Sys2Proof.Machine

open Sys2Proof.Stated

/-! ### One access -/

theorem wholeWord_iff_legal {a : Access} : wholeWord a ↔ a.legal = true := by
  cases a <;> simp [wholeWord, Access.legal, and_assoc]

theorem serve_illegal {s : State} {a : Access} (live : s.rstN = true) (h : a.legal ≠ true) :
    serve a s = .next (s.respond (errorAnswer a)) := by
  cases a <;> simp [serve, live, h, errorAnswer]

theorem serve_legal_read {s : State} {addr : BitVec 24} {size : AccessSize} (live : s.rstN = true)
    (h : (Access.read addr size).legal = true) : serve (.read addr size) s = serveRead s addr.toNat := by
  simp [serve, live, h]

theorem serve_legal_write {s : State} {addr : BitVec 24} {size : AccessSize} {v : Word} {strobes : BitVec 4}
    (live : s.rstN = true) (h : (Access.write addr size v strobes).legal = true) :
    serve (.write addr size v strobes) s = serveWrite s addr.toNat v := by
  simp [serve, live, h]

/-- A read is refused outside the implemented windows, and in a memory window while BUSY = 1. -/
def readRefused (s : State) (a : Nat) : Prop :=
  windowOf s.params a = .unmapped ∨ (s.status.busy = true ∧ implemented s.params a)

/-- A write is refused where a read is, and in the tables. -/
def writeRefused (s : State) (a : Nat) : Prop := readRefused s a ∨ windowOf s.params a = .readOnly

theorem serveRead_refused {s : State} {a : Nat} (h : readRefused s a) :
    serveRead s a = .next (s.respond (.readError 0)) := by
  unfold serveRead
  rcases h with h | ⟨busy, h | h⟩ <;> simp [*]

theorem serveWrite_refused {s : State} {a : Nat} (h : writeRefused s a) (v : Word) :
    serveWrite s a v = .next (s.respond .writeError) := by
  unfold serveWrite
  rcases h with (h | ⟨busy, h | h⟩) | h <;> simp [*]

theorem serveRead_regs {s : State} {a : Nat} (h : windowOf s.params a = .regs) :
    serveRead s a = .next (s.respond (.readOkay (s.readRegs a))) := by
  simp [serveRead, h]

theorem serveWrite_regs {s : State} {a : Nat} (h : windowOf s.params a = .regs) (v : Word) :
    serveWrite s a v = .next ((s.writeRegs a v).respond .writeOkay) := by
  simp [serveWrite, h]

theorem serveRead_written {s : State} {a : Nat} {w : Word} (h : implemented s.params a) (idle : s.status.busy = false)
    (written : s.mem.readWord a = some w) : serveRead s a = .next (s.respond (.readOkay w)) := by
  unfold serveRead
  rcases h with h | h <;> simp [h, idle, written]

theorem serveRead_unwritten {s : State} {a : Nat} (h : implemented s.params a) (idle : s.status.busy = false)
    (unwritten : s.mem.readWord a = none) : serveRead s a = .fault (.uninitRead a) := by
  unfold serveRead
  rcases h with h | h <;> simp [h, idle, unwritten]

theorem serveWrite_memory {s : State} {a : Nat} (h : windowOf s.params a = .readWrite) (idle : s.status.busy = false)
    (v : Word) : serveWrite s a v = .next (State.respond { s with mem := s.mem.writeWord a v } .writeOkay) := by
  simp [serveWrite, h, idle]

/-- What is not refused goes to a register, or to an implemented memory window while BUSY = 0. -/
theorem not_readRefused {s : State} {a : Nat} (h : ¬readRefused s a) :
    windowOf s.params a = .regs ∨ (implemented s.params a ∧ s.status.busy = false) := by
  unfold readRefused implemented at *
  cases hw : windowOf s.params a <;> simp_all

theorem not_writeRefused {s : State} {a : Nat} (h : ¬writeRefused s a) :
    windowOf s.params a = .regs ∨ (windowOf s.params a = .readWrite ∧ s.status.busy = false) := by
  unfold writeRefused at h
  rcases not_readRefused fun refused => h (.inl refused) with regs | ⟨readOnly | readWrite, idle⟩
  · exact .inl regs
  · exact absurd (.inr readOnly) h
  · exact .inr ⟨readWrite, idle⟩

theorem serveRead_okay {s t : State} {a : Nat} (h : ¬readRefused s a) (served : serveRead s a = .next t) :
    ∃ v, t = s.respond (.readOkay v) := by
  rcases not_readRefused h with regs | ⟨memory, idle⟩
  · cases (serveRead_regs regs).symm.trans served
    exact ⟨_, rfl⟩
  · cases read : s.mem.readWord a with
    | some w =>
      cases (serveRead_written memory idle read).symm.trans served
      exact ⟨w, rfl⟩
    | none => cases (serveRead_unwritten memory idle read).symm.trans served

@[simp] theorem State.abortIfBusy_responses (s : State) : s.abortIfBusy.responses = s.responses := by
  rcases s.abortIfBusy_cases with h | h <;> simp [h]

@[simp] theorem State.abortIfBusy_rstN (s : State) : s.abortIfBusy.rstN = s.rstN := by
  rcases s.abortIfBusy_cases with h | h <;> simp [h]

/-- No register write answers the host or moves the reset pin. -/
theorem State.writeReg_port (s : State) (r : Reg) (v : Word) :
    (s.writeReg r v).responses = s.responses ∧ (s.writeReg r v).rstN = s.rstN := by
  cases r
  case ctrl =>
    simp only [State.writeReg]
    split
    · exact ⟨s.abortIfBusy_responses, s.abortIfBusy_rstN⟩
    · exact ⟨rfl, rfl⟩
  case cmd =>
    simp only [State.writeReg, State.writeCmd]
    split <;> exact ⟨rfl, rfl⟩
  all_goals exact ⟨rfl, rfl⟩

theorem State.writeRegs_port (s : State) (off : Nat) (v : Word) :
    (s.writeRegs off v).responses = s.responses ∧ (s.writeRegs off v).rstN = s.rstN := by
  unfold State.writeRegs
  split
  · exact s.writeReg_port _ v
  · exact ⟨rfl, rfl⟩

theorem serveWrite_rstN {s t : State} {a : Nat} {v : Word} (served : serveWrite s a v = .next t) :
    t.rstN = s.rstN := by
  by_cases refused : writeRefused s a
  · cases (serveWrite_refused refused v).symm.trans served
    rfl
  · rcases not_writeRefused refused with regs | ⟨memory, idle⟩
    · cases (serveWrite_regs regs v).symm.trans served
      exact (s.writeRegs_port a v).2
    · cases (serveWrite_memory memory idle v).symm.trans served
      rfl

theorem serveWrite_okay {s t : State} {a : Nat} {v : Word} (h : ¬writeRefused s a)
    (served : serveWrite s a v = .next t) : t.responses = .writeOkay :: s.responses := by
  rcases not_writeRefused h with regs | ⟨memory, idle⟩
  · cases (serveWrite_regs regs v).symm.trans served
    exact congrArg (Resp.writeOkay :: ·) (s.writeRegs_port a v).1
  · cases (serveWrite_memory memory idle v).symm.trans served
    rfl

/-! ### The cases of the ERROR response -/

theorem windowOf_unmapped_iff {p : Config.Params} {a : Nat} (hp : p.wf) (ha : a < 2 ^ 24) :
    windowOf p a = .unmapped ↔
      ((0x1000 ≤ a ∧ a ≤ 0xFFFFF) ∨ (0x2A0000 ≤ a ∧ a ≤ 0x3FFFFF)) ∨ beyondEntries p a := by
  have only : windowOf p a = .unmapped ↔
      ¬(windowOf p a = .regs ∨ windowOf p a = .readOnly ∨ windowOf p a = .readWrite) := by
    cases windowOf p a <;> simp
  rw [only, windowOf_regs_iff, windowOf_readOnly_iff, windowOf_readWrite_iff hp]
  have sizes := sizes_le hp
  unfold beyondEntries
  omega

theorem offsetOf_lt (a : Access) : offsetOf a < 2 ^ 24 := by
  cases a <;> exact BitVec.isLt _

/-- The five cases of 20_memory.md R108 by the window the offset leads to. -/
theorem errorCase_iff {s : State} {a : Access} (hp : s.params.wf) : errorCase s a ↔
    a.legal ≠ true ∨ readRefused s (offsetOf a) ∨ (isWrite a ∧ windowOf s.params (offsetOf a) = .readOnly) := by
  unfold errorCase readRefused implemented
  rw [wholeWord_iff_legal, windowOf_unmapped_iff hp (offsetOf_lt a), windowOf_readOnly_iff,
    windowOf_readWrite_iff hp]
  have top := offsetOf_lt a
  have sizes := sizes_le hp
  refine or_congr_right ?_
  unfold beyondEntries
  by_cases write : isWrite a <;> by_cases busy : s.status.busy = true <;>
    simp only [write, busy, true_and, false_and, or_false, false_or, Bool.false_eq_true] <;> omega

/-- Settles O41: the listed cases are an illegal access and the accesses that the port refuses by their window. -/
theorem errorResponseChangesNothing : Obligations.ErrorResponseChangesNothing := by
  intro s a hp live
  rw [errorCase_iff hp]
  by_cases legal : a.legal = true
  case neg => exact ⟨fun _ => serve_illegal live legal, fun h => absurd (.inl legal) h⟩
  case pos =>
    cases a with
    | read addr size =>
      rw [serve_legal_read live legal]
      refine ⟨fun h => serveRead_refused (by simpa [legal, isWrite, offsetOf] using h), fun h t served => ?_⟩
      obtain ⟨v, rfl⟩ := serveRead_okay (fun refused => h (.inr (.inl refused))) served
      exact ⟨.readOkay v, trivial, rfl⟩
    | write addr size v strobes =>
      rw [serve_legal_write live legal]
      refine ⟨fun h => serveWrite_refused (by simpa [legal, isWrite, offsetOf, writeRefused] using h) v,
        fun h t served => ?_⟩
      refine ⟨.writeOkay, trivial, serveWrite_okay (fun refused => h (.inr ?_)) served⟩
      exact refused.imp_right fun readOnly => ⟨trivial, readOnly⟩

end Sys2Proof.Machine
end

section
/-! PROOF. What a second access sees: no read has a side effect, and every access but a write to CMD or CTRL is
idempotent (20_memory.md R111). -/

namespace Sys2Proof.Machine

open Sys2Proof.Stated

/-! ### The same bytes written again -/

theorem Memory.set_set_same (m : Memory) (a : Nat) (v : Byte) : (m.set a v).set a v = m.set a v := by
  induction m with
  | nil => simp [Memory.set]
  | cons c m ih =>
    obtain ⟨b, w⟩ := c
    by_cases below : a < b
    · simp [Memory.set, below]
    · by_cases same : a = b
      · simp [Memory.set, same]
      · simp [Memory.set, below, same, ih]

/-- A write that changes nothing still changes nothing after a write further up. -/
theorem Memory.set_absorbed {m : Memory} {a b : Nat} {v : Byte} (u : Byte) (hab : a < b) (h : m.set a v = m) :
    (m.set b u).set a v = m.set b u := by
  induction m with
  | nil => cases h
  | cons c m ih =>
    obtain ⟨d, w⟩ := c
    unfold Memory.set at h
    split at h
    · exact absurd (congrArg List.length h) (by simp)
    · next notBelow =>
      split at h
      · next same =>
        obtain ⟨rfl, rfl⟩ : a = d ∧ v = w := by simpa using h
        have above : ¬b < a ∧ b ≠ a := by omega
        simp [Memory.set, above]
      · next ne =>
        have above : ¬b < d ∧ b ≠ d := by omega
        simp [Memory.set, above, notBelow, ne, ih (List.cons.inj h).2]

theorem Memory.writeWord_writeWord_same (m : Memory) (a : Nat) (w : Word) :
    (m.writeWord a w).writeWord a w = m.writeWord a w := by
  have kept {m : Memory} {i : Nat} (n : Nat) (h : m.set (a + i) (byteOf w i) = m) (hi : i < n) :
      (m.set (a + n) (byteOf w n)).set (a + i) (byteOf w i) = m.set (a + n) (byteOf w n) :=
    Memory.set_absorbed _ (by omega) h
  have again (m : Memory) (i : Nat) := Memory.set_set_same m (a + i) (byteOf w i)
  have b0 := kept 3 (kept 2 (kept 1 (again m 0) (by decide)) (by decide)) (by decide)
  have b1 := kept 3 (kept 2 (again (m.set a (byteOf w 0)) 1) (by decide)) (by decide)
  have b2 := kept 3 (again ((m.set a (byteOf w 0)).set (a + 1) (byteOf w 1)) 2) (by decide)
  have b3 := again (((m.set a (byteOf w 0)).set (a + 1) (byteOf w 1)).set (a + 2) (byteOf w 2)) 3
  rw [Nat.add_zero] at b0
  unfold Memory.writeWord
  rw [b0, b1, b2, b3]

/-! ### The same register written again -/

@[simp] theorem withLow_withLow (v : Dword) (w : Word) : withLow (withLow v w) w = withLow v w := by
  rw [withLow, highWord_withLow, withLow]

@[simp] theorem withHigh_withHigh (v : Dword) (w : Word) : withHigh (withHigh v w) w = withHigh v w := by
  rw [withHigh, lowWord_withHigh, withHigh]

@[simp] theorem IrqBits.clear_clear (b : IrqBits) (v : Word) : (b.clear v).clear v = b.clear v := by
  simp [IrqBits.clear]

theorem writeReg_writeReg_same {s : State} {r : Reg} (ctrl : r ≠ .ctrl) (cmd : r ≠ .cmd) (v : Word) (q : Resp) :
    ((s.writeReg r v).respond q).writeReg r v = (s.writeReg r v).respond q := by
  cases r
  case ctrl => exact absurd rfl ctrl
  case cmd => exact absurd rfl cmd
  all_goals simp [State.writeReg, State.respond]

theorem regAt_eq_some {off : Nat} {r : Reg} (h : regAt off = some r) : r.offset = off := by
  simpa using List.find?_some h

theorem writeRegs_writeRegs_same {s : State} {off : Nat} (ctrl : off ≠ 0x00C) (cmd : off ≠ 0x010) (v : Word)
    (q : Resp) : ((s.writeRegs off v).respond q).writeRegs off v = (s.writeRegs off v).respond q := by
  unfold State.writeRegs
  split
  · next r hr =>
    have hoff := regAt_eq_some hr
    refine writeReg_writeReg_same ?_ ?_ v q
    · rintro rfl
      exact ctrl hoff.symm
    · rintro rfl
      exact cmd hoff.symm
  · rfl

/-! ### The same access served again -/

/-- A read changes nothing but the list of answers, and no answer changes what it reads. -/
theorem serveRead_answer {s t : State} {a : Nat} (h : serveRead s a = .next t) :
    ∃ r, t = s.respond r ∧ serveRead t a = .next (t.respond r) := by
  have regs (r : Resp) : (s.respond r).readRegs a = s.readRegs a := by
    unfold State.readRegs
    split <;> simp
  by_cases refused : readRefused s a
  case pos =>
    cases (serveRead_refused refused).symm.trans h
    exact ⟨_, rfl, serveRead_refused (s := s.respond _) refused⟩
  case neg =>
    rcases not_readRefused refused with window | ⟨memory, idle⟩
    · cases (serveRead_regs window).symm.trans h
      refine ⟨_, rfl, ?_⟩
      rw [serveRead_regs (s := s.respond _) window, regs]
    · cases read : s.mem.readWord a with
      | some w =>
        cases (serveRead_written memory idle read).symm.trans h
        exact ⟨_, rfl, serveRead_written (s := s.respond _) memory idle read⟩
      | none => cases (serveRead_unwritten memory idle read).symm.trans h

/-- A write that is none to CMD or CTRL leaves a state in which it has no effect. -/
theorem serveWrite_again {s t : State} {a : Nat} {v : Word} (ctrl : a ≠ 0x00C) (cmd : a ≠ 0x010)
    (h : serveWrite s a v = .next t) : ∃ r, t.responses = r :: s.responses ∧ serveWrite t a v = .next (t.respond r) := by
  by_cases refused : writeRefused s a
  case pos =>
    cases (serveWrite_refused refused v).symm.trans h
    exact ⟨_, rfl, serveWrite_refused (s := s.respond _) refused v⟩
  case neg =>
    refine ⟨_, serveWrite_okay refused h, ?_⟩
    rcases not_writeRefused refused with window | ⟨memory, idle⟩
    · cases (serveWrite_regs window v).symm.trans h
      rw [serveWrite_regs (windowOf_regs_iff.2 (windowOf_regs_iff.1 window)), writeRegs_writeRegs_same ctrl cmd]
    · cases (serveWrite_memory memory idle v).symm.trans h
      rw [serveWrite_memory (s := State.respond { s with mem := s.mem.writeWord a v } .writeOkay) memory idle,
        State.respond_mem, Memory.writeWord_writeWord_same]
      rfl

theorem serve_live {s t : State} {a : Access} (h : serve a s = .next t) : s.rstN = true := by
  by_contra low
  simp [serve, Bool.eq_false_of_not_eq_true low] at h

theorem serve_read_answer {s t : State} {addr : BitVec 24} {size : AccessSize}
    (h : serve (.read addr size) s = .next t) :
    ∃ r, t = s.respond r ∧ serve (.read addr size) t = .next (t.respond r) := by
  have live := serve_live h
  by_cases legal : (Access.read addr size).legal = true
  case neg =>
    cases (serve_illegal live legal).symm.trans h
    exact ⟨_, rfl, serve_illegal (s := s.respond _) live legal⟩
  case pos =>
    rw [serve_legal_read live legal] at h
    obtain ⟨r, rfl, again⟩ := serveRead_answer h
    exact ⟨r, rfl, (serve_legal_read (s := s.respond r) live legal).trans again⟩

/-- Settles O42: reads see no answer given before, and writes store what is stored already. -/
theorem readsHaveNoSideEffect : Obligations.ReadsHaveNoSideEffect := by
  refine ⟨fun s t addr size => serve_read_answer, fun s t a other h => ?_⟩
  cases a with
  | read addr size =>
    obtain ⟨r, rfl, again⟩ := serve_read_answer h
    exact ⟨r, rfl, again⟩
  | write addr size v strobes =>
    have live := serve_live h
    obtain ⟨ctrl, cmd⟩ : addr.toNat ≠ 0x00C ∧ addr.toNat ≠ 0x010 := by
      simpa [isCommandOrReset, isWrite, offsetOf] using other
    by_cases legal : (Access.write addr size v strobes).legal = true
    case neg =>
      cases (serve_illegal live legal).symm.trans h
      exact ⟨_, rfl, serve_illegal (s := s.respond _) live legal⟩
    case pos =>
      rw [serve_legal_write live legal] at h
      obtain ⟨r, hr, again⟩ := serveWrite_again ctrl cmd h
      exact ⟨r, hr, (serve_legal_write ((serveWrite_rstN h).trans live) legal).trans again⟩

end Sys2Proof.Machine
end

section
/-! PROOF. The memory windows at the port, word by word (20_memory.md R104 to R107, R120). -/

namespace Sys2Proof.Machine

open Sys2Proof.Stated

/-! ### An implemented word at the port -/

section
variable {s : State} {off : Nat} (live : s.rstN = true) (idle : s.status.busy = false) (top : off < 2 ^ 24)
  (aligned : off % 4 = 0)

theorem toNat_offset {off : Nat} (top : off < 2 ^ 24) : (BitVec.ofNat 24 off).toNat = off := Nat.mod_eq_of_lt top

include live top aligned

theorem portRead_eq_serveRead : portRead off s = serveRead s off := by
  rw [portRead, serve_legal_read live (by simp [Access.legal, toNat_offset top, aligned]), toNat_offset top]

theorem portWrite_eq_serveWrite (v : Word) : portWrite off v s = serveWrite s off v := by
  rw [portWrite, serve_legal_write live (by simp [Access.legal, toNat_offset top, aligned]), toNat_offset top]

include idle

theorem portRead_written {v : Word} (h : implemented s.params off) (written : s.mem.readWord off = some v) :
    portRead off s = .next (answered s (.readOkay v)) :=
  (portRead_eq_serveRead live top aligned).trans (serveRead_written h idle written)

theorem portRead_unwritten (h : implemented s.params off) (unwritten : s.mem.readWord off = none) :
    portRead off s = .fault (.uninitRead off) :=
  (portRead_eq_serveRead live top aligned).trans (serveRead_unwritten h idle unwritten)

theorem portWrite_memory (h : windowOf s.params off = .readWrite) (v : Word) :
    portWrite off v s = .next (State.respond { s with mem := s.mem.writeWord off v } .writeOkay) :=
  (portWrite_eq_serveWrite live top aligned v).trans (serveWrite_memory h idle v)

end

/-! ### Entries by their words -/

theorem State.loadDword_ok_iff {s : State} {b : Nat} {v : Dword} :
    s.loadDword b = .ok v ↔ ∀ u < 2, s.mem.readWord (b + 4 * u) = some (v.extractLsb' (32 * u) 32) := by
  rw [State.loadDword_ok]
  constructor
  · rintro ⟨h0, h1⟩ u hu
    interval_cases u
    · exact h0
    · exact h1
  · exact fun h => ⟨h 0 (by decide), h 1 (by decide)⟩

theorem State.loadEntry_ok_iff {s : State} {b : Nat} {E : Entry} :
    s.loadEntry b = .ok E ↔ ∀ u < 4, s.mem.readWord (b + 4 * u) = some (E.extractLsb' (32 * u) 32) := by
  have half {i j : Nat} (hj : j + 32 ≤ 64) : (E.extractLsb' i 64).extractLsb' j 32 = E.extractLsb' (i + j) 32 := by
    apply BitVec.eq_of_getLsbD_eq
    intro l hl
    have inside : j + l < 64 := by omega
    simp only [BitVec.getLsbD_extractLsb', hl, inside, decide_true, Bool.true_and, Nat.add_assoc]
  rw [State.loadEntry_ok, State.loadDword_ok, State.loadDword_ok, half (by decide), half (by decide),
    half (by decide), half (by decide)]
  constructor
  · rintro ⟨⟨h0, h1⟩, h2, h3⟩ u hu
    interval_cases u
    · exact h0
    · exact h1
    · exact h2
    · exact h3
  · exact fun h => ⟨⟨h 0 (by decide), h 1 (by decide)⟩, h 2 (by decide), h 3 (by decide)⟩

theorem State.loadEntry_exists {s : State} {b : Nat} (h : ∀ u < 4, ∃ w, s.mem.readWord (b + 4 * u) = some w) :
    ∃ E, s.loadEntry b = .ok E := by
  obtain ⟨w0, h0⟩ := h 0 (by decide)
  obtain ⟨w1, h1⟩ := h 1 (by decide)
  obtain ⟨w2, h2⟩ := h 2 (by decide)
  obtain ⟨w3, h3⟩ := h 3 (by decide)
  simp only [State.loadEntry, State.loadDword, except_bind_ok, except_pure_ok, State.loadWord_ok]
  exact ⟨_, _, ⟨w0, h0, w1, h1, rfl⟩, _, ⟨w2, h2, w3, h3, rfl⟩, rfl⟩

/-- A word written into an entry replaces its 32 bits and no other (20_memory.md R104). -/
theorem State.loadEntry_writeWord {s t : State} {b w : Nat} {v : Word} {E : Entry}
    (ht : t.mem = s.mem.writeWord (b + 4 * w) v) (h : s.loadEntry b = .ok E) :
    ∃ F, t.loadEntry b = .ok F ∧
      ∀ u, u < 4 → F.extractLsb' (32 * u) 32 = if u = w then v else E.extractLsb' (32 * u) 32 := by
  have word (u : Nat) (hu : u < 4) :
      t.mem.readWord (b + 4 * u) = some (if u = w then v else E.extractLsb' (32 * u) 32) := by
    rw [ht]
    split
    · next same => rw [same, Memory.readWord_writeWord_same]
    · rw [Memory.readWord_writeWord_other _ _ (by omega)]
      exact State.loadEntry_ok_iff.1 h u hu
  obtain ⟨F, hF⟩ := State.loadEntry_exists fun u hu => ⟨_, word u hu⟩
  refine ⟨F, hF, fun u hu => ?_⟩
  exact Option.some.inj ((State.loadEntry_ok_iff.1 hF u hu).symm.trans (word u hu))

/-- Settles O43: the offset of each word of an entry is an aligned one of its window. -/
theorem memoryWindows : Obligations.MemoryWindows := by
  refine ⟨fun s b e w hp live idle hw hb => ?_, fun s b i w hp live idle hw hb hi => ?_,
    fun s j v hp live idle hj read => ?_, fun s off v hp live low high => ?_⟩
  · have sizes := sizes_le hp
    have top : b + 4 * w < 2 ^ 24 := by omega
    have aligned : (b + 4 * w) % 4 = 0 := by omega
    have writable : windowOf s.params (b + 4 * w) = .readWrite := (windowOf_readWrite_iff hp).2 (by omega)
    have read {v : Word} := portRead_written live idle top aligned (v := v) (.inr writable)
    refine ⟨fun v => read, fun E hE => read (State.loadEntry_ok_iff.1 hE w hw), fun v => ?_⟩
    refine ⟨_, portWrite_memory live idle top aligned writable v, rfl, fun a ha => ?_, ?_, fun E => ?_⟩
    · exact Memory.get_writeWord_other _ _ ha
    · exact Memory.readWord_writeWord_same _ _ _
    · exact State.loadEntry_writeWord rfl
  · have sizes := sizes_le hp
    have table : windowOf s.params (b + 8 * i + 4 * w) = .readOnly := windowOf_readOnly_iff.2 (by omega)
    have read {v : Word} := portRead_written live idle (off := b + 8 * i + 4 * w) (by omega) (by omega) (v := v)
      (.inl table)
    exact ⟨fun v => read, fun v hv => read (State.loadDword_ok_iff.1 hv w hw)⟩
  · have sizes := sizes_le hp
    have table : windowOf s.params (0x280000 + 4 * j) = .readOnly := windowOf_readOnly_iff.2 (by omega)
    exact portRead_written live idle (by omega) (by omega) (.inl table) (State.loadWord_ok.1 read)
  · have offset := toNat_offset (off := off) (by omega)
    refine (errorResponseChangesNothing s _ hp live).1 (.inr (.inr (.inr (.inl ⟨trivial, ?_⟩))))
    simp only [offsetOf, offset]
    exact ⟨low, high⟩

end Sys2Proof.Machine
end

section
/-! PROOF. An unwritten word that a command reads is the fault UNINIT_READ (20_memory.md R120,
70_reset_and_hazards.md R454). -/

namespace Sys2Proof.Machine

open Sys2Proof.Stated

/-! ### The checks that have passed -/

theorem firstFailing_eq_none {cs : List Check} : firstFailing cs = none ↔ ∀ c ∈ cs, c.1 = false := by
  simp [firstFailing]

theorem limitCheck_passes {s : State} {k : Nat} : (limitCheck s k).1 = false ↔ s.checkLimit k = .ok () := by
  rw [State.checkLimit, require_ok, limitCheck, decide_eq_false_iff_not, not_lt, lognMax]

theorem rangeChecks_pass {s : State} {n : Nat} {useTbl : Bool} :
    (∀ c ∈ rangeChecks s n useTbl, c.1 = false) ↔ s.checkRange n useTbl = .ok () := by
  cases useTbl <;> simp [rangeChecks, State.checkRange_ok, dmemSize]

theorem rangesMeet_eq_false {n b c : Nat} : rangesMeet n b c = false ↔ apart n b c := by
  simp only [rangesMeet, Bool.and_eq_false_iff, decide_eq_false_iff_not]
  omega

theorem overlapChecks_pass {s : State} {n : Nat} {useTbl : Bool} :
    (∀ c ∈ overlapChecks s n useTbl, c.1 = false) ↔ s.checkOverlap n useTbl = .ok () := by
  have src : (decide (s.latch.src ≠ s.latch.dst) && rangesMeet n s.latch.src.toNat s.latch.dst.toNat) = false ↔
      s.latch.src = s.latch.dst ∨ apart n s.latch.src.toNat s.latch.dst.toNat := by
    rw [Bool.and_eq_false_iff, rangesMeet_eq_false, decide_eq_false_iff_not, not_not]
  have tbl : (useTbl && rangesMeet n s.latch.tbl.toNat s.latch.dst.toNat) = false ↔
      (useTbl = true → apart n s.latch.tbl.toNat s.latch.dst.toNat) := by
    rw [Bool.and_eq_false_iff, rangesMeet_eq_false, ← Bool.not_eq_true, imp_iff_not_or]
  rw [overlapChecks, List.forall_mem_cons, List.forall_mem_singleton, src, tbl, State.checkOverlap_ok]

/-- The listed checks of a buffer command are those it makes before it reads its input. -/
theorem bufferChecks_ok {k : Nat} {i : Instr} {s : State} (hi : i ∈ bufferCommands k) :
    bufferChecks s i = .ok () ↔ checksPass s i := by
  unfold checksPass
  rw [firstFailing_eq_none]
  fin_cases hi
  all_goals
    simp only [bufferChecks, State.checkMcfg, State.checkCcfg, State.fftChecks, State.embChecks, State.chkChecks,
      check_then_ok, require_ok, checkList, List.forall_mem_append, List.forall_mem_cons, limitCheck_passes,
      rangeChecks_pass, overlapChecks_pass]
    simp [State.ctxDegree, State.ctxLen, and_assoc]

/-! ### Faults of the shared operations -/

/-- The result is the fault UNINIT_READ. -/
def faults {α : Type} (r : Except Stop α) : Prop := ∃ a, r = .error (.fault (.uninitRead a))

/-- The result is a value or the fault UNINIT_READ, and raises no error. -/
def raisesNothing {α : Type} (r : Except Stop α) : Prop := ∀ e, r = .error e → faults r

section
variable {α β τ : Type}

theorem faults.ne_ok {r : Except Stop α} (h : faults r) (v : α) : r ≠ .ok v := by
  obtain ⟨a, rfl⟩ := h
  nofun

theorem faults_of_ne_ok {r : Except Stop α} (h : raisesNothing r) (ne : ∀ v, r ≠ .ok v) : faults r := by
  cases hr : r with
  | ok v => exact absurd hr (ne v)
  | error e => exact hr ▸ h e hr

theorem faults.bind {r : Except Stop α} (h : faults r) (f : α → Except Stop β) : faults (r >>= f) := by
  obtain ⟨a, rfl⟩ := h
  exact ⟨a, rfl⟩

theorem faults_bind {r : Except Stop α} {f : α → Except Stop β} (h : raisesNothing r)
    (hf : ∀ x, r = .ok x → faults (f x)) : faults (r >>= f) := by
  cases r with
  | ok x => exact hf x rfl
  | error e => exact (h e rfl).bind f

theorem faults_bind_ok {r : Except Stop α} {x : α} {f : α → Except Stop β} (hr : r = .ok x) (hf : faults (f x)) :
    faults (r >>= f) := hr ▸ hf

theorem faults.map {r : Except Stop α} (h : faults r) (f : α → β) : faults (r.map f) := by
  obtain ⟨a, rfl⟩ := h
  exact ⟨a, rfl⟩

theorem raisesNothing_ok (v : α) : raisesNothing (.ok v : Except Stop α) := nofun

theorem raisesNothing_bind {r : Except Stop α} {f : α → Except Stop β} (h : raisesNothing r)
    (hf : ∀ x, raisesNothing (f x)) : raisesNothing (r >>= f) := by
  cases r with
  | ok x => exact hf x
  | error e => exact fun _ _ => (h e rfl).bind f

theorem raisesNothing_map {r : Except Stop α} {f : α → β} (h : raisesNothing r) :
    raisesNothing (r.map f) :=
  fun e he => (h e (except_map_error.1 he)).map f

end

theorem raisesNothing_loadWord (s : State) (a : Nat) : raisesNothing (s.loadWord a) := by
  intro e h
  obtain ⟨_, rfl⟩ := State.loadWord_error.1 h
  exact ⟨a, h⟩

theorem raisesNothing_loadDword (s : State) (a : Nat) : raisesNothing (s.loadDword a) := by
  intro e h
  obtain ⟨b, rfl, _⟩ := State.loadDword_error h
  exact ⟨b, h⟩

theorem raisesNothing_loadEntry (s : State) (a : Nat) : raisesNothing (s.loadEntry a) := by
  intro e h
  obtain ⟨b, rfl, _⟩ := State.loadEntry_error h
  exact ⟨b, h⟩

section
variable {s : State} {a w : Nat}

theorem faults_loadWord (h : s.mem.readWord a = none) : faults (s.loadWord a) :=
  ⟨a, State.loadWord_error.2 ⟨h, rfl⟩⟩

theorem faults_loadDword (hw : w < 2) (h : s.mem.readWord (a + 4 * w) = none) : faults (s.loadDword a) :=
  faults_of_ne_ok (raisesNothing_loadDword s a) fun v hv => by
    simpa [h] using State.loadDword_ok_iff.1 hv w hw

theorem faults_loadEntry (hw : w < 4) (h : s.mem.readWord (a + 4 * w) = none) : faults (s.loadEntry a) :=
  faults_of_ne_ok (raisesNothing_loadEntry s a) fun v hv => by
    simpa [h] using State.loadEntry_ok_iff.1 hv w hw

end

section
variable {α τ : Type}

theorem raisesNothing_readFrom {f : Nat → Except Stop α} (hf : ∀ i, raisesNothing (f i)) (i n : Nat) :
    raisesNothing (readFrom f i n) := by
  induction n generalizing i with
  | zero => exact raisesNothing_ok []
  | succ n ih =>
    exact raisesNothing_bind (hf i) fun _ => raisesNothing_bind (ih (i + 1)) fun _ => raisesNothing_ok _

theorem raisesNothing_runStages {tw : Nat → Nat → Except Stop τ} (ht : ∀ s i, raisesNothing (tw s i))
    (bfly : τ → α → α → α × α) (k : Nat) (ss : List Nat) (A : List α) :
    raisesNothing (runStages tw bfly k ss A) := by
  intro e h
  obtain ⟨st, _, p, _, hp⟩ := runStages_error h
  obtain ⟨a, ha⟩ := ht st p.2.2 e hp
  cases hp.symm.trans ha
  exact ⟨a, h⟩

theorem faults_readFrom {f : Nat → Except Stop α} {i j n : Nat} (hf : ∀ i, raisesNothing (f i)) (hj : j < n)
    (h : faults (f (i + j))) : faults (readFrom f i n) := by
  refine faults_of_ne_ok (raisesNothing_readFrom hf i n) fun vs hvs => ?_
  obtain ⟨rfl, read⟩ := readFrom_ok.1 hvs
  exact h.ne_ok _ (read j _ (List.getElem?_eq_getElem hj))

theorem faults_runStages {tw : Nat → Nat → Except Stop τ} {bfly : τ → α → α → α × α} {k st j : Nat}
    {ss : List Nat} {A : List α} (ht : ∀ s i, raisesNothing (tw s i)) (hss : st ∈ ss) (h1 : 1 ≤ st) (h2 : st ≤ k)
    (hj : j < 2 ^ (st - 1)) (h : faults (tw st j)) : faults (runStages tw bfly k ss A) := by
  refine faults_of_ne_ok (raisesNothing_runStages ht bfly k ss A) fun B hB => ?_
  obtain ⟨p, hp, rfl⟩ := (stagePairs_index h1 h2).2 hj
  obtain ⟨v, hv⟩ := runStages_reads hB st hss p hp
  exact h.ne_ok v hv

end

/-! ### Modular commands -/

theorem raisesNothing_twist {T : Nat → Except Stop Nat} (hT : ∀ i, raisesNothing (T i)) (a i : Nat)
    (xs : List Nat) : raisesNothing (twist a T i xs) := by
  induction xs generalizing i with
  | nil => exact raisesNothing_ok []
  | cons x xs ih =>
    exact raisesNothing_bind (hT i) fun _ => raisesNothing_bind (ih (i + 1)) fun _ => raisesNothing_ok _

theorem faults_twist {T : Nat → Except Stop Nat} {a j : Nat} {xs : List Nat} (hT : ∀ i, raisesNothing (T i))
    (hj : j < xs.length) (h : faults (T j)) : faults (twist a T 0 xs) := by
  refine faults_of_ne_ok (raisesNothing_twist hT a 0 xs) fun ys hys => ?_
  obtain ⟨t, ht, _⟩ := (twist_ok.1 hys).2 j _ (List.getElem?_eq_getElem hj)
  rw [Nat.zero_add] at ht
  exact h.ne_ok t ht

/-- The last stage uses every even index of the table (41_modular.md R256). -/
theorem twiddleIndex_last (k j : Nat) : twiddleIndex k k j = 2 * j := by
  rw [twiddleIndex, Nat.add_sub_cancel, Nat.shiftLeft_eq, pow_one, mul_comm]

theorem lastStage_pair {k j : Nat} (h : 2 * j + 2 ≤ 2 ^ k) : 1 ≤ k ∧ j < 2 ^ (k - 1) := by
  cases k with
  | zero => simp at h
  | succ k =>
    rw [pow_succ] at h
    rw [Nat.add_sub_cancel]
    omega

theorem faults_nttCore {T : Nat → Except Stop Nat} {a k j : Nat} {x : List Nat} (hT : ∀ i, raisesNothing (T i))
    (hj : 2 * j + 2 ≤ 2 ^ k) (h : faults (T (2 * j))) : faults (nttCore a k T x) := by
  obtain ⟨h1, hj⟩ := lastStage_pair hj
  exact faults_runStages (fun s i => hT (twiddleIndex k s i)) (mem_stagesUp.2 ⟨h1, le_rfl⟩) h1 le_rfl hj
    (by rwa [twiddleIndex_last])

/-- A residue check stops at the first element that cannot be read, when those before it are residues
(40_common.md R209; log 9). -/
theorem faults_checkResidues {f : Nat → Except Stop Nat} {a : Nat} {tag : Word} {base : Nat} {x : List Nat} :
    ∀ {j n : Nat}, x.length < n → (∀ i v, x[i]? = some v → f (base + j + i) = .ok v ∧ v < a) →
      faults (f (base + j + x.length)) → faults (checkResidues f a tag base j n) := by
  induction x with
  | nil =>
    intro j n hn _ h
    obtain ⟨n, rfl⟩ : ∃ m, n = m + 1 := ⟨n - 1, by simp at hn; omega⟩
    exact faults.bind h _
  | cons v x ih =>
    intro j n hn residues h
    obtain ⟨n, rfl⟩ : ∃ m, n = m + 1 := ⟨n - 1, by simp at hn; omega⟩
    obtain ⟨hv, lt⟩ := residues 0 v rfl
    refine faults_bind_ok hv (faults_bind_ok (x := ()) (require_ok.2 lt) (faults.bind (ih ?_ ?_ ?_) _))
    · simpa using hn
    · intro i u hu
      rw [← Nat.add_assoc, Nat.add_right_comm _ 1 i]
      exact residues (i + 1) u hu
    · rwa [← Nat.add_assoc, Nat.add_right_comm _ 1]

section
variable {s : State} {k : Nat} {x : List Nat}

theorem faults_residueCheck {base : Nat} {tag : Word} (short : x.length < 2 ^ k)
    (residues : residuesAt s base s.ctxMod x) (h : faults (s.dReadResidue (base + x.length))) :
    faults (checkResidues s.dReadResidue s.ctxMod tag base 0 (2 ^ k)) :=
  faults_checkResidues short residues h

theorem residueInputs_ok (full : x.length = 2 ^ k) (residues : residuesAt s s.latch.src.toNat s.ctxMod x) :
    s.residueInputs k = .ok x := checkResidues_ok.2 ⟨full, residues⟩

theorem faults_residueTransform_inputs {core : List Nat → Except Stop (List Nat)} (h : faults (s.residueInputs k)) :
    faults (s.residueTransform k core) := h.bind _

theorem faults_residueTransform_core {core : List Nat → Except Stop (List Nat)} (hx : s.residueInputs k = .ok x)
    (h : faults (core x)) : faults (s.residueTransform k core) := faults_bind_ok hx (h.bind _)

end

theorem raisesNothing_nttCore {T : Nat → Except Stop Nat} (hT : ∀ i, raisesNothing (T i)) (a k : Nat)
    (x : List Nat) : raisesNothing (nttCore a k T x) :=
  raisesNothing_runStages (fun s i => hT (twiddleIndex k s i)) _ _ _ _

/-! ### Complex commands -/

theorem raisesNothing_dReadCplx (s : State) (e : Nat) : raisesNothing (s.dReadCplx e) :=
  raisesNothing_map (raisesNothing_loadEntry s _)

theorem raisesNothing_crootAt (s : State) (k : Nat) : raisesNothing (s.crootAt k) :=
  raisesNothing_map (raisesNothing_loadEntry s _)

theorem raisesNothing_rotatedRoot (s : State) (index : Nat → Nat → Nat → Nat) (st j : Nat) :
    raisesNothing (s.rotatedRoot index st j) :=
  raisesNothing_bind (raisesNothing_map (raisesNothing_loadWord s _)) fun _ => raisesNothing_crootAt s _

section
variable {τ : Type} {s : State} {k : Nat} {tw : Nat → Nat → Except Stop τ} {bfly : τ → Cplx → Cplx → Cplx × Cplx}
  {ss : List Nat} {pre post : List Cplx → List Cplx}

theorem faults_cplxTransform_inputs {j : Nat} (hj : j < 2 ^ k) (h : faults (s.dReadCplx (s.latch.src.toNat + j))) :
    faults (s.cplxTransform k tw bfly ss pre post) :=
  (faults_readFrom (raisesNothing_dReadCplx s) hj h).bind _

theorem faults_cplxTransform_root {st j : Nat} (ht : ∀ s i, raisesNothing (tw s i)) (hss : st ∈ ss) (h1 : 1 ≤ st)
    (h2 : st ≤ k) (hj : j < 2 ^ (st - 1)) (h : faults (tw st j)) :
    faults (s.cplxTransform k tw bfly ss pre post) :=
  faults_bind (raisesNothing_readFrom (raisesNothing_dReadCplx s) _ _) fun _ _ =>
    (faults_runStages ht hss h1 h2 hj h).bind _

end

/-! ### The commands -/

section
variable {s : State} {k : Nat} {i : Instr}

/-- A command whose checks have passed faults when its body does. -/
theorem exec_faults (hi : i ∈ bufferCommands k) (pass : checksPass s i) (h : faults (bufferBody s i)) :
    ∃ a, exec i s = .fault (.uninitRead a) := by
  obtain ⟨a, ha⟩ := faults_bind_ok (f := fun _ => bufferBody s i) ((bufferChecks_ok hi).2 pass) h
  refine ⟨a, exec_fault.2 ?_⟩
  rw [phases_eq_bufferBody hi]
  exact except_map_error.2 ha

theorem bufferBody_faults_wholeEntry {j : Nat} (hi : i ∈ wholeEntryCommands k) (hj : j < 2 ^ k)
    (h : faults (s.dRead (s.latch.src.toNat + j))) : faults (bufferBody s i) := by
  fin_cases hi
  · -- brev
    exact (faults_readFrom (fun e => raisesNothing_loadEntry s (dmemAddr e)) hj h).bind _
  all_goals exact faults_cplxTransform_inputs hj (h.map _)

theorem bufferBody_faults_residues (hi : i ∈ modularCommands k) (h : faults (s.residueInputs k)) :
    faults (bufferBody s i) := by
  fin_cases hi <;> exact faults_residueTransform_inputs h

theorem bufferBody_faults_modularTable {a : Nat} {x : List Nat}
    (hi : i ∈ [.nttFwd k, .nttInv k, .fttf k, .ftti k]) (full : x.length = 2 ^ k)
    (residues : residuesAt s s.latch.src.toNat s.ctxMod x) (reads : readsTableWord s a i)
    (unwritten : s.mem.readWord a = none) : faults (bufferBody s i) := by
  have inputs := residueInputs_ok full residues
  have table {b w : Nat} (hw : w < 2) (h : s.mem.readWord (b + 4 * w) = none) :
      faults ((s.loadDword b).map BitVec.toNat) := (faults_loadDword hw h).map _
  have quiet (b : Nat → Nat) (j : Nat) : raisesNothing ((s.loadDword (b j)).map BitVec.toNat) :=
    raisesNothing_map (raisesNothing_loadDword s _)
  fin_cases hi
  · -- nttFwd
    obtain ⟨j, w, hj, hw, rfl⟩ := reads
    exact faults_residueTransform_core inputs (faults_nttCore (quiet fwdAddr) hj (table hw unwritten))
  · -- nttInv
    obtain ⟨j, w, hj, hw, rfl⟩ := reads
    exact faults_residueTransform_core inputs (faults_nttCore (quiet invAddr) hj (table hw unwritten))
  · -- fttf
    obtain ⟨j, w, hj, hw, rfl⟩ := reads
    exact faults_residueTransform_core inputs
      ((faults_twist (quiet fwdAddr) (full ▸ hj) (table hw unwritten)).bind _)
  · -- ftti
    rcases reads with ⟨j, w, hj, hw, rfl⟩ | ⟨j, w, hj, hw, rfl⟩
    · exact faults_residueTransform_core inputs
        ((faults_nttCore (quiet invAddr) hj (table hw unwritten)).bind _)
    · refine faults_residueTransform_core inputs
        (faults_bind (raisesNothing_nttCore (quiet invAddr) _ _ _) fun z hz => ?_)
      exact faults_twist (quiet sinvAddr) (nttCore_length full hz ▸ hj) (table hw unwritten)

/-- The root of a pair of emb and embi cannot be read when ROTG[j] cannot, or the entry it points to. -/
theorem faults_rotatedRoot {index : Nat → Nat → Nat → Nat} {st j a : Nat} (unwritten : s.mem.readWord a = none)
    (h : a = rotgAddr j ∨ ∃ r w, s.rotgAt j = .ok r ∧ w < 4 ∧ a = crootAddr (index s.ctxLen st r) + 4 * w) :
    faults (s.rotatedRoot index st j) := by
  rcases h with rfl | ⟨r, w, hr, hw, rfl⟩
  · exact ((faults_loadWord unwritten).map _).bind _
  · exact faults_bind_ok hr ((faults_loadEntry hw unwritten).map _)

theorem bufferBody_faults_roots {a : Nat} (hi : i ∈ [.fft k, .fftf k, .ffti k, .emb k, .embi k])
    (reads : readsTableWord s a i) (unwritten : s.mem.readWord a = none) : faults (bufferBody s i) := by
  have quarter (st : Nat) : 2 ^ st <<< 2 = 4 * 2 ^ st := by rw [Nat.shiftLeft_eq, mul_comm]
  fin_cases hi
  · -- fft
    obtain ⟨j, w, hj, hw, rfl⟩ := reads
    obtain ⟨h1, hj⟩ := lastStage_pair hj
    refine faults_cplxTransform_root (fun _ _ => raisesNothing_dReadCplx s _) (mem_stagesUp.2 ⟨h1, le_rfl⟩) h1 le_rfl
      hj ?_
    rw [twiddleIndex_last]
    exact (faults_loadEntry hw unwritten).map _
  · -- fftf
    obtain ⟨st, j, w, h1, h2, hj, hw, rfl⟩ := reads
    exact faults_cplxTransform_root (fun _ _ => raisesNothing_crootAt s _) (mem_stagesUp.2 ⟨h1, h2⟩) h1 h2 hj
      ((faults_loadEntry hw unwritten).map _)
  · -- ffti
    obtain ⟨st, j, w, h1, h2, hj, hw, rfl⟩ := reads
    exact faults_cplxTransform_root (fun _ _ => raisesNothing_crootAt s _) (mem_stagesUp.2 ⟨h1, h2⟩) h1 h2 hj
      ((faults_loadEntry hw unwritten).map _)
  · -- emb
    obtain ⟨st, j, h1, h2, hj, reads⟩ := reads
    refine faults_cplxTransform_root (raisesNothing_rotatedRoot s _) (mem_stagesUp.2 ⟨h1, h2⟩) h1 h2 hj
      (faults_rotatedRoot unwritten ?_)
    simpa only [embIndex, quarter, rotgAddr, crootAddr] using reads
  · -- embi
    obtain ⟨st, j, h1, h2, hj, reads⟩ := reads
    refine faults_cplxTransform_root (raisesNothing_rotatedRoot s _) (mem_stagesDown.2 ⟨h1, h2⟩) h1 h2 hj
      (faults_rotatedRoot unwritten ?_)
    simpa only [embiIndex, quarter, rotgAddr, crootAddr] using reads

end

/-- Settles O44: a command whose checks have passed runs its body, and the body faults where it reads an unwritten
word. -/
theorem unwrittenWordsFault : Obligations.UnwrittenWordsFault := by
  have buffer (k : Nat) {i : Instr} {l : List Instr} (hl : l ⊆ bufferCommands k) (hi : i ∈ l) :
      i ∈ bufferCommands k := hl hi
  refine ⟨fun s off _ live idle top aligned window unwritten => ?_, fun k j w i s hi pass hj hw unwritten => ?_,
    fun k w i s x hi pass short hw residues unwritten => ?_,
    fun k w s x y pass full residues short hw table unwritten => ?_,
    fun k a i s x hi pass full residues reads unwritten => ?_, fun k a i s hi pass reads unwritten => ?_⟩
  · exact portRead_unwritten live idle top aligned window unwritten
  · exact exec_faults (buffer k (by simp [wholeEntryCommands, bufferCommands]) hi) pass
      (bufferBody_faults_wholeEntry hi hj (faults_loadEntry hw unwritten))
  · exact exec_faults (buffer k (by simp [modularCommands, bufferCommands]) hi) pass
      (bufferBody_faults_residues hi (faults_residueCheck short residues ((faults_loadDword hw unwritten).map _)))
  · refine exec_faults (k := k) (by simp [bufferCommands]) pass
      (faults_residueTransform_core (residueInputs_ok full residues) (faults.bind ?_ _))
    exact faults_residueCheck short table ((faults_loadDword hw unwritten).map _)
  · exact exec_faults (buffer k (by simp [bufferCommands]) hi) pass
      (bufferBody_faults_modularTable hi full residues reads unwritten)
  · exact exec_faults (buffer k (by simp [bufferCommands]) hi) pass (bufferBody_faults_roots hi reads unwritten)

end Sys2Proof.Machine
end

section
/-! PROOF. The decoder, the encoder and the opcode map agree: a word decodes to the command whose four fields it has,
and is rejected on the lines of 30_encoding.md R158 (30_encoding.md R150 to R158). -/

namespace Sys2Proof

open Sys2Proof.Machine Sys2Proof.Stated

/-! ### The fields of a word -/

theorem opcField_eq (w : Word) : opcField w = w.toNat % 64 := by
  simp [opcField, BitVec.extractLsb'_toNat]

theorem lognField_eq (w : Word) : lognField w = w.toNat / 64 % 32 := by
  simp [lognField, BitVec.extractLsb'_toNat, Nat.shiftRight_eq_div_pow]

theorem tblField_eq (w : Word) : tblField w = w.toNat / 2048 % 4 := by
  simp [tblField, BitVec.extractLsb'_toNat, Nat.shiftRight_eq_div_pow]

theorem rsvdField_eq (w : Word) : rsvdField w = w.toNat / 8192 := by
  simp [rsvdField, BitVec.extractLsb'_toNat, Nat.shiftRight_eq_div_pow]
  omega

/-- The four fields are all of the word. -/
theorem word_eq_iff_fields {w v : Word} : w = v ↔
    opcField w = opcField v ∧ lognField w = lognField v ∧ tblField w = tblField v ∧ rsvdField w = rsvdField v := by
  constructor
  · rintro rfl
    exact ⟨rfl, rfl, rfl, rfl⟩
  · rw [opcField_eq, opcField_eq, lognField_eq, lognField_eq, tblField_eq, tblField_eq, rsvdField_eq, rsvdField_eq]
    rintro ⟨opc, logn, tbl, rsvd⟩
    apply BitVec.eq_of_toNat_eq
    omega

/-- The mask of the rows with a length clears LOGN and keeps the other fields. -/
theorem fields_and_lengthMask (w : Word) :
    opcField (w &&& 0xFFFFF83F) = opcField w ∧ lognField (w &&& 0xFFFFF83F) = 0 ∧
      tblField (w &&& 0xFFFFF83F) = tblField w ∧ rsvdField (w &&& 0xFFFFF83F) = rsvdField w := by
  have opc : (0xFFFFF83F : Word).extractLsb' 0 6 = BitVec.allOnes 6 := by decide
  have logn : (0xFFFFF83F : Word).extractLsb' 6 5 = 0#5 := by decide
  have tbl : (0xFFFFF83F : Word).extractLsb' 11 2 = BitVec.allOnes 2 := by decide
  have rsvd : (0xFFFFF83F : Word).extractLsb' 13 19 = BitVec.allOnes 19 := by decide
  simp only [opcField, lognField, tblField, rsvdField, BitVec.extractLsb'_and, opc, logn, tbl, rsvd,
    BitVec.and_allOnes, BitVec.and_zero, BitVec.toNat_zero, and_self]

/-! ### What the decoder accepts -/

/-- The fields of `w` are those of the command `i` (30_encoding.md R150 to R154). -/
def isWordOf (w : Word) (i : Instr) : Prop :=
  opcField w = opcodeOf i ∧ lognField w = i.logn.getD 0 ∧ tblField w = tableOf i ∧ rsvdField w = 0

theorem isWordOf_encode : ∀ i : Instr, i.wellFormed = true → isWordOf (encode i) i
  | .nop => Laws.Fields.nop
  | .mcfg => Laws.Fields.mcfg
  | .ccfg => Laws.Fields.ccfg
  | .brev k => Laws.Fields.brev k
  | .nttFwd k => Laws.Fields.nttFwd k
  | .nttInv k => Laws.Fields.nttInv k
  | .nttUsr k => Laws.Fields.nttUsr k
  | .fttf k => Laws.Fields.fttf k
  | .ftti k => Laws.Fields.ftti k
  | .fft k => Laws.Fields.fft k
  | .fftf k => Laws.Fields.fftf k
  | .ffti k => Laws.Fields.ffti k
  | .chk k => Laws.Fields.chk k
  | .emb k => Laws.Fields.emb k
  | .embi k => Laws.Fields.embi k

section
variable {w : Word} {i j : Instr} {mk : Nat → Instr}

theorem decodeBare_ok : decodeBare w j = .ok i ↔ tblField w = 0 ∧ lognField w = 0 ∧ j = i := by
  unfold decodeBare
  split
  · simp [*]
  · split <;> simp_all

theorem decodeSized_ok : decodeSized w mk = .ok i ↔ tblField w = 0 ∧ mk (lognField w) = i := by
  unfold decodeSized
  split <;> simp_all

theorem decodeNtt_ok : decodeNtt w = .ok i ↔
    (tblField w = 0 ∧ .nttFwd (lognField w) = i) ∨ (tblField w = 1 ∧ .nttInv (lognField w) = i) ∨
      (tblField w = 2 ∧ .nttUsr (lognField w) = i) := by
  unfold decodeNtt
  split <;> simp_all

theorem isWordOf_of_decode (h : decode w = .ok i) : isWordOf w i := by
  unfold decode at h
  split at h
  · cases h
  · next rsvd =>
    rw [not_not] at rsvd
    split at h
    case h_14 => cases h
    case h_5 opc =>
      rcases decodeNtt_ok.1 h with ⟨tbl, rfl⟩ | ⟨tbl, rfl⟩ | ⟨tbl, rfl⟩ <;> exact ⟨opc, rfl, tbl, rsvd⟩
    case h_1 | h_2 | h_3 =>
      obtain ⟨tbl, logn, rfl⟩ := decodeBare_ok.1 h
      exact ⟨‹_›, logn, tbl, rsvd⟩
    all_goals
      obtain ⟨tbl, rfl⟩ := decodeSized_ok.1 h
      exact ⟨‹_›, rfl, tbl, rsvd⟩

theorem decode_of_isWordOf (h : isWordOf w i) : decode w = .ok i := by
  obtain ⟨opc, logn, tbl, rsvd⟩ := h
  unfold decode
  rw [if_neg (not_not.2 rsvd), opc]
  cases i
  case nop | mcfg | ccfg => exact decodeBare_ok.2 ⟨tbl, logn, rfl⟩
  case nttFwd => exact decodeNtt_ok.2 (.inl ⟨tbl, congrArg _ logn⟩)
  case nttInv => exact decodeNtt_ok.2 (.inr (.inl ⟨tbl, congrArg _ logn⟩))
  case nttUsr => exact decodeNtt_ok.2 (.inr (.inr ⟨tbl, congrArg _ logn⟩))
  all_goals exact decodeSized_ok.2 ⟨tbl, congrArg _ logn⟩

/-- The decoder gives exactly the command whose fields the word has. -/
theorem decode_eq_ok_iff : decode w = .ok i ↔ isWordOf w i := ⟨isWordOf_of_decode, decode_of_isWordOf⟩

end

/-- Settles O1: the encoder writes the fields that the decoder reads. -/
theorem decodeOfEncode : Obligations.DecodeOfEncode :=
  fun i h => decode_eq_ok_iff.2 (isWordOf_encode i h)

/-! ### The opcode map -/

/-- A row without operand: its mask is the whole word, so it matches its value only. -/
theorem and_allOnes_eq_iff {w v : Word} {i : Instr} (value : isWordOf v i) :
    w &&& 0xFFFFFFFF = v ↔ isWordOf w i := by
  obtain ⟨opc, logn, tbl, rsvd⟩ := value
  have mask : (0xFFFFFFFF : Word) = BitVec.allOnes 32 := by decide
  rw [mask, BitVec.and_allOnes, word_eq_iff_fields, opc, logn, tbl, rsvd, isWordOf]

/-- A row with a length: `mk` makes commands that differ in LOGN only, which the mask leaves free. -/
theorem and_lengthMask_eq_iff {w v : Word} {mk : Nat → Instr} (value : isWordOf v (mk 0))
    (sized : ∀ k, opcodeOf (mk k) = opcodeOf (mk 0) ∧ (mk k).logn = some k ∧ tableOf (mk k) = tableOf (mk 0)) :
    w &&& 0xFFFFF83F = v ↔ isWordOf w (mk (lognField w)) := by
  obtain ⟨opc, logn, tbl, rsvd⟩ := fields_and_lengthMask w
  obtain ⟨vopc, vlogn, vtbl, vrsvd⟩ := value
  obtain ⟨mopc, mlogn, mtbl⟩ := sized (lognField w)
  obtain ⟨-, zlogn, -⟩ := sized 0
  rw [word_eq_iff_fields, opc, logn, tbl, rsvd, vopc, vlogn, vtbl, vrsvd, zlogn, isWordOf, mopc, mlogn, mtbl]
  simp only [Option.getD_some, true_and]

/-- A row matches exactly the words of its command at the length in LOGN. -/
theorem matchedBy_iff_isWordOf {w : Word} {r : Row} (hr : r ∈ opcodeMap) :
    r.matchedBy w ↔ isWordOf w (r.make (lognField w)) := by
  fin_cases hr
  iterate 3
    · exact and_allOnes_eq_iff ⟨rfl, rfl, rfl, rfl⟩
  all_goals exact and_lengthMask_eq_iff ⟨rfl, rfl, rfl, rfl⟩ fun _ => ⟨rfl, rfl, rfl⟩

/-- Every command stands in a row. -/
theorem exists_row (i : Instr) : ∃ r ∈ opcodeMap, r.make (i.logn.getD 0) = i := by
  cases i <;> simp [opcodeMap, Instr.logn]

theorem opcodeMap_commands_differ : opcodeMap.Pairwise fun r q => ∀ k, r.make k ≠ q.make k := by
  simp [opcodeMap]

theorem mnemonicOf_make {r : Row} (hr : r ∈ opcodeMap) (k : Nat) : mnemonicOf (r.make k) = r.mnemonic := by
  fin_cases hr <;> rfl

theorem decode_eq_ok_iff_row {w : Word} {i : Instr} :
    decode w = .ok i ↔ ∃ r ∈ opcodeMap, r.matchedBy w ∧ i = r.make (lognField w) := by
  rw [decode_eq_ok_iff]
  constructor
  · intro h
    obtain ⟨-, logn, -⟩ := id h
    obtain ⟨r, hr, made⟩ := exists_row i
    have same : r.make (lognField w) = i := logn ▸ made
    exact ⟨r, hr, (matchedBy_iff_isWordOf hr).2 (same ▸ h), same.symm⟩
  · rintro ⟨r, hr, matched, rfl⟩
    exact (matchedBy_iff_isWordOf hr).1 matched

/-- Settles O2: a row matches the words with the fields of its command, so two rows that match one word would
make one command. -/
theorem decoderIsTheOpcodeMap : Obligations.DecoderIsTheOpcodeMap := by
  refine ⟨fun w i => ?_, ?_, fun r hr k => mnemonicOf_make hr k⟩
  · rw [← lognField_eq]
    exact decode_eq_ok_iff_row
  · refine opcodeMap_commands_differ.imp_of_mem fun {r q} hr hq differ w ⟨matched, matched'⟩ => ?_
    have first := decode_eq_ok_iff_row.2 ⟨r, hr, matched, rfl⟩
    have second := decode_eq_ok_iff_row.2 ⟨q, hq, matched', rfl⟩
    exact differ _ (Except.ok.inj (first.symm.trans second))

/-! ### Illegal words (30_encoding.md R158) -/

section
variable {w : Word} {i : Instr} {mk : Nat → Instr}

theorem decodeBare_rejects : (∃ e, decodeBare w i = .error e) ↔ tblField w ≠ 0 ∨ lognField w ≠ 0 := by
  unfold decodeBare
  split
  · simp [*]
  · split <;> simp [*]

theorem decodeSized_rejects : (∃ e, decodeSized w mk = .error e) ↔ tblField w ≠ 0 := by
  unfold decodeSized
  split <;> simp [*]

theorem decodeNtt_rejects : (∃ e, decodeNtt w = .error e) ↔ tblField w = 3 := by
  have : tblField w < 4 := (w.extractLsb' 11 2).isLt
  unfold decodeNtt
  split
  case h_4 =>
    simp only [imp_false, Except.error.injEq, exists_eq', true_iff] at *
    omega
  all_goals simp [*]

/-- The lines of R158 by the decoder's fields. -/
theorem listedIllegal_iff_fields : listedIllegal w ↔
    (4 ≤ opcField w ∧ opcField w ≤ 7) ∨ (0xB ≤ opcField w ∧ opcField w ≤ 0xF) ∨ 0x16 ≤ opcField w ∨
      rsvdField w ≠ 0 ∨ (tblField w = 3 ∧ opcField w = 8) ∨ (tblField w ≠ 0 ∧ opcField w ≠ 8) ∨
      (lognField w ≠ 0 ∧ opcField w ≤ 2) := by
  rw [opcField_eq, lognField_eq, tblField_eq, rsvdField_eq, listedIllegal]

theorem decode_rejects_iff : (∃ e, decode w = .error e) ↔ listedIllegal w := by
  rw [listedIllegal_iff_fields]
  unfold decode
  split
  · simp [*]
  · next rsvd =>
    rw [not_not] at rsvd
    split
    case h_1 | h_2 | h_3 =>
      rw [decodeBare_rejects]
      omega
    case h_5 =>
      rw [decodeNtt_rejects]
      omega
    case h_14 =>
      simp only [imp_false, Except.error.injEq, exists_eq', true_iff] at *
      omega
    all_goals
      rw [decodeSized_rejects]
      omega

end

theorem listedIllegal_iff_no_row {w : Word} : listedIllegal w ↔ ∀ r ∈ opcodeMap, ¬r.matchedBy w := by
  rw [← decode_rejects_iff]
  constructor
  · rintro ⟨e, he⟩ r hr matched
    cases he.symm.trans (decode_eq_ok_iff_row.2 ⟨r, hr, matched, rfl⟩)
  · intro none
    cases h : decode w with
    | error e => exact ⟨e, rfl⟩
    | ok i =>
      obtain ⟨r, hr, matched, -⟩ := decode_eq_ok_iff_row.1 h
      exact absurd matched (none r hr)

/-- An idle core accepts every word written to CMD (40_common.md R200). -/
theorem portWrite_cmd_idle {s : State} (live : s.rstN = true) (idle : s.status.busy = false) (w : Word) :
    portWrite Reg.cmd.offset w s = .next ((s.accept w).respond .writeOkay) := by
  rw [portWrite_register live, State.writeReg, State.writeCmd, idle]
  rfl

theorem completion_of_reject {s : State} {e : Reject} (h : decode s.latch.cmd = .error e) :
    completion s = .next (s.fail noEffect .illegal 0) := by
  rw [completion, h]

/-- Settles O3: the decoder rejects on the lines of R158, and a rejected word completes with E_ILLEGAL. -/
theorem illegalWordsAreTheListedOnes : Obligations.IllegalWordsAreTheListedOnes := by
  refine ⟨fun w => decode_rejects_iff, fun w => listedIllegal_iff_no_row, fun w s _ live idle => ?_, fun s h => ?_⟩
  · exact ⟨_, portWrite_cmd_idle live idle w, rfl, rfl⟩
  · obtain ⟨e, rejected⟩ := decode_rejects_iff.2 h
    exact completion_of_reject rejected

/-- Settles O4: the words are closed, so the decoder's fields are computed. -/
theorem sampleWordsDecode : Obligations.SampleWordsDecode := by
  unfold Obligations.SampleWordsDecode
  decide

end Sys2Proof
end

section
/-! PROOF. The life cycle of a command: acceptance, overrun, the sequencer's turn, and what any command and any
buffer command can end in (40_common.md R200 to R205, R230, 42_complex.md R304, 60_exceptions.md R405). -/

namespace Sys2Proof.Machine

open Sys2Proof.Stated

/-! ### Steps and the CMD register -/

theorem sequencerTurn_decoded {s : State} {i : Instr} (running : s.status.busy = true)
    (decoded : decode s.latch.cmd = .ok i) : sequencerTurn s = exec i s := by
  rw [sequencerTurn, if_pos running, completion, decoded]

theorem sequencerTurn_idle {s : State} (idle : s.status.busy = false) : sequencerTurn s = .next s := by
  rw [sequencerTurn, idle]
  rfl

/-- Settles O5: a step is its first event, and the sequencer's turn is exec of the command that is decoded. -/
theorem stepRunsTheDecodedCommand : Obligations.StepRunsTheDecodedCommand := by
  refine ⟨fun s i empty running decoded => ?_, fun s i es head running decoded => ?_, fun s empty idle => ?_,
    fun s a es head => step_cons head⟩
  · rw [step_nil empty, sequencerTurn_decoded running decoded]
  · rw [step_cons head]
    exact sequencerTurn_decoded running decoded
  · rw [step_nil empty, sequencerTurn_idle idle]

/-- Settles O6: the write reaches CMD, which accepts the word. -/
theorem commandWriteWhileIdleIsAccepted : Obligations.CommandWriteWhileIdleIsAccepted :=
  fun _ v live idle => portWrite_cmd_idle live idle v

/-- A running core answers a CMD write with OVR and keeps its latched word (40_common.md R201). -/
theorem portWrite_cmd_running {s : State} (live : s.rstN = true) (running : s.status.busy = true) (w : Word) :
    portWrite Reg.cmd.offset w s = .next (s.overrun.respond .writeOkay) := by
  rw [portWrite_register live, State.writeReg, State.writeCmd, if_pos running]

/-- Settles O7: the write reaches CMD, which records the overrun and still reads the running word. -/
theorem commandWriteWhileBusyIsAnOverrun : Obligations.CommandWriteWhileBusyIsAnOverrun :=
  fun s v live running => ⟨_, portWrite_cmd_running live running v, rfl,
    portRead_register (s := s.overrun.respond .writeOkay) live .cmd⟩

/-! ### A command faults only at an unwritten word -/

/-- A fault of the result is that of a word which `s` has not written (20_memory.md R120). -/
def faultsUnwritten {α : Type} (s : State) (r : Except Stop α) : Prop :=
  ∀ f, r = .error (.fault f) → ∃ a, f = .uninitRead a ∧ s.mem.readWord a = none

section
variable {α β τ : Type} {s : State}

@[simp] theorem faultsUnwritten_ok (v : α) : faultsUnwritten s (.ok v : Except Stop α) := nofun

@[simp] theorem faultsUnwritten_pure (v : α) : faultsUnwritten s (pure v : Except Stop α) := faultsUnwritten_ok v

@[simp] theorem faultsUnwritten_bind {r : Except Stop α} {g : α → Except Stop β} :
    faultsUnwritten s (r >>= g) ↔ faultsUnwritten s r ∧ ∀ x, r = .ok x → faultsUnwritten s (g x) := by
  simp only [faultsUnwritten, except_bind_error]
  constructor
  · exact fun h => ⟨fun f hf => h f (.inl hf), fun x hx f hf => h f (.inr ⟨x, hx, hf⟩)⟩
  · rintro ⟨hr, hg⟩ f (hf | ⟨x, hx, hf⟩)
    · exact hr f hf
    · exact hg x hx f hf

@[simp] theorem faultsUnwritten_map {r : Except Stop α} {g : α → β} :
    faultsUnwritten s (r.map g) ↔ faultsUnwritten s r := by
  simp only [faultsUnwritten, except_map_error]

@[simp] theorem faultsUnwritten_fmap {r : Except Stop α} {g : α → β} :
    faultsUnwritten s (g <$> r) ↔ faultsUnwritten s r := faultsUnwritten_map

@[simp] theorem faultsUnwritten_require (c : Prop) [Decidable c] (e : ErrCode) (info : Word) :
    faultsUnwritten s (require c e info) := fun _ h => nomatch (require_error.1 h).2

@[simp] theorem faultsUnwritten_loadWord (a : Nat) : faultsUnwritten s (s.loadWord a) := by
  intro f h
  obtain ⟨unwritten, hf⟩ := State.loadWord_error.1 h
  exact ⟨a, Stop.fault.inj hf, unwritten⟩

@[simp] theorem faultsUnwritten_loadDword (a : Nat) : faultsUnwritten s (s.loadDword a) := by
  simp [State.loadDword]

@[simp] theorem faultsUnwritten_loadEntry (a : Nat) : faultsUnwritten s (s.loadEntry a) := by
  simp [State.loadEntry]

@[simp] theorem faultsUnwritten_readFrom {f : Nat → Except Stop α} (hf : ∀ i, faultsUnwritten s (f i)) (i n : Nat) :
    faultsUnwritten s (readFrom f i n) := by
  induction n generalizing i with
  | zero => simp [readFrom]
  | succ n ih => simp [readFrom, hf, ih]

@[simp] theorem faultsUnwritten_checkResidues {f : Nat → Except Stop Nat} (hf : ∀ i, faultsUnwritten s (f i))
    (a : Nat) (tag : Word) (base j n : Nat) : faultsUnwritten s (checkResidues f a tag base j n) := by
  induction n generalizing j with
  | zero => simp [checkResidues]
  | succ n ih => simp [checkResidues, hf, ih]

@[simp] theorem faultsUnwritten_twist {T : Nat → Except Stop Nat} (hT : ∀ i, faultsUnwritten s (T i)) (a i : Nat)
    (xs : List Nat) : faultsUnwritten s (twist a T i xs) := by
  induction xs generalizing i with
  | nil => simp [twist]
  | cons x xs ih => simp [twist, hT, ih]

@[simp] theorem faultsUnwritten_runStages {tw : Nat → Nat → Except Stop τ}
    (ht : ∀ st i, faultsUnwritten s (tw st i)) (bfly : τ → α → α → α × α) (k : Nat) (ss : List Nat) (A : List α) :
    faultsUnwritten s (runStages tw bfly k ss A) := by
  intro f h
  obtain ⟨st, _, p, _, hp⟩ := runStages_error h
  exact ht st p.2.2 f hp

end

section
variable {s : State} {k : Nat}

@[simp] theorem faultsUnwritten_dReadResidue (e : Nat) : faultsUnwritten s (s.dReadResidue e) := by
  simp [State.dReadResidue]

@[simp] theorem faultsUnwritten_dRead (e : Nat) : faultsUnwritten s (s.dRead e) := by
  simp [State.dRead]

@[simp] theorem faultsUnwritten_dReadCplx (e : Nat) : faultsUnwritten s (s.dReadCplx e) := by
  simp [State.dReadCplx]

@[simp] theorem faultsUnwritten_fwdAt (j : Nat) : faultsUnwritten s (s.fwdAt j) := by
  simp [State.fwdAt]

@[simp] theorem faultsUnwritten_invAt (j : Nat) : faultsUnwritten s (s.invAt j) := by
  simp [State.invAt]

@[simp] theorem faultsUnwritten_sinvAt (j : Nat) : faultsUnwritten s (s.sinvAt j) := by
  simp [State.sinvAt]

@[simp] theorem faultsUnwritten_crootAt (j : Nat) : faultsUnwritten s (s.crootAt j) := by
  simp [State.crootAt]

@[simp] theorem faultsUnwritten_rotatedRoot (index : Nat → Nat → Nat → Nat) (st j : Nat) :
    faultsUnwritten s (s.rotatedRoot index st j) := by
  simp [State.rotatedRoot, State.rotgAt]

@[simp] theorem faultsUnwritten_nttCore {T : Nat → Except Stop Nat} (hT : ∀ j, faultsUnwritten s (T j)) (a : Nat)
    (x : List Nat) : faultsUnwritten s (nttCore a k T x) := by
  simp [nttCore, hT]

@[simp] theorem faultsUnwritten_residueTransform {core : List Nat → Except Stop (List Nat)}
    (h : ∀ x, faultsUnwritten s (core x)) : faultsUnwritten s (s.residueTransform k core) := by
  simp [State.residueTransform, State.residueInputs, h]

@[simp] theorem faultsUnwritten_cplxTransform {τ : Type} {tw : Nat → Nat → Except Stop τ}
    (ht : ∀ st j, faultsUnwritten s (tw st j)) (bfly : τ → Cplx → Cplx → Cplx × Cplx) (ss : List Nat)
    (pre post : List Cplx → List Cplx) : faultsUnwritten s (s.cplxTransform k tw bfly ss pre post) := by
  simp [State.cplxTransform, State.cplxInputs, ht]

/-- The checks read no memory. -/
@[simp] theorem faultsUnwritten_bufferChecks (i : Instr) : faultsUnwritten s (bufferChecks s i) := by
  cases i <;> simp [bufferChecks, State.checkMcfg, State.checkCcfg, State.checkLimit, State.checkRange,
    State.checkOverlap, State.fftChecks, State.chkChecks, State.embChecks]

@[simp] theorem faultsUnwritten_bufferBody (i : Instr) : faultsUnwritten s (bufferBody s i) := by
  cases i <;> simp [bufferBody, State.residueTable]

theorem faultsUnwritten_phases (i : Instr) : faultsUnwritten s (phases i s) := by
  rcases instr_cases_buffer i with rfl | rfl | rfl | ⟨k, rfl⟩ | ⟨k, hi⟩
  · exact faultsUnwritten_ok s
  · simp [phases, mcfgChecks]
  · simp [phases, ccfgChecks]
  · simp [phases, State.chkChecks, State.checkCcfg, State.checkLimit]
  · simp [phases_eq_bufferBody hi]

end

/-- Settles O9: a command succeeds, raises an error, or faults at an unwritten word. -/
theorem everyCommandCompletesOrReadsUnwritten : Obligations.EveryCommandCompletesOrReadsUnwritten := by
  intro i s
  cases h : phases i s with
  | ok u => exact .inl ⟨_, exec_next.2 (.inl ⟨u, h, rfl⟩), rfl, rfl⟩
  | error r =>
    cases r with
    | raise e info => exact .inl ⟨_, exec_next.2 (.inr ⟨e, info, h, rfl⟩), rfl, rfl⟩
    | fault f =>
      obtain ⟨a, rfl, unwritten⟩ := faultsUnwritten_phases i f h
      exact .inr ⟨a, exec_fault.2 h, unwritten⟩

/-! ### Commands with an output buffer -/

/-- `s` after a command wrote the entries `out` to DST_L on and succeeded (40_common.md R203, R204). -/
def State.wrote (s : State) (out : List Entry) : State :=
  State.succeed { s with mem := s.mem.writeEntries (dmemAddr s.latch.dst.toNat) out }

theorem State.endsWell_wrote (s : State) (out : List Entry) : s.endsWell (s.wrote out) := rfl

theorem State.unchangedOutside_wrote (s : State) (out : List Entry) :
    unchangedOutside s (s.wrote out) (dmemAddr s.latch.dst.toNat) (16 * out.length) :=
  fun _ => Memory.get_writeEntries_other out s.mem _

theorem State.entriesAt_wrote (s : State) (out : List Entry) : entriesAt (s.wrote out) s.latch.dst.toNat out := by
  intro j v hv
  rw [State.dRead, dmemAddr, Nat.mul_add, ← Nat.add_assoc]
  exact State.loadEntry_writeEntries out s.mem _ j v hv rfl

theorem writesBuffer_wrote (s : State) (out : List Entry) : writesBuffer s (s.wrote out) out :=
  ⟨s.endsWell_wrote out, s.unchangedOutside_wrote out, s.entriesAt_wrote out⟩

section
variable {k : Nat} {i : Instr} {s t : State}

/-- A buffer command succeeds with the 2^k entries its body computes. -/
theorem phases_buffer_ok_iff {u : State} (hi : i ∈ bufferCommands k) : phases i s = .ok u ↔
    bufferChecks s i = .ok () ∧ ∃ out, bufferBody s i = .ok out ∧
      { s with mem := s.mem.writeEntries (dmemAddr s.latch.dst.toNat) out } = u := by
  rw [phases_eq_bufferBody hi, except_map_ok]
  simp only [check_then_ok, and_assoc, exists_and_left]

/-- A command whose checks pass and whose body computes `out` writes `out`. -/
theorem exec_of_bufferBody {out : List Entry} (hi : i ∈ bufferCommands k) (pass : checksPass s i)
    (body : bufferBody s i = .ok out) : exec i s = .next (s.wrote out) :=
  exec_next.2 (.inl ⟨_, (phases_buffer_ok_iff hi).2 ⟨(bufferChecks_ok hi).2 pass, out, body, rfl⟩, rfl⟩)

/-- What a buffer command that completes has done. -/
theorem exec_buffer_next (hi : i ∈ bufferCommands k) (h : exec i s = .next t) :
    (∃ out, out.length = 2 ^ k ∧ t = s.wrote out) ∨ ∃ e info, e ≠ .ok ∧ t = s.afterError i e info := by
  rcases exec_next.1 h with ⟨u, ok, rfl⟩ | ⟨e, info, raised, rfl⟩
  · obtain ⟨_, out, body, rfl⟩ := (phases_buffer_ok_iff hi).1 ok
    exact .inl ⟨out, bufferBody_length hi body, rfl⟩
  · exact .inr ⟨e, info, phases_raise_ne_ok raised, rfl⟩

end

/-- Settles O10: a buffer command writes its 2^k entries, or only the error record. -/
theorem bufferCommandFrame : Obligations.BufferCommandFrame := by
  intro k i s t hi h
  refine (exec_buffer_next hi h).imp_left ?_
  rintro ⟨out, length, rfl⟩
  exact ⟨s.endsWell_wrote out, length ▸ s.unchangedOutside_wrote out⟩

/-! ### nop and chk -/

theorem decode_nop_iff {w : Word} : decode w = .ok .nop ↔ w = 0 := by
  have row := and_allOnes_eq_iff (w := w) (v := 0) (i := .nop) ⟨rfl, rfl, rfl, rfl⟩
  have mask : (0xFFFFFFFF : Word) = BitVec.allOnes 32 := by decide
  rw [decode_eq_ok_iff, ← row, mask, BitVec.and_allOnes]

theorem decode_chk_iff {w : Word} {k : Nat} :
    decode w = .ok (.chk k) ↔ w &&& 0xFFFFF83F = 0x00000013 ∧ k = w.toNat / 64 % 32 := by
  have row := and_lengthMask_eq_iff (w := w) (v := 0x13) (mk := .chk) ⟨rfl, rfl, rfl, rfl⟩
    fun _ => ⟨rfl, rfl, rfl⟩
  rw [row, ← lognField_eq, decode_eq_ok_iff]
  constructor
  · intro h
    obtain ⟨-, logn, -⟩ := id h
    have length : lognField w = k := logn
    exact ⟨length.symm ▸ h, length.symm⟩
  · rintro ⟨h, rfl⟩
    exact h

/-- The first of the three checks of chk that fails is reported (42_complex.md R304). -/
theorem exec_chk (k : Nat) (s : State) : exec (.chk k) s = .next
    (if s.status.ccfgValid = false then s.afterError (.chk k) .noccfg 0
     else if max s.params.logdMax s.params.logmMax < k then s.afterError (.chk k) .limit 0
     else if 2 ^ k ≠ 2 ^ s.actLogm.toNat / 4 then s.afterError (.chk k) .len 0
     else s.succeed) := by
  have raised {e : ErrCode} (h : s.chkChecks k = .error (.raise e 0)) :
      exec (.chk k) s = .next (s.afterError (.chk k) e 0) :=
    exec_next.2 (.inr ⟨e, 0, except_map_error.2 h, rfl⟩)
  have passed (h : s.chkChecks k = .ok ()) : exec (.chk k) s = .next s.succeed :=
    exec_next.2 (.inl ⟨s, except_map_ok.2 ⟨(), h, rfl⟩, rfl⟩)
  split_ifs with invalid limit len
  · have fails : s.checkCcfg = .error (.raise .noccfg 0) := require_error.2 ⟨by simp [invalid], rfl⟩
    exact raised (by rw [State.chkChecks, fails]; rfl)
  all_goals have valid : s.checkCcfg = .ok () := require_ok.2 (eq_true_of_ne_false invalid)
  · have fails : s.checkLimit k = .error (.raise .limit 0) := require_error.2 ⟨not_le.2 limit, rfl⟩
    exact raised (by rw [State.chkChecks, valid, fails]; rfl)
  all_goals have within : s.checkLimit k = .ok () := require_ok.2 (not_lt.1 limit)
  · have fails : require (2 ^ k = s.ctxLen / 4) .len 0 = .error (.raise .len 0) := require_error.2 ⟨len, rfl⟩
    exact raised (by rw [State.chkChecks, valid, within]; exact fails)
  · have fits : require (2 ^ k = s.ctxLen / 4) .len 0 = .ok () := require_ok.2 (not_not.1 len)
    exact passed (by rw [State.chkChecks, valid, within]; exact fits)

/-- Settles O13: nop has no check, chk has three, and the sample runs are closed. -/
theorem nopAndChkComplete : Obligations.NopAndChkComplete := by
  refine ⟨fun w => decode_nop_iff, fun s => rfl, ?_, fun w k => decode_chk_iff, exec_chk, fun s hp valid hM => ?_⟩
  · exact ⟨_, _, portWrite_cmd_idle rfl rfl 0, rfl, by decide, by decide⟩
  · have limit : max s.params.logdMax s.params.logmMax = 17 := by rw [hp]; rfl
    rw [exec_chk, exec_chk, valid, limit, hM]
    exact ⟨rfl, _, rfl, rfl, rfl⟩

/-! ### A running command and the host -/

/-- An event that leaves a command running is served beside it (40_common.md R200, 20_memory.md R109). -/
theorem Happens.sameCore {s t : State} (h : Happens s t) (running : s.status.busy = true)
    (still : t.status.busy = true) : s.sameCore t := by
  cases h with
  | quiet same => exact same
  | accepted _ _ idle => cases running.symm.trans idle
  | hostWrote _ _ idle _ _ => cases running.symm.trans idle
  | reset _ status _ _ => cases still.symm.trans (congrArg Status.busy status)
  | succeeded => cases still
  | failed => cases still

/-- `t` with what a command writes before its completion taken from `u`. -/
def State.withComputed (t u : State) : State :=
  { t with
    status := u.status, actMod := u.actMod, actLogd := u.actLogd, actLogm := u.actLogm, bk := u.bk, mu := u.mu
    mem := u.mem }

/-- The phases of a command see only the core of a state. -/
theorem State.sameCore.phases_eq {s t : State} (h : s.sameCore t) (i : Instr) :
    phases i t = (phases i s).map t.withComputed := by
  obtain ⟨params, _, status, _, latch, actMod, actLogd, actLogm, bk, mu, mem⟩ := h
  obtain ⟨⟩ := s
  obtain ⟨⟩ := t
  simp only at params status latch actMod actLogd actLogm bk mu mem
  subst params status latch actMod actLogd actLogm bk mu mem
  have after {α : Type} (r : Except Stop α) (f : α → State) (g : State → State) :
      (r.map f).map g = r.map fun v => g (f v) := by cases r <;> rfl
  cases i
  case nop => rfl
  all_goals
    simp only [phases, after]
    rfl

/-- Settles O60: what is served beside a running command leaves the core as it is, and a command sees no more. -/
theorem hostCannotDisturbARunningCommand : Obligations.HostCannotDisturbARunningCommand := by
  intro s t a i running served still
  have same := (happens_serve served).sameCore running still
  have phases_eq := same.phases_eq i
  refine ⟨same.mem, fun u hu => ?_, fun f hf => ?_⟩
  · rcases exec_next.1 hu with ⟨u, ok, rfl⟩ | ⟨e, info, raised, rfl⟩
    · rw [ok] at phases_eq
      obtain ⟨errInfo, latch⟩ : u.errInfo = s.errInfo ∧ u.latch = s.latch := by
        cases phases_ok ok <;> exact ⟨rfl, rfl⟩
      exact ⟨_, exec_next.2 (.inl ⟨_, phases_eq, rfl⟩), rfl, rfl, same.errInfo.trans errInfo.symm, rfl, rfl, rfl, rfl,
        rfl, same.latch.trans latch.symm⟩
    · rw [raised] at phases_eq
      refine ⟨_, exec_next.2 (.inr ⟨e, info, phases_eq, rfl⟩), same.mem, ?_, rfl, same.actMod, same.actLogd,
        same.actLogm, same.bk, same.mu, same.latch⟩
      simp only [State.afterError, same.status]
  · rw [exec_fault.1 hf] at phases_eq
    exact exec_fault.2 phases_eq

end Sys2Proof.Machine
end

section
/-! PROOF. Bit reversal: of an index, of a sequence, and the command brev (40_common.md R210, R211, R231, R232). -/

namespace Sys2Proof.Machine

open Sys2Proof.Stated

/-! ### brev_k -/

/-- One more bit: the others move up, and the new top bit comes in below. -/
theorem brev_succ (k j : Nat) : brev (k + 1) j = 2 * brev k j + (j.testBit k).toNat := by
  have lower : ∀ b ∈ List.range k,
      (j.testBit b).toNat * 2 ^ (k + 1 - 1 - b) = 2 * ((j.testBit b).toNat * 2 ^ (k - 1 - b)) := by
    intro b hb
    rw [List.mem_range] at hb
    rw [show k + 1 - 1 - b = k - 1 - b + 1 by omega, pow_succ]
    ring
  rw [brev, List.range_succ, List.map_append, List.sum_append, List.map_congr_left lower, List.sum_map_mul_left]
  simp [brev]

theorem testBit_brev {k b : Nat} (j : Nat) (hb : b < k) : (brev k j).testBit b = j.testBit (k - 1 - b) := by
  induction k generalizing b with
  | zero => omega
  | succ k ih =>
    have bit := Bool.toNat_le (j.testBit k)
    rw [brev_succ]
    cases b with
    | zero =>
      rw [Nat.testBit_zero, Nat.add_sub_cancel, Nat.sub_zero, Nat.mul_add_mod]
      cases j.testBit k <;> rfl
    | succ b =>
      have half : (2 * brev k j + (j.testBit k).toNat) / 2 = brev k j := by omega
      rw [Nat.testBit_succ, half, ih (by omega)]
      congr 1
      omega

/-- 40_common.md R232. -/
theorem brev_brev {k j : Nat} (hj : j < 2 ^ k) : brev k (brev k j) = j := by
  apply Nat.eq_of_testBit_eq
  intro b
  by_cases hb : b < k
  · rw [testBit_brev _ hb, testBit_brev _ (by omega)]
    congr 1
    omega
  · have high : 2 ^ k ≤ 2 ^ b := Nat.pow_le_pow_right (by decide) (not_lt.1 hb)
    rw [Nat.testBit_lt_two_pow ((brev_lt _ _).trans_le high), Nat.testBit_lt_two_pow (hj.trans_le high)]

/-! ### BREV_VEC -/

section
variable {α : Type} {k : Nat} {v : List α}

theorem brevVec_eq_map (hv : v.length = 2 ^ k) :
    brevVec k v = (List.range (2 ^ k)).map fun j => v[brev k j]'(hv ▸ brev_lt k j) := by
  rw [brevVec, ← List.filterMap_eq_map]
  congr 1
  funext j
  simp [hv, brev_lt k j]

theorem brevVec_getElem? {j : Nat} (hv : v.length = 2 ^ k) (hj : j < 2 ^ k) :
    (brevVec k v)[j]? = v[brev k j]? := by
  have inside := hv ▸ brev_lt k j
  simp [brevVec_eq_map hv, hj, inside]

theorem brevVec_brevVec (hv : v.length = 2 ^ k) : brevVec k (brevVec k v) = v := by
  have length := brevVec_length hv
  apply List.ext_getElem?
  intro j
  by_cases hj : j < 2 ^ k
  · rw [brevVec_getElem? length hj, brevVec_getElem? hv (brev_lt k j), brev_brev hj]
  · rw [List.getElem?_eq_none (by rw [brevVec_length length]; omega), List.getElem?_eq_none (by omega)]

end

/-- Settles O14: a bit of brev_k(j) is the mirrored bit of j, so brev_k is its own inverse. -/
theorem bitReversal : Obligations.BitReversal := by
  refine ⟨fun k j hj => ⟨brev_lt k j, fun b => testBit_brev j, rfl⟩, rfl, fun α k v hv => ?_⟩
  · refine ⟨brevVec_length hv, fun j hj => ⟨brevVec_getElem? hv hj, ?_⟩⟩
    rw [brevVec_getElem? hv (brev_lt k j), brev_brev hj]

/-! ### The command -/

section
variable {k : Nat} {s : State} {x : List Entry}

/-- brev over a written buffer whose checks pass (40_common.md R231). -/
theorem exec_brev (pass : checksPass s (.brev k)) (full : x.length = 2 ^ k)
    (written : entriesAt s s.latch.src.toNat x) : exec (.brev k) s = .next (s.wrote (brevVec k x)) := by
  refine exec_of_bufferBody (k := k) (by simp [bufferCommands]) pass ?_
  rw [bufferBody, readFrom_ok.2 ⟨full, written⟩]
  rfl

end

/-- Settles O16: brev writes the reversed sequence of its input. -/
theorem brevPermutesTheBuffer : Obligations.BrevPermutesTheBuffer := by
  intro k s x pass full written
  have length := brevVec_length full
  refine ⟨_, exec_brev pass full written, s.endsWell_wrote _, length ▸ s.unchangedOutside_wrote _, fun j hj => ?_⟩
  obtain ⟨v, hv⟩ : ∃ v, x[brev k j]? = some v := ⟨_, List.getElem?_eq_getElem (full ▸ brev_lt k j)⟩
  exact ⟨v, hv, s.entriesAt_wrote _ j v ((brevVec_getElem? full hj).trans hv)⟩

/-! ### Two commands over one buffer -/

theorem byteOf_append (b3 b2 b1 b0 : Byte) :
    byteOf (b3 ++ b2 ++ b1 ++ b0) 0 = b0 ∧ byteOf (b3 ++ b2 ++ b1 ++ b0) 1 = b1 ∧
      byteOf (b3 ++ b2 ++ b1 ++ b0) 2 = b2 ∧ byteOf (b3 ++ b2 ++ b1 ++ b0) 3 = b3 := by
  have skip {n len : Nat} (x : BitVec n) (y : Byte) {i : Nat} (hi : 8 ≤ i) :
      (x ++ y).extractLsb' i len = x.extractLsb' (i - 8) len := BitVec.extractLsb'_append_eq_of_le hi
  refine ⟨BitVec.extractLsb'_append_eq_right, ?_, ?_, ?_⟩
  · exact (skip _ b0 (by decide)).trans BitVec.extractLsb'_append_eq_right
  · exact (skip _ b0 (by decide)).trans ((skip _ b1 (by decide)).trans BitVec.extractLsb'_append_eq_right)
  · exact (skip _ b0 (by decide)).trans ((skip _ b1 (by decide)).trans BitVec.extractLsb'_append_eq_left)

/-- A written word gives its four bytes. -/
theorem Memory.get_of_readWord {m : Memory} {a i : Nat} {w : Word} (h : m.readWord a = some w) (hi : i < 4) :
    m.get (a + i) = some (byteOf w i) := by
  unfold Memory.readWord at h
  split at h
  · next b0 b1 b2 b3 h0 h1 h2 h3 =>
    obtain rfl := Option.some.inj h
    obtain ⟨e0, e1, e2, e3⟩ := byteOf_append b3 b2 b1 b0
    interval_cases i
    · rw [e0]; exact h0
    · rw [e1]; exact h1
    · rw [e2]; exact h2
    · rw [e3]; exact h3
  · cases h

/-- Two memories in which an entry reads the same have the same bytes there. -/
theorem Memory.get_eq_of_loadEntry {s t : State} {b a : Nat} {E : Entry} (hs : s.loadEntry b = .ok E)
    (ht : t.loadEntry b = .ok E) (h1 : b ≤ a) (h2 : a < b + 16) : s.mem.get a = t.mem.get a := by
  have word : (a - b) / 4 < 4 := by omega
  have same (u : State) (hu : u.loadEntry b = .ok E) :=
    Memory.get_of_readWord (State.loadEntry_ok_iff.1 hu _ word) (i := (a - b) % 4) (by omega)
  have at_a : b + 4 * ((a - b) / 4) + (a - b) % 4 = a := by omega
  have bytes := (same s hs).trans (same t ht).symm
  rwa [at_a] at bytes

/-- Settles O15: the second command reverses the reversed sequence; in place, every byte of the buffer is that of
an entry, and no other changes. -/
theorem brevTwiceRestores : Obligations.BrevTwiceRestores := by
  refine ⟨fun k j => brev_brev, fun k s x e pass full written pass' => ?_⟩
  have length := brevVec_length full
  have second := exec_brev
    (s := { s.wrote (brevVec k x) with latch := { s.latch with src := s.latch.dst, dst := e } })
    pass' length (s.entriesAt_wrote _)
  rw [brevVec_brevVec full] at second
  refine ⟨_, _, exec_brev pass full written, second, State.entriesAt_wrote _ x, fun wf inPlace he => ?_⟩
  subst he
  refine Memory.ext_of_get (Memory.wf_writeEntries (Memory.wf_writeEntries wf _) _) wf fun a => ?_
  by_cases inside : dmemAddr s.latch.dst.toNat ≤ a ∧ a < dmemAddr s.latch.dst.toNat + 16 * 2 ^ k
  · unfold dmemAddr at inside
    have hj : a / 16 - 0x80000 - s.latch.dst.toNat < x.length := by omega
    have hv := List.getElem?_eq_getElem hj
    rw [inPlace] at written
    refine Memory.get_eq_of_loadEntry (State.entriesAt_wrote _ x _ _ hv) (written _ _ hv) ?_ ?_ <;>
      simp only [dmemAddr] <;> omega
  · rw [State.unchangedOutside_wrote _ x a (by simp only [full]; omega)]
    exact s.unchangedOutside_wrote (brevVec k x) a (by rw [length]; omega)

end Sys2Proof.Machine
end

section
/-! PROOF. Modular arithmetic: the primitives give least residues, and Barrett's reduction the exact product
(40_common.md R212 to R215). -/

namespace Sys2Proof.Machine

/-! ### The primitives -/

theorem msub_eq {a x y : Nat} (hx : x < a) (hy : y < a) : msub a x y = if x < y then x + a - y else x - y := by
  unfold msub
  split_ifs with h
  · have wrap : ((x : Int) - y) % a = x - y + a := by
      rw [← Int.add_emod_right, Int.emod_eq_of_lt] <;> omega
    omega
  · rw [Int.emod_eq_of_lt] <;> omega

theorem residue_spec {a : Nat} (n : Nat) (ha : 0 < a) : n % a < a ∧ a ∣ n - n % a ∧ n % a ≤ n :=
  ⟨Nat.mod_lt n ha, Nat.dvd_sub_mod n, Nat.mod_le n a⟩

/-- Settles O27: MADD and MMUL are remainders, and MSUB wraps once. -/
theorem modularPrimitives : Obligations.ModularPrimitives :=
  fun _ x y _ ha hx hy _ => ⟨residue_spec (x + y) (by omega), msub_eq hx hy, residue_spec (x * y) (by omega), rfl⟩

/-! ### Barrett's reduction -/

theorem bitLength_bounds {a : Nat} (ha : 2 ≤ a) (h : a < 2 ^ 64) :
    2 ≤ bitLength a ∧ bitLength a ≤ 64 ∧ 2 ^ (bitLength a - 1) ≤ a ∧ a < 2 ^ bitLength a := by
  have nonzero : a ≠ 0 := by omega
  have one_le : 1 ≤ a.log2 := (Nat.le_log2 nonzero).2 ha
  have bits : a.log2 < 64 := (Nat.log2_lt nonzero).2 h
  exact ⟨Nat.succ_le_succ one_le, bits, Nat.log2_self_le nonzero, Nat.lt_log2_self⟩

/-- The quotient estimate of 40_common.md R214, with `B = 2^(BK - 1)`: the first floor is `u`, MU is `mu`, and the
last floor is `q`. It is at most the true quotient, and too small by at most 2. -/
theorem barrett_estimate {a B p u mu q : Nat} (hB : 0 < B) (low : B ≤ a) (high : a < 2 * B) (hp : p < a ^ 2)
    (hu : u = p / B) (hmu : mu = 4 * B ^ 2 / a) (hq : q = u * mu / (4 * B)) : q * a ≤ p ∧ p < (q + 3) * a := by
  have ha : 0 < a := by omega
  have floor (n : Nat) {d : Nat} (hd : 0 < d) : n < (n / d + 1) * d := by
    rw [add_mul, one_mul]
    exact Nat.lt_div_mul_add hd
  have u_le : u * B ≤ p := hu ▸ Nat.div_mul_le_self p B
  have u_gt : p < (u + 1) * B := hu ▸ floor p hB
  have mu_le : mu * a ≤ 4 * B ^ 2 := hmu ▸ Nat.div_mul_le_self _ a
  have mu_gt : 4 * B ^ 2 < (mu + 1) * a := hmu ▸ floor _ ha
  have q_le : q * (4 * B) ≤ u * mu := hq ▸ Nat.div_mul_le_self _ _
  have q_gt : u * mu < (q + 1) * (4 * B) := hq ▸ floor _ (by omega)
  constructor
  · have : q * a * (4 * B ^ 2) ≤ p * (4 * B ^ 2) := by
      calc q * a * (4 * B ^ 2) = q * (4 * B) * (a * B) := by ring
        _ ≤ u * mu * (a * B) := Nat.mul_le_mul_right _ q_le
        _ = u * B * (mu * a) := by ring
        _ ≤ p * (4 * B ^ 2) := Nat.mul_le_mul u_le mu_le
    exact Nat.le_of_mul_le_mul_right this (by positivity)
  · have u_lt : u < 4 * B := by
      refine Nat.lt_of_mul_lt_mul_right (a := B) ?_
      calc u * B ≤ p := u_le
        _ < a ^ 2 := hp
        _ ≤ (2 * B) ^ 2 := Nat.pow_le_pow_left high.le 2
        _ = 4 * B * B := by ring
    refine Nat.lt_of_mul_lt_mul_left (a := 4 * B) ?_
    calc 4 * B * p < 4 * B * ((u + 1) * B) := Nat.mul_lt_mul_of_pos_left u_gt (by omega)
      _ = u * (4 * B ^ 2) + 4 * B * B := by ring
      _ ≤ u * ((mu + 1) * a) + 4 * B * a :=
        Nat.add_le_add (Nat.mul_le_mul_left u mu_gt.le) (Nat.mul_le_mul_left _ low)
      _ = u * mu * a + u * a + 4 * B * a := by ring
      _ ≤ (q + 1) * (4 * B) * a + 4 * B * a + 4 * B * a := by gcongr
      _ = 4 * B * ((q + 3) * a) := by ring

/-- The remainder of a value below 3a by two conditional subtractions. -/
theorem mod_of_lt_three_mul {a r : Nat} (h : r < 3 * a) :
    r % a = if (if r ≥ a then r - a else r) ≥ a then (if r ≥ a then r - a else r) - a
      else (if r ≥ a then r - a else r) := by
  split_ifs with h1 h2
  · rw [Nat.mod_eq_sub_mod h1, Nat.mod_eq_sub_mod h2, Nat.mod_eq_of_lt (by omega)]
  · rw [Nat.mod_eq_sub_mod h1, Nat.mod_eq_of_lt (by omega)]
  · exact Nat.mod_eq_of_lt (by omega)

/-- Settles O28: the estimate is short by at most 2, so two conditional subtractions give the remainder. -/
theorem barrettGivesTheExactProduct : Obligations.BarrettGivesTheExactProduct := by
  intro a x y ha h hx hy bk mu p q
  obtain ⟨two_le, le_64, low, high⟩ := bitLength_bounds ha h
  have double : 2 ^ bk = 2 * 2 ^ (bk - 1) := by
    rw [← pow_succ', Nat.sub_add_cancel (le_trans (by decide) two_le)]
  have quadruple : 2 ^ (bk + 1) = 4 * 2 ^ (bk - 1) := by rw [pow_succ, double]; ring
  have square : 2 ^ (2 * bk) = (2 ^ bk) ^ 2 := by rw [← pow_mul, mul_comm]
  have hp : p < a ^ 2 := by rw [sq]; exact Nat.mul_lt_mul'' hx hy
  have estimate : q * a ≤ p ∧ p < (q + 3) * a := by
    refine barrett_estimate (B := 2 ^ (bk - 1)) (mu := mu) (by positivity) low (double ▸ high) hp rfl ?_ ?_
    · show 2 ^ (2 * bk) / a = _
      rw [square, double]
      ring_nf
    · show _ / 2 ^ (bk + 1) = _
      rw [quadruple]
  obtain ⟨lower, upper⟩ := estimate
  have ha : 0 < a := by omega
  have rest : p - q * a < 3 * a := by rw [add_mul] at upper; omega
  have reduced : (p - q * a) % a = p % a := by
    rw [mul_comm] at lower ⊢
    exact Nat.sub_mul_mod lower
  refine ⟨⟨two_le, le_64, low, high⟩, hp, ?_, (Nat.le_div_iff_mul_le ha).2 lower, ?_, rest, by omega, ?_, rfl⟩
  · rw [square]
    exact Nat.pow_lt_pow_left high (by decide)
  · exact Nat.le_of_lt_succ ((Nat.div_lt_iff_lt_mul ha).2 upper)
  · rw [mmul, ← reduced, mod_of_lt_three_mul rest]
    simp only [barrett, Nat.shiftRight_eq_div_pow]
    rfl

end Sys2Proof.Machine
end

section
/-! PROOF. binary64: the patterns, their values, and rounding to nearest with ties to even (40_common.md R220, R221,
R223). -/

namespace Sys2Proof.Machine

open Sys2Proof.Stated

/-! ### Patterns: a sign and the 63 bits below it -/

section
variable {n : Nat} (neg : Bool)

theorem signed_toNat (hn : n < 2 ^ 63) : (signed neg n).toNat = neg.toNat * 2 ^ 63 + n := by
  have top : (if neg then 2 ^ 63 else 0) = neg.toNat * 2 ^ 63 := by cases neg <;> rfl
  have bit := neg.toNat_le
  rw [signed, BitVec.toNat_ofNat, top, Nat.mod_eq_of_lt (by omega)]

theorem getLsbD_63_signed (hn : n < 2 ^ 63) : (signed neg n).getLsbD 63 = neg := by
  have top : (neg.toNat * 2 ^ 63 + n) / 2 ^ 63 = neg.toNat := by omega
  rw [BitVec.getLsbD, signed_toNat neg hn, Nat.testBit_eq_decide_div_mod_eq, top]
  cases neg <;> rfl

theorem getLsbD_0_signed (hn : n < 2 ^ 63) : (signed neg n).getLsbD 0 = decide (n % 2 = 1) := by
  rw [BitVec.getLsbD, Nat.testBit_eq_decide_div_mod_eq, signed_toNat neg hn]
  congr 2
  omega

theorem exponent_signed (hn : n < 2 ^ 63) : ((signed neg n).extractLsb' 52 11).toNat = n / 2 ^ 52 := by
  rw [BitVec.extractLsb'_toNat, Nat.shiftRight_eq_div_pow, signed_toNat neg hn]
  have bit := neg.toNat_le
  omega

theorem fraction_signed (hn : n < 2 ^ 63) : ((signed neg n).extractLsb' 0 52).toNat = n % 2 ^ 52 := by
  rw [BitVec.extractLsb'_toNat, Nat.shiftRight_eq_div_pow, signed_toNat neg hn]
  have bit := neg.toNat_le
  omega

end

theorem exists_signed (x : Dword) : ∃ neg n, n < 2 ^ 63 ∧ signed neg n = x := by
  have top := x.isLt
  refine ⟨decide (2 ^ 63 ≤ x.toNat), x.toNat % 2 ^ 63, Nat.mod_lt _ (by positivity), BitVec.eq_of_toNat_eq ?_⟩
  rw [signed_toNat _ (Nat.mod_lt _ (by positivity))]
  by_cases h : 2 ^ 63 ≤ x.toNat <;> simp only [h, decide_true, decide_false, Bool.toNat_true, Bool.toNat_false] <;> omega

/-- The fields of a finite pattern: the place `c` of the last bit counts from the subnormal grid 2^-1074, and the
significand `M` has 53 bits, or fewer at place 0 (40_common.md R220, R223). -/
structure isFinitePattern (c M : Nat) : Prop where
  significand : M < 2 ^ 53
  leading : 2 ^ 52 ≤ M ∨ c = 0
  inRange : c * 2 ^ 52 + M < infinityBits

theorem isFinitePattern.lt {c M : Nat} (h : isFinitePattern c M) : c * 2 ^ 52 + M < 2 ^ 63 :=
  h.inRange.trans (by decide)

theorem unpack_finite {c M : Nat} (h : isFinitePattern c M) (neg : Bool) :
    unpack (signed neg (c * 2 ^ 52 + M)) = .fin neg M ((c : Int) - 1074) := by
  obtain ⟨significand, leading, inRange⟩ := id h
  simp only [infinityBits] at inRange
  simp only [unpack, getLsbD_63_signed neg h.lt, exponent_signed neg h.lt, fraction_signed neg h.lt]
  rw [if_neg (by omega)]
  split_ifs
  · congr 1 <;> omega
  · congr 1 <;> omega

theorem unpack_infinity (neg : Bool) : unpack (signed neg infinityBits) = .inf neg := by
  cases neg <;> decide

theorem unpack_nan {n : Nat} (h1 : infinityBits < n) (h2 : n < 2 ^ 63) (neg : Bool) : unpack (signed neg n) = .nan := by
  simp only [infinityBits] at h1
  simp only [unpack, exponent_signed neg h2, fraction_signed neg h2]
  rw [if_pos (by omega), if_neg (by omega)]

/-- Every pattern is a finite one, an infinity, or a NaN. -/
theorem pattern_cases (x : Dword) : (∃ neg c M, isFinitePattern c M ∧ x = signed neg (c * 2 ^ 52 + M)) ∨
    (∃ neg, x = signed neg infinityBits) ∨ unpack x = .nan := by
  obtain ⟨neg, n, hn, rfl⟩ := exists_signed x
  rcases lt_trichotomy n infinityBits with below | rfl | above
  · left
    by_cases subnormal : n < 2 ^ 52
    · exact ⟨neg, 0, n, ⟨by omega, .inr rfl, by omega⟩, by rw [Nat.zero_mul, Nat.zero_add]⟩
    · have split : (n / 2 ^ 52 - 1) * 2 ^ 52 + (2 ^ 52 + n % 2 ^ 52) = n := by omega
      exact ⟨neg, n / 2 ^ 52 - 1, 2 ^ 52 + n % 2 ^ 52, ⟨by omega, .inl (by omega), by omega⟩, by rw [split]⟩
  · exact .inr (.inl ⟨neg, rfl⟩)
  · exact .inr (.inr (unpack_nan above hn neg))

theorem finite_iff {x : Dword} : finite x = true ↔ ∃ neg m e, unpack x = .fin neg m e := by
  unfold finite
  split <;> simp_all

theorem finite_of_isFinitePattern {c M : Nat} (h : isFinitePattern c M) (neg : Bool) :
    finite (signed neg (c * 2 ^ 52 + M)) = true := finite_iff.2 ⟨_, _, _, unpack_finite h neg⟩

theorem exists_isFinitePattern {x : Dword} (h : finite x = true) :
    ∃ neg c M, isFinitePattern c M ∧ x = signed neg (c * 2 ^ 52 + M) := by
  obtain ⟨neg, m, e, hx⟩ := finite_iff.1 h
  rcases pattern_cases x with fin | ⟨neg', rfl⟩ | nan
  · exact fin
  · rw [unpack_infinity] at hx; cases hx
  · rw [nan] at hx; cases hx

/-! ### The value of a finite pattern -/

theorem toRat_fin (neg : Bool) (m : Nat) (e : Int) :
    (Exact.fin neg m e).toRat = (if neg then -1 else 1) * (m : ℚ) * 2 ^ e := rfl

theorem abs_toRat (neg : Bool) (m : Nat) (e : Int) : |(Exact.fin neg m e).toRat| = m * 2 ^ e := by
  rw [toRat_fin]
  cases neg <;> simp

/-- The unit in the last place of a significand at place `c`. -/
def ulp (c : Nat) : ℚ := 2 ^ ((c : Int) - 1074)

theorem ulp_pos (c : Nat) : 0 < ulp c := by
  unfold ulp
  positivity

theorem ulp_mono {c d : Nat} (h : c ≤ d) : ulp c ≤ ulp d :=
  zpow_le_zpow_right₀ (by norm_num) (by omega)

theorem ulp_add (c n : Nat) : ulp (c + n) = 2 ^ n * ulp c := by
  have place : ((c + n : Nat) : Int) - 1074 = n + ((c : Int) - 1074) := by omega
  rw [ulp, place, zpow_add₀ (by norm_num), zpow_natCast, ulp]

/-- The places of the largest numbers. -/
theorem ulp_add_1074 (n : Nat) : ulp (n + 1074) = 2 ^ n := by
  have place : ((n + 1074 : Nat) : Int) - 1074 = (n : Int) := by omega
  rw [ulp, place, zpow_natCast]

theorem valueOf_finite {c M : Nat} (h : isFinitePattern c M) (neg : Bool) :
    valueOf (signed neg (c * 2 ^ 52 + M)) = (if neg then -1 else 1) * (M * ulp c) := by
  rw [valueOf, unpack_finite h, toRat_fin, ulp, mul_assoc]

theorem abs_sign_mul (neg : Bool) (r : ℚ) : |(if neg then -1 else 1) * r| = |r| := by
  cases neg <;> simp

theorem sign_mul_sign (neg : Bool) : (if neg then -1 else 1 : ℚ) * (if neg then -1 else 1) = 1 := by
  cases neg <;> simp

theorem abs_valueOf_finite {c M : Nat} (h : isFinitePattern c M) (neg : Bool) :
    |valueOf (signed neg (c * 2 ^ 52 + M))| = M * ulp c := by
  rw [valueOf_finite h, abs_sign_mul, abs_of_nonneg (mul_nonneg M.cast_nonneg (ulp_pos c).le)]

theorem threshold_eq : (2 : ℚ) ^ 1024 - 2 ^ 970 = (2 ^ 54 - 1) * 2 ^ 970 := by
  rw [sub_mul, ← pow_add, one_mul]

/-- Every finite number is smaller in size than 2^1024 - 2^970, where rounding overflows. -/
theorem isFinitePattern.value_lt {c M : Nat} (h : isFinitePattern c M) : (M : ℚ) * ulp c < 2 ^ 1024 - 2 ^ 970 := by
  obtain ⟨significand, leading, inRange⟩ := h
  simp only [infinityBits] at inRange
  have hM : (M : ℚ) ≤ 2 ^ 53 - 1 := by
    have : (M : ℚ) + 1 ≤ 2 ^ 53 := by exact_mod_cast significand
    linarith
  calc (M : ℚ) * ulp c ≤ (2 ^ 53 - 1) * ulp (971 + 1074) :=
        mul_le_mul hM (ulp_mono (by omega)) (ulp_pos c).le (by norm_num)
    _ = (2 ^ 54 - 2) * 2 ^ 970 := by rw [ulp_add_1074, pow_succ' 2 970, ← mul_assoc]; norm_num
    _ < (2 ^ 54 - 1) * 2 ^ 970 := mul_lt_mul_of_pos_right (by norm_num) (by positivity)
    _ = 2 ^ 1024 - 2 ^ 970 := threshold_eq.symm

/-! ### Rounding to an integer -/

/-- `M` is an integer nearest to `x`, the even one when two are as near. -/
def nearestEven (x : ℚ) (M : Nat) : Prop := |(M : ℚ) - x| ≤ 1 / 2 ∧ (|(M : ℚ) - x| = 1 / 2 → M % 2 = 0)

theorem nearestEven_self (n : Nat) : nearestEven n n := by
  simp [nearestEven]

theorem nearestEven_shiftRNE (m d : Nat) : nearestEven ((m : ℚ) / 2 ^ d) (shiftRNE m d) := by
  have pos : (0 : ℚ) < 2 ^ d := by positivity
  have parts : (2 : ℚ) ^ d * (m / 2 ^ d : Nat) + (m % 2 ^ d : Nat) = m := by exact_mod_cast Nat.div_add_mod m (2 ^ d)
  have quotient : (m : ℚ) / 2 ^ d = (m / 2 ^ d : Nat) + (m % 2 ^ d : Nat) / 2 ^ d := by
    rw [div_eq_iff pos.ne', add_mul, div_mul_cancel₀ _ pos.ne', mul_comm, parts]
  simp only [shiftRNE]
  rw [quotient]
  generalize m / 2 ^ d = q
  have lt : m % 2 ^ d < 2 ^ d := Nat.mod_lt m (by positivity)
  generalize m % 2 ^ d = r at lt ⊢
  have below : 2 * r < 2 ^ d ↔ (r : ℚ) / 2 ^ d < 1 / 2 := by
    rw [div_lt_iff₀ pos, ← Nat.cast_lt (α := ℚ)]
    push_cast
    constructor <;> intro h <;> linarith
  have above : 2 ^ d < 2 * r ↔ 1 / 2 < (r : ℚ) / 2 ^ d := by
    rw [lt_div_iff₀ pos, ← Nat.cast_lt (α := ℚ)]
    push_cast
    constructor <;> intro h <;> linarith
  have le_one : (r : ℚ) / 2 ^ d ≤ 1 := (div_le_one pos).2 (by exact_mod_cast lt.le)
  have nonneg : (0 : ℚ) ≤ (r : ℚ) / 2 ^ d := by positivity
  simp only [below, above]
  generalize (r : ℚ) / 2 ^ d = f at *
  have down : |(q : ℚ) - (q + f)| = f := by rw [abs_of_nonpos (by linarith)]; ring
  have up : |((q + 1 : Nat) : ℚ) - (q + f)| = 1 - f := by push_cast; rw [abs_of_nonneg (by linarith)]; ring
  unfold nearestEven
  split_ifs with h1 h2
  · rw [down]
    exact ⟨h1.le, fun tie => absurd tie h1.ne⟩
  · rw [up]
    exact ⟨by linarith, fun tie => absurd tie (by linarith)⟩
  · have tie : f = 1 / 2 := le_antisymm (not_lt.1 h2) (not_lt.1 h1)
    rcases Nat.mod_two_eq_zero_or_one q with even | odd
    · rw [even, Nat.add_zero, down]
      exact ⟨tie.le, fun _ => even⟩
    · rw [odd, up]
      exact ⟨by linarith, fun _ => by omega⟩

theorem nearestEven_roundTo (m : Nat) (e q : Int) : nearestEven ((m : ℚ) * 2 ^ (e - q)) (roundTo m e q) := by
  unfold roundTo
  split_ifs with h
  · have exact : ((m * 2 ^ (e - q).toNat : Nat) : ℚ) = m * 2 ^ (e - q) := by
      rw [Nat.cast_mul, Nat.cast_pow, ← zpow_natCast, Int.toNat_of_nonneg (by omega)]
      rfl
    rw [← exact]
    exact nearestEven_self _
  · have shift : (m : ℚ) * 2 ^ (e - q) = m / 2 ^ (q - e).toNat := by
      rw [← zpow_natCast, Int.toNat_of_nonneg (by omega), div_eq_mul_inv, ← zpow_neg, neg_sub]
    rw [shift]
    exact nearestEven_shiftRNE _ _

/-- No integer is nearer, and one as near leaves `M` even. -/
theorem nearestEven.nearest {x : ℚ} {M : Nat} (h : nearestEven x M) (z : Int) :
    |(M : ℚ) - x| ≤ |z - x| ∧ (|(M : ℚ) - x| = |z - x| → z ≠ M → M % 2 = 0) := by
  obtain ⟨near, even⟩ := h
  by_cases same : z = M
  · rw [same]
    exact ⟨le_rfl, fun _ ne => absurd rfl ne⟩
  · have apart : (1 : ℚ) ≤ |(z : ℚ) - M| := by
      exact_mod_cast Int.one_le_abs (sub_ne_zero.2 same)
    have triangle : |(z : ℚ) - M| ≤ |(z : ℚ) - x| + |(M : ℚ) - x| := by
      rw [abs_sub_comm (M : ℚ) x]
      exact abs_sub_le _ _ _
    exact ⟨by linarith, fun tie _ => even (by linarith)⟩

theorem nearestEven.eq {n M : Nat} (h : nearestEven n M) : M = n := by
  obtain ⟨near, -⟩ := h
  replace near : |(M : ℚ) - n| < 1 := near.trans_lt (by norm_num)
  have : |(M : Int) - n| < 1 := by exact_mod_cast near
  rw [Int.abs_lt_one_iff] at this
  omega

section
variable {x : ℚ} {M n : Nat} (h : nearestEven x M)
include h

theorem nearestEven.le_of_lt (hx : x < n) : M ≤ n := by
  obtain ⟨near, -⟩ := h
  obtain ⟨-, near⟩ := abs_le.1 near
  have : (M : ℚ) < n + 1 := by linarith
  have : M < n + 1 := by exact_mod_cast this
  omega

theorem nearestEven.ge_of_le (hx : n ≤ x) : n ≤ M := by
  obtain ⟨near, -⟩ := h
  obtain ⟨near, -⟩ := abs_le.1 near
  have : (n : ℚ) < M + 1 := by linarith
  have : n < M + 1 := by exact_mod_cast this
  omega

/-- The tie below an even number goes up to it. -/
theorem nearestEven.reaches (hn : n % 2 = 0) : n ≤ M ↔ (n : ℚ) - 1 / 2 ≤ x := by
  obtain ⟨near, even⟩ := h
  obtain ⟨lower, upper⟩ := abs_le.1 near
  constructor
  · intro hM
    have : (n : ℚ) ≤ M := by exact_mod_cast hM
    linarith
  · intro hx
    by_contra! below
    have : (M : ℚ) + 1 ≤ n := by exact_mod_cast below
    have tie : |(M : ℚ) - x| = 1 / 2 := by
      rw [abs_of_nonpos (by linarith)]
      linarith
    have : (M : ℚ) + 1 = n := by linarith
    have : M + 1 = n := by exact_mod_cast this
    have := even tie
    omega

end

/-! ### The place of a rounded value -/

theorem scaled_lastPlace {m : Nat} (hm : m ≠ 0) (e : Int) :
    (m : ℚ) * 2 ^ (e - lastPlace m e) < 2 ^ 53 ∧
      (2 ^ 52 ≤ (m : ℚ) * 2 ^ (e - lastPlace m e) ∨ lastPlace m e = -1074) := by
  have low : (2 : ℚ) ^ (m.log2 : Int) ≤ m := by exact_mod_cast Nat.log2_self_le hm
  have high : (m : ℚ) < 2 ^ ((m.log2 : Int) + 1) := by exact_mod_cast Nat.lt_log2_self (n := m)
  have monotone {i j : Int} (h : i ≤ j) : (2 : ℚ) ^ i ≤ 2 ^ j := zpow_le_zpow_right₀ (by norm_num) h
  have add (i j : Int) : (2 : ℚ) ^ (i + j) = 2 ^ i * 2 ^ j := zpow_add₀ (by norm_num) i j
  have pos : (0 : ℚ) < 2 ^ (e - lastPlace m e) := by positivity
  constructor
  · calc (m : ℚ) * 2 ^ (e - lastPlace m e) < 2 ^ ((m.log2 : Int) + 1) * 2 ^ (e - lastPlace m e) :=
          mul_lt_mul_of_pos_right high pos
      _ = 2 ^ ((m.log2 : Int) + 1 + (e - lastPlace m e)) := (add _ _).symm
      _ ≤ 2 ^ (53 : Int) := monotone (by unfold lastPlace; omega)
      _ = 2 ^ 53 := zpow_ofNat _ _
  · by_cases subnormal : lastPlace m e = -1074
    · exact .inr subnormal
    · left
      calc (2 : ℚ) ^ 52 = 2 ^ (52 : Int) := (zpow_ofNat _ _).symm
        _ ≤ 2 ^ ((m.log2 : Int) + (e - lastPlace m e)) := monotone (by unfold lastPlace at subnormal ⊢; omega)
        _ = 2 ^ (m.log2 : Int) * 2 ^ (e - lastPlace m e) := add _ _
        _ ≤ m * 2 ^ (e - lastPlace m e) := mul_le_mul_of_nonneg_right low pos.le

/-- `x` units of place `c` round to `M` of them; the place leaves 53 bits, or is that of the subnormal grid. -/
structure RoundsAt (x : ℚ) (c M : Nat) : Prop where
  near : nearestEven x M
  lt : x < 2 ^ 53
  leading : 2 ^ 52 ≤ x ∨ c = 0

/-- What rounding a finite value does (40_common.md R221). -/
theorem roundFinite_eq (neg : Bool) (m : Nat) (e : Int) : ∃ x c M, (m : ℚ) * 2 ^ e = x * ulp c ∧ RoundsAt x c M ∧
    roundFinite neg m e =
      if infinityBits ≤ c * 2 ^ 52 + M then signed neg infinityBits else signed neg (c * 2 ^ 52 + M) := by
  by_cases hm : m = 0
  · refine ⟨0, 0, 0, by simp [hm], ⟨by simpa using nearestEven_self 0, by norm_num, .inr rfl⟩, ?_⟩
    rw [roundFinite, if_pos hm]
    rfl
  · obtain ⟨lt, leading⟩ := scaled_lastPlace hm e
    have grid : -1074 ≤ lastPlace m e := le_max_right _ _
    have place : ((lastPlace m e + 1074).toNat : Int) = lastPlace m e + 1074 := Int.toNat_of_nonneg (by omega)
    refine ⟨_, _, _, ?_, ⟨nearestEven_roundTo m e (lastPlace m e), lt, leading.imp_right fun h => ?_⟩,
      by rw [roundFinite, if_neg hm]⟩
    · rw [ulp, place, mul_assoc, ← zpow_add₀ (by norm_num)]
      congr 2
      omega
    · omega

section
variable {x : ℚ} {c M : Nat} (h : RoundsAt x c M)
include h

theorem RoundsAt.significand_le : M ≤ 2 ^ 53 := h.near.le_of_lt (by exact_mod_cast h.lt)

theorem RoundsAt.significand_leading : 2 ^ 52 ≤ M ∨ c = 0 :=
  h.leading.imp_left fun hx => h.near.ge_of_le (by exact_mod_cast hx)

/-- A result in range is finite and stands for `M` units of place `c`; a significand rounded up to 2^53 is
2^52 of the next place. -/
theorem RoundsAt.finite_value (inRange : c * 2 ^ 52 + M < infinityBits) (neg : Bool) :
    finite (signed neg (c * 2 ^ 52 + M)) = true ∧
      valueOf (signed neg (c * 2 ^ 52 + M)) = (if neg then -1 else 1) * (M * ulp c) := by
  rcases h.significand_le.lt_or_eq with lt | rfl
  · have pattern : isFinitePattern c M := ⟨lt, h.significand_leading, inRange⟩
    exact ⟨finite_of_isFinitePattern pattern neg, valueOf_finite pattern neg⟩
  · have carry : c * 2 ^ 52 + 2 ^ 53 = (c + 1) * 2 ^ 52 + 2 ^ 52 := by ring
    have pattern : isFinitePattern (c + 1) (2 ^ 52) := ⟨by norm_num, .inl le_rfl, carry ▸ inRange⟩
    rw [carry]
    refine ⟨finite_of_isFinitePattern pattern neg, ?_⟩
    rw [valueOf_finite pattern, ulp_add]
    push_cast
    ring

/-- The result overflows exactly from 2^1024 - 2^970 on. -/
theorem RoundsAt.overflow_iff : infinityBits ≤ c * 2 ^ 52 + M ↔ 2 ^ 1024 - 2 ^ 970 ≤ x * ulp c := by
  have le := h.significand_le
  have leading := h.significand_leading
  simp only [infinityBits]
  rcases lt_trichotomy c 2045 with below | rfl | above
  · have small : x * ulp c < 2 ^ 53 * 2 ^ 970 :=
      calc x * ulp c < 2 ^ 53 * ulp c := mul_lt_mul_of_pos_right h.lt (ulp_pos c)
        _ ≤ 2 ^ 53 * ulp (970 + 1074) := mul_le_mul_of_nonneg_left (ulp_mono (by omega)) (by norm_num)
        _ = 2 ^ 53 * 2 ^ 970 := by rw [ulp_add_1074]
    have threshold : (2 : ℚ) ^ 53 * 2 ^ 970 ≤ 2 ^ 1024 - 2 ^ 970 := by
      rw [threshold_eq]
      exact mul_le_mul_of_nonneg_right (by norm_num) (by positivity)
    exact iff_of_false (by omega) (small.trans_le threshold).not_ge
  · have threshold : (2 : ℚ) ^ 1024 - 2 ^ 970 = ((2 ^ 53 : Nat) - 1 / 2) * 2 ^ 971 := by
      rw [threshold_eq, pow_succ' 2 970, ← mul_assoc]
      congr 1
      norm_num
    have largest : ulp 2045 = 2 ^ 971 := ulp_add_1074 971
    rw [largest, threshold, mul_le_mul_iff_left₀ (by positivity), ← h.near.reaches (by norm_num)]
    omega
  · have normal : 2 ^ 52 ≤ x := h.leading.resolve_right (by omega)
    have large : 2 ^ 52 * 2 ^ 972 ≤ x * ulp c :=
      calc (2 : ℚ) ^ 52 * 2 ^ 972 = 2 ^ 52 * ulp (972 + 1074) := by rw [ulp_add_1074]
        _ ≤ x * ulp c := 
          mul_le_mul normal (ulp_mono (by omega)) (ulp_pos _).le (by linarith)
    have threshold : (2 : ℚ) ^ 1024 - 2 ^ 970 ≤ 2 ^ 52 * 2 ^ 972 := by
      rw [threshold_eq, pow_add 2 2 970, ← mul_assoc]
      exact mul_le_mul_of_nonneg_right (by norm_num) (by positivity)
    exact iff_of_true (by omega) (threshold.trans large)

end

/-! ### Nearest among the finite numbers -/

/-- `w` is a multiple of the unit of place `c`, or below the numbers that have 53 bits there. -/
def onGrid (w : ℚ) (c : Nat) : Prop := (∃ z : Int, w = z * ulp c) ∨ (c ≠ 0 ∧ |w| < 2 ^ 52 * ulp c)

theorem onGrid.sign {w : ℚ} {c : Nat} (h : onGrid w c) (neg : Bool) : onGrid ((if neg then -1 else 1) * w) c := by
  rcases h with ⟨z, rfl⟩ | ⟨hc, lt⟩
  · refine .inl ⟨(if neg then -1 else 1) * z, ?_⟩
    cases neg <;> push_cast <;> ring
  · exact .inr ⟨hc, by rwa [abs_sign_mul]⟩

theorem onGrid_valueOf {y : Dword} (hy : finite y = true) (c : Nat) : onGrid (valueOf y) c := by
  obtain ⟨neg, d, N, pattern, rfl⟩ := exists_isFinitePattern hy
  by_cases above : c ≤ d
  · obtain ⟨n, rfl⟩ := Nat.exists_eq_add_of_le above
    refine .inl ⟨(if neg then -1 else 1) * (N * 2 ^ n), ?_⟩
    rw [valueOf_finite pattern, ulp_add]
    cases neg <;> push_cast <;> ring
  · obtain ⟨n, rfl⟩ := Nat.exists_eq_add_of_lt (not_le.1 above)
    refine .inr ⟨by omega, ?_⟩
    have hN : (N : ℚ) < 2 ^ 53 := by exact_mod_cast pattern.significand
    calc |valueOf (signed neg (d * 2 ^ 52 + N))| = N * ulp d := abs_valueOf_finite pattern neg
      _ < 2 ^ 53 * ulp d := mul_lt_mul_of_pos_right hN (ulp_pos d)
      _ = 2 ^ 52 * ulp (d + 1) := by rw [ulp_add]; ring
      _ ≤ 2 ^ 52 * ulp (d + n + 1) := mul_le_mul_of_nonneg_left (ulp_mono (by omega)) (by norm_num)

/-- The rounded value is as near as any number on the grid, and has an even significand when another is as near. -/
theorem RoundsAt.nearest {x w : ℚ} {c M : Nat} (h : RoundsAt x c M) (grid : onGrid w c) :
    |M * ulp c - x * ulp c| ≤ |w - x * ulp c| ∧
      (|M * ulp c - x * ulp c| = |w - x * ulp c| → w ≠ M * ulp c → M % 2 = 0) := by
  have pos := ulp_pos c
  have scale (r : ℚ) : |r * ulp c - x * ulp c| = |r - x| * ulp c := by
    rw [← sub_mul, abs_mul, abs_of_pos pos]
  rcases grid with ⟨z, rfl⟩ | ⟨hc, small⟩
  · obtain ⟨near, even⟩ := h.near.nearest z
    rw [scale, scale]
    refine ⟨mul_le_mul_of_nonneg_right near pos.le, fun tie ne => even (mul_right_cancel₀ pos.ne' tie) ?_⟩
    rintro rfl
    exact ne (by push_cast; rfl)
  · have normal := h.leading.resolve_right hc
    have leading : |(M : ℚ) - x| ≤ |(2 ^ 52 : Nat) - x| := by exact_mod_cast (h.near.nearest (2 ^ 52 : Nat)).1
    have strict : |M * ulp c - x * ulp c| < |w - x * ulp c| := by
      have below : w < 2 ^ 52 * ulp c := (le_abs_self w).trans_lt small
      have size : 2 ^ 52 * ulp c ≤ x * ulp c := mul_le_mul_of_nonneg_right normal pos.le
      calc |M * ulp c - x * ulp c| = |(M : ℚ) - x| * ulp c := scale _
        _ ≤ |(2 ^ 52 : Nat) - x| * ulp c := mul_le_mul_of_nonneg_right leading pos.le
        _ = x * ulp c - 2 ^ 52 * ulp c := by
          rw [abs_of_nonpos (by push_cast; linarith)]
          push_cast
          ring
        _ < |w - x * ulp c| := by
          rw [abs_of_nonpos (by linarith)]
          linarith
    exact ⟨strict.le, fun tie => absurd tie strict.ne⟩

/-- Settles O29: in units of the last place the value is rounded to the nearest integer, and every finite number is
on that grid or below it. -/
theorem roundingIsToNearestEven : Obligations.RoundingIsToNearestEven := by
  intro neg m e v r
  obtain ⟨x, c, M, value, h, rounded⟩ := roundFinite_eq neg m e
  have abs_v : |v| = x * ulp c := (abs_toRat neg m e).trans value
  have v_eq : v = (if neg then -1 else 1) * (x * ulp c) := by rw [← value, ← mul_assoc]; rfl
  have r_eq : r = _ := rounded
  rw [abs_v, ← h.overflow_iff, ← not_le, ← h.overflow_iff]
  by_cases overflow : infinityBits ≤ c * 2 ^ 52 + M
  · rw [if_pos overflow] at r_eq
    rw [r_eq, getLsbD_63_signed neg (by decide)]
    exact ⟨rfl, fun below => absurd overflow below, fun _ => by cases neg <;> rfl⟩
  · rw [if_neg overflow] at r_eq
    have inside : c * 2 ^ 52 + M < 2 ^ 63 := (not_le.1 overflow).trans (by decide)
    obtain ⟨fin, val⟩ := h.finite_value (not_le.1 overflow) neg
    rw [r_eq, getLsbD_63_signed neg inside, val, v_eq]
    refine ⟨rfl, fun _ => ⟨fin, fun y hy => ?_⟩, fun above => absurd above overflow⟩
    rw [getLsbD_0_signed neg inside, ← mul_sub, abs_sign_mul]
    obtain ⟨near, even⟩ := h.nearest ((onGrid_valueOf hy c).sign neg)
    have reflect (a : ℚ) : |valueOf y - (if neg then -1 else 1) * a| = |(if neg then -1 else 1) * valueOf y - a| := by
      rw [← abs_sign_mul neg, mul_sub, ← mul_assoc, sign_mul_sign, one_mul]
    rw [reflect]
    refine ⟨near, fun tie ne => ?_⟩
    have even := even tie fun same => ne (by rw [← same, ← mul_assoc, sign_mul_sign, one_mul])
    rw [decide_eq_false_iff_not]
    omega

end Sys2Proof.Machine
end

section
/-! PROOF. binary64: numbers round to themselves, the operations round the exact result, and what they do with zeros,
infinities and NaNs (40_common.md R220 to R226, 42_complex.md R306). -/

namespace Sys2Proof.Machine

open Sys2Proof.Stated

/-! ### Numbers round to themselves -/

theorem lastPlace_of_isFinitePattern {c M : Nat} (h : isFinitePattern c M) (hM : M ≠ 0) :
    lastPlace M ((c : Int) - 1074) = (c : Int) - 1074 := by
  have bits : M.log2 < 53 := (Nat.log2_lt hM).2 h.significand
  have leading : 52 ≤ M.log2 ∨ c = 0 := h.leading.imp_left (Nat.le_log2 hM).2
  unfold lastPlace
  omega

theorem roundFinite_of_isFinitePattern {c M : Nat} (h : isFinitePattern c M) (neg : Bool) :
    roundFinite neg M ((c : Int) - 1074) = signed neg (c * 2 ^ 52 + M) := by
  by_cases hM : M = 0
  · obtain rfl : c = 0 := h.leading.resolve_left (by omega)
    rw [hM, roundFinite, if_pos rfl]
    rfl
  · have exact : roundTo M ((c : Int) - 1074) ((c : Int) - 1074) = M := by
      rw [roundTo, if_pos le_rfl, sub_self, Int.toNat_zero, pow_zero, mul_one]
    have place : ((c : Int) - 1074 + 1074).toNat = c := by omega
    rw [roundFinite, if_neg hM, lastPlace_of_isFinitePattern h hM]
    simp only [exact, place]
    rw [if_neg (not_le.2 h.inRange)]

theorem rn_unpack {x : Dword} (h : ¬isNaN x) : rn (unpack x) = x := by
  rcases pattern_cases x with ⟨neg, c, M, pattern, rfl⟩ | ⟨neg, rfl⟩ | nan
  · rw [unpack_finite pattern]
    exact roundFinite_of_isFinitePattern pattern neg
  · rw [unpack_infinity]
    rfl
  · exact absurd nan h

/-- Settles O30: a finite pattern is its own significand at its own place, and its fields give its value. -/
theorem everyNumberRoundsToItself : Obligations.EveryNumberRoundsToItself := by
  refine ⟨fun x => rn_unpack, fun x special normal => ?_, fun x subnormal => ?_, fun x => ?_⟩
  · simp only [valueOf, unpack, if_neg special, if_neg normal, toRat_fin]
    push_cast
    rfl
  · simp only [valueOf, unpack, subnormal]
    rfl
  · simp only [finite, unpack]
    generalize (x.extractLsb' 52 11).toNat = exponent
    split_ifs <;> simp [*]

/-! ### The operations on finite operands -/

theorem signedInt_eq (neg : Bool) (m : Nat) : (signedInt neg m : ℚ) = (if neg then -1 else 1) * m := by
  cases neg <;> simp [signedInt]

/-- A significand shifted to a lower exponent stands for the same value. -/
theorem signedInt_shift {e g : Int} (h : g ≤ e) (s : Bool) (m : Nat) :
    (signedInt s (m * 2 ^ (e - g).toNat) : ℚ) * 2 ^ g = (Exact.fin s m e).toRat := by
  have shift : (2 : ℚ) ^ (e - g).toNat * 2 ^ g = 2 ^ e := by
    rw [← zpow_natCast, Int.toNat_of_nonneg (by omega), ← zpow_add₀ (by norm_num), sub_add_cancel]
  rw [signedInt_eq, toRat_fin, ← shift]
  push_cast
  ring

theorem toRat_of_int (v g : Int) : (Exact.fin (decide (v < 0)) v.natAbs g).toRat = v * 2 ^ g := by
  rw [toRat_fin, Nat.cast_natAbs]
  by_cases h : v < 0
  · simp [h, abs_of_neg h]
  · simp [h, abs_of_nonneg (not_lt.1 h)]

/-- The exact sum of finite values; an exact zero is negative only when both are (40_common.md R221). -/
theorem Exact.add_fin (s t : Bool) (m n : Nat) (e f : Int) : ∃ u k g, (Exact.fin s m e).add (.fin t n f) = .fin u k g ∧
    (Exact.fin u k g).toRat = (Exact.fin s m e).toRat + (Exact.fin t n f).toRat ∧ (k = 0 → u = (s && t)) := by
  have sum := congrArg₂ (· + ·) (signedInt_shift (min_le_left e f) s m) (signedInt_shift (min_le_right e f) t n)
  simp only [← add_mul] at sum
  rw [← sum, Exact.add]
  split_ifs with zero
  · refine ⟨_, _, _, rfl, ?_, fun _ => rfl⟩
    rw [toRat_fin, ← Int.cast_add, zero]
    simp
  · refine ⟨_, _, _, rfl, ?_, fun none => absurd (Int.natAbs_eq_zero.1 none) zero⟩
    rw [toRat_of_int, Int.cast_add]

theorem Exact.toRat_neg (E : Exact) : E.neg.toRat = -E.toRat := by
  cases E with
  | fin s m e => rw [Exact.neg, toRat_fin, toRat_fin]; cases s <;> simp
  | nan => simp [Exact.neg, Exact.toRat]
  | inf s => simp [Exact.neg, Exact.toRat]

theorem Exact.toRat_mul_fin (s t : Bool) (m n : Nat) (e f : Int) :
    ((Exact.fin s m e).mul (.fin t n f)).toRat = (Exact.fin s m e).toRat * (Exact.fin t n f).toRat := by
  rw [Exact.mul, toRat_fin, toRat_fin, toRat_fin, zpow_add₀ (by norm_num)]
  cases s <;> cases t <;> push_cast <;> simp <;> ring

theorem Exact.toRat_divPow2_fin (s : Bool) (m k : Nat) (e : Int) :
    ((Exact.fin s m e).divPow2 k).toRat = (Exact.fin s m e).toRat / 2 ^ k := by
  rw [Exact.divPow2, toRat_fin, toRat_fin, zpow_sub₀ (by norm_num), zpow_natCast, mul_div_assoc]

theorem unpack_of_finite {x : Dword} (h : finite x = true) : ∃ m e, unpack x = .fin (x.getLsbD 63) m e := by
  obtain ⟨neg, c, M, pattern, rfl⟩ := exists_isFinitePattern h
  rw [getLsbD_63_signed neg pattern.lt]
  exact ⟨M, _, unpack_finite pattern neg⟩

/-- Settles O31: each operation rounds a finite value, the rational result of its operands. -/
theorem operationsRoundTheExactResult : Obligations.OperationsRoundTheExactResult := by
  intro x y hx hy
  obtain ⟨m, e, ux⟩ := unpack_of_finite hx
  obtain ⟨n, f, uy⟩ := unpack_of_finite hy
  simp only [valueOf, fadd, fsub, fmul, fma, fdivPow2, ux, uy]
  refine ⟨?_, ?_, ?_, fun z hz => ?_, fun k => ⟨_, _, _, rfl, Exact.toRat_divPow2_fin _ _ _ _⟩⟩
  · obtain ⟨u, k, g, sum, value, -⟩ := Exact.add_fin (x.getLsbD 63) (y.getLsbD 63) m n e f
    exact ⟨u, k, g, congrArg rn sum, value⟩
  · obtain ⟨u, k, g, sum, value, -⟩ := Exact.add_fin (x.getLsbD 63) (!y.getLsbD 63) m n e f
    refine ⟨u, k, g, congrArg rn sum, value.trans ?_⟩
    rw [sub_eq_add_neg, ← Exact.toRat_neg]
    rfl
  · exact ⟨_, _, _, rfl, Exact.toRat_mul_fin _ _ _ _ _ _⟩
  · obtain ⟨p, i, uz⟩ := unpack_of_finite hz
    obtain ⟨u, k, g, sum, value, -⟩ := Exact.add_fin (x.getLsbD 63 ^^ y.getLsbD 63) (z.getLsbD 63) (m * n) p (e + f) i
    rw [uz, ← Exact.toRat_mul_fin]
    exact ⟨u, k, g, congrArg rn sum, value⟩

/-! ### Zeros and infinities -/

theorem toRat_fin_eq_zero {s : Bool} {m : Nat} {e : Int} : (Exact.fin s m e).toRat = 0 ↔ m = 0 := by
  rw [← abs_eq_zero, abs_toRat, mul_eq_zero_iff_right (by positivity), Nat.cast_eq_zero]

theorem rn_zero (s : Bool) (e : Int) : rn (.fin s 0 e) = if s then minusZero else plusZero := by
  rw [rn, roundFinite, if_pos rfl]
  cases s <;> rfl

theorem rn_inf (s : Bool) : rn (.inf s) = if s then minusInf else plusInf := by
  cases s <;> rfl

theorem unpack_plusInf : unpack plusInf = .inf false := unpack_infinity false
theorem unpack_minusInf : unpack minusInf = .inf true := unpack_infinity true
theorem unpack_minusZero : unpack minusZero = .fin true 0 (-1074) :=
  unpack_finite (c := 0) (M := 0) ⟨by decide, .inr rfl, by decide⟩ true

/-- Settles O32: an exact zero carries its sign through rounding, and an infinity meets the case of the exact
operation for it. -/
theorem zerosAndInfinities : Obligations.ZerosAndInfinities := by
  refine ⟨fun x y hx hy zero => ?_, fun x y hx hy zero => ?_, fun x hx => ?_, fun x hx nonzero => ?_,
    fun x hx zero => ?_, ?_, ?_, fun k => ⟨?_, ?_⟩⟩
  case refine_6 => rw [fadd, unpack_plusInf, unpack_minusInf]; rfl
  case refine_7 => rw [fsub, unpack_plusInf]; rfl
  case refine_8 => rw [fdivPow2, unpack_plusInf]; exact rn_inf false
  case refine_9 => rw [fdivPow2, unpack_minusZero]; exact rn_zero true _
  all_goals obtain ⟨m, e, ux⟩ := unpack_of_finite hx
  · obtain ⟨n, f, uy⟩ := unpack_of_finite hy
    obtain ⟨u, k, g, sum, value, sign⟩ := Exact.add_fin (x.getLsbD 63) (y.getLsbD 63) m n e f
    rw [valueOf, valueOf, ux, uy, ← value, toRat_fin_eq_zero] at zero
    rw [fadd, ux, uy, sum, sign zero, zero, rn_zero]
  · obtain ⟨n, f, uy⟩ := unpack_of_finite hy
    rw [valueOf, valueOf, ux, uy, ← Exact.toRat_mul_fin, Exact.mul, toRat_fin_eq_zero] at zero
    rw [fmul, ux, uy, Exact.mul, zero, rn_zero]
  · rw [fadd, fadd, fsub, fsub, unpack_plusInf, unpack_minusInf, ux]
    exact ⟨rn_inf false, rn_inf true, rn_inf true, rn_inf false⟩
  · rw [valueOf, ux, Ne, toRat_fin_eq_zero] at nonzero
    rw [fmul, fmul, unpack_plusInf, unpack_minusInf, ux, Exact.mul, Exact.mul, if_neg nonzero, if_neg nonzero, rn_inf,
      rn_inf]
    cases x.getLsbD 63 <;> exact ⟨rfl, rfl⟩
  · rw [valueOf, ux, toRat_fin_eq_zero] at zero
    rw [fmul, fmul, unpack_plusInf, unpack_minusInf, ux, Exact.mul, Exact.mul, if_pos zero, if_pos zero]
    exact ⟨rfl, rfl⟩

/-! ### The complex product -/

theorem Exact.mul_comm (E F : Exact) : E.mul F = F.mul E := by
  cases E <;> cases F <;> simp [Exact.mul, Bool.xor_comm, Nat.mul_comm, Int.add_comm]

theorem Exact.add_comm (E F : Exact) : E.add F = F.add E := by
  cases E with
  | nan => cases F <;> rfl
  | inf s =>
    cases F with
    | inf t => cases s <;> cases t <;> rfl
    | nan | fin => rfl
  | fin s m e =>
    cases F with
    | nan | inf => rfl
    | fin t n f => simp only [Exact.add, min_comm, Int.add_comm, Bool.and_comm]

theorem fmul_comm (x y : Dword) : fmul x y = fmul y x := congrArg rn (Exact.mul_comm _ _)
theorem fadd_comm (x y : Dword) : fadd x y = fadd y x := congrArg rn (Exact.add_comm _ _)

/-- Settles O34: the separate product is made of commutative operations. -/
theorem complexProduct : Obligations.ComplexProduct := by
  refine ⟨rfl, fun w z => rfl, fun w z => rfl, fun w z => ?_⟩
  simp only [cmul]
  rw [fmul_comm z.re, fmul_comm z.im, fmul_comm z.re, fmul_comm z.im, fadd_comm]

/-! ### NaNs -/

@[simp] theorem Exact.nan_add (E : Exact) : Exact.nan.add E = .nan := rfl
@[simp] theorem Exact.add_nan (E : Exact) : E.add .nan = .nan := by cases E <;> rfl
@[simp] theorem Exact.nan_mul (E : Exact) : Exact.nan.mul E = .nan := rfl
@[simp] theorem Exact.mul_nan (E : Exact) : E.mul .nan = .nan := by cases E <;> rfl
@[simp] theorem Exact.neg_nan : Exact.nan.neg = .nan := rfl
@[simp] theorem Exact.nan_divPow2 (k : Nat) : Exact.nan.divPow2 k = .nan := rfl
@[simp] theorem rn_nan : rn .nan = canonicalNaN := rfl

theorem not_isNaN_infinity (neg : Bool) : ¬isNaN (signed neg infinityBits) := by
  rw [isNaN, unpack_infinity]
  nofun

theorem not_isNaN_of_finite {x : Dword} (h : finite x = true) : ¬isNaN x := by
  obtain ⟨m, e, ux⟩ := unpack_of_finite h
  rw [isNaN, ux]
  nofun

/-- Rounding delivers no NaN but the canonical one (40_common.md R222). -/
theorem rn_eq_canonicalNaN {E : Exact} (h : isNaN (rn E)) : rn E = canonicalNaN := by
  cases E with
  | nan => rfl
  | inf s => exact absurd h (not_isNaN_infinity s)
  | fin s m e =>
    obtain ⟨x, c, M, -, rounds, rounded⟩ := roundFinite_eq s m e
    rw [rn, rounded] at h
    split_ifs at h with overflow
    · exact absurd h (not_isNaN_infinity s)
    · obtain ⟨fin, -⟩ := rounds.finite_value (not_le.1 overflow) s
      exact absurd h (not_isNaN_of_finite fin)

theorem Cplx.toEntry_ofEntry (v : Entry) : (Cplx.ofEntry v).toEntry = v := append_dwords v

theorem readFrom_single {α : Type} {f : Nat → Except Stop α} {i : Nat} {v : α} (h : f i = .ok v) :
    readFrom f i (2 ^ 0) = .ok [v] := by
  show readFrom f i (0 + 1) = _
  rw [readFrom, h]
  rfl

section
variable {s : State} {v : Entry} (read : s.dRead s.latch.src.toNat = .ok v)
include read

/-- A transform of one complex value has no stage, and moves the value. -/
theorem cplxTransform_single {τ : Type} (tw : Nat → Nat → Except Stop τ) (bfly : τ → Cplx → Cplx → Cplx × Cplx) :
    s.cplxTransform 0 tw bfly (stagesUp 0) (brevVec 0) id = .ok [v] := by
  have input : s.cplxInputs 0 = .ok [Cplx.ofEntry v] := readFrom_single (except_map_ok.2 ⟨v, read, rfl⟩)
  rw [State.cplxTransform, input]
  exact congrArg (fun e => Except.ok [e]) (Cplx.toEntry_ofEntry v)

theorem bufferBody_single {i : Instr} (hi : i ∈ [.brev 0, .fft 0, .fftf 0, .emb 0]) : bufferBody s i = .ok [v] := by
  fin_cases hi
  · -- brev
    rw [bufferBody, readFrom_single read]
    rfl
  all_goals exact cplxTransform_single read _ _

end

/-- Settles O33: every operation ends in RN, which has one NaN, and a transform of one value is a move. -/
theorem naNsAreCanonical : Obligations.NaNsAreCanonical := by
  refine ⟨rfl, fun x y nan => ?_, fun x nan k y z => ?_, fun x y z k r result nan => ?_, fun s i v hi pass read => ?_,
    fun k j v hv hj => brevVec_getElem? hv hj⟩
  · have nan : unpack x = .nan ∨ unpack y = .nan := nan
    rcases nan with nan | nan <;> simp [fadd, fsub, fmul, fma, nan]
  · have nan : unpack x = .nan := nan
    simp [fdivPow2, fma, nan]
  · rcases result with rfl | rfl | rfl | rfl | rfl <;> exact rn_eq_canonicalNaN nan
  · have buffer : i ∈ bufferCommands 0 := (show _ ⊆ bufferCommands 0 by simp [bufferCommands]) hi
    exact ⟨_, exec_of_bufferBody buffer pass (bufferBody_single read hi), s.endsWell_wrote _,
      s.entriesAt_wrote [v] 0 v rfl⟩

/-! ### Scaling -/

/-- Dividing by 2^k only lowers the exponent, so the significand stays an integer in units of the last place. -/
theorem fdivPow2_exact {x : Dword} (k : Nat) (hx : finite x = true)
    (normal : (2 : ℚ) ^ (-1022 : Int) ≤ |valueOf x| / 2 ^ k) :
    finite (fdivPow2 x k) = true ∧ valueOf (fdivPow2 x k) = valueOf x / 2 ^ k := by
  obtain ⟨neg, d, N, pattern, rfl⟩ := exists_isFinitePattern hx
  obtain ⟨x, c, M, value, h, rounded⟩ := roundFinite_eq neg N ((d : Int) - 1074 - k)
  have quotient : x * ulp c = N * ulp d / 2 ^ k := by
    rw [← value, zpow_sub₀ (by norm_num), zpow_natCast, ← mul_div_assoc, ulp]
  rw [abs_valueOf_finite pattern, ← quotient] at normal
  have leading : 2 ^ 52 * ulp c ≤ x * ulp c := by
    rcases h.leading with large | rfl
    · exact mul_le_mul_of_nonneg_right large (ulp_pos c).le
    · have least : (2 : ℚ) ^ 52 * ulp 0 = 2 ^ (-1022 : Int) := by
        rw [ulp, ← zpow_natCast, ← zpow_add₀ (by norm_num)]
        rfl
      exact least.trans_le normal
  have place : c + k ≤ d := by
    have hN : (N : ℚ) < 2 ^ 53 := by exact_mod_cast pattern.significand
    rw [quotient, le_div_iff₀ (by positivity)] at leading
    have upper := mul_lt_mul_of_pos_right hN (ulp_pos d)
    have lt : ulp (c + k) < ulp (d + 1) := by
      rw [ulp_add, ulp_add]
      linarith
    by_contra! beyond
    exact lt.not_ge (ulp_mono beyond)
  obtain ⟨n, rfl⟩ := Nat.exists_eq_add_of_le place
  have integer : x = (N * 2 ^ n : Nat) := by
    apply mul_right_cancel₀ (ulp_pos c).ne'
    rw [quotient, add_assoc, ulp_add, pow_add]
    push_cast
    field_simp
  have significand := h.near
  rw [integer] at significand
  have hM := significand.eq
  have inRange : c * 2 ^ 52 + M < infinityBits := by
    rw [← not_le, h.overflow_iff, not_le, quotient]
    have nonneg := mul_nonneg N.cast_nonneg (ulp_pos (c + k + n)).le
    exact (div_le_self nonneg (one_le_pow₀ (by norm_num))).trans_lt pattern.value_lt
  rw [if_neg (not_le.2 inRange)] at rounded
  have result : fdivPow2 (signed neg ((c + k + n) * 2 ^ 52 + N)) k = signed neg (c * 2 ^ 52 + M) := by
    rw [fdivPow2, unpack_finite pattern]
    exact rounded
  obtain ⟨fin, val⟩ := h.finite_value inRange neg
  rw [result, val]
  refine ⟨fin, ?_⟩
  rw [valueOf_finite pattern, mul_div_assoc, ← quotient, integer, hM]

/-- Settles O35: the quotient is exact, and the other operations are their formulas. -/
theorem scalingByPowersOfTwoIsExact : Obligations.ScalingByPowersOfTwoIsExact :=
  ⟨fun _ k => fdivPow2_exact k, fun _ _ => rfl, fun _ _ _ _ => ⟨rfl, rfl⟩⟩

end Sys2Proof.Machine
end

section
/-! PROOF. What mcfg and ccfg change, and what a successful mcfg builds (41_modular.md R250, R251,
42_complex.md R300). -/

namespace Sys2Proof.Machine

open Sys2Proof.Stated

/-! ### The frame -/

theorem get_mcfgCompute_outside {s : State} {b : Nat} (hb : ¬inRanges (mayHaveWritten s .mcfg) b) :
    (mcfgCompute s s.latch.s0).mem.get b = s.mem.get b := by
  simp only [inRanges, mayHaveWritten, List.exists_mem_cons_iff, List.not_mem_nil, false_and, exists_false,
    or_false] at hb
  simp only [mcfgCompute]
  rw [Memory.get_writeDwords_other, Memory.get_writeDwords_other, Memory.get_writeDwords_other] <;>
    simp only [powerTable_length, fwdAddr, invAddr, sinvAddr] <;> omega

theorem get_ccfgCompute_outside {s : State} {b : Nat} (hb : ¬inRanges (mayHaveWritten s .ccfg) b) :
    (ccfgCompute s s.latch.s0.clen).mem.get b = s.mem.get b := by
  simp only [inRanges, mayHaveWritten, List.mem_singleton, exists_eq_left] at hb
  refine Memory.get_writeWords_other _ _ _ ?_
  simp only [rotationTable_length, rotgAddr]
  omega

/-- What any command that completes has done: the writes of its phases, or an error (40_common.md R203). -/
theorem exec_next_ends {i : Instr} {s t : State} (h : exec i s = .next t) :
    (∃ u, phases i s = .ok u ∧ t = u.succeed) ∨ ∃ e info, e ≠ .ok ∧ t = s.afterError i e info :=
  (exec_next.1 h).imp_right fun ⟨e, info, raised, ht⟩ => ⟨e, info, phases_raise_ne_ok raised, ht⟩

/-- Settles O11: each of the two ends in its compute phase, which writes the listed tables, or in an error. -/
theorem configurationFrame : Obligations.ConfigurationFrame := by
  refine ⟨fun s t h => (exec_next_ends h).imp_left ?_, fun s t h => (exec_next_ends h).imp_left ?_⟩
  · rintro ⟨_, ok, rfl⟩
    obtain ⟨_, _, rfl⟩ := except_map_ok.1 ok
    exact ⟨rfl, fun _ => get_mcfgCompute_outside⟩
  · rintro ⟨_, ok, rfl⟩
    obtain ⟨_, _, rfl⟩ := except_map_ok.1 ok
    exact ⟨rfl, fun _ => get_ccfgCompute_outside⟩

/-! ### The context that mcfg builds -/

/-- The converse of `toNat_eq_two_pow_log2`. -/
theorem isPow2_of_toNat_eq {x : Word} (h : x.toNat = 2 ^ x.toNat.log2) : x ≠ 0 ∧ x &&& (x - 1) = 0 := by
  have pos : 0 < x.toNat := h ▸ Nat.two_pow_pos _
  have one_le : (1 : Word) ≤ x := pos
  refine ⟨fun zero => by simp [zero] at pos, BitVec.eq_of_toNat_eq ?_⟩
  rw [BitVec.toNat_and, BitVec.toNat_sub_of_le one_le]
  exact (Nat.and_sub_one_eq_zero_iff_isPowerOfTwo pos.ne').2 ⟨_, h⟩

theorem mcfgChecks_ok_of_checksPass {s : State} (pass : checksPass s .mcfg) :
    mcfgChecks s.params s.latch.s0 = .ok () := by
  have passed := firstFailing_eq_none.1 pass
  simp only [checkList, mcfgCheckList, List.forall_mem_cons, notPow2, decide_eq_false_iff_not, not_not, not_lt,
    ge_iff_le, not_le] at passed
  obtain ⟨pow2, limit, ha, hw, hwi, hdi, order, least, hinv, hdinv, _⟩ := passed
  exact mcfgChecks_ok.2 ⟨isPow2_of_toNat_eq pow2, limit, ha, hw, hwi, hdi, order, least, hinv, hdinv⟩

/-- ACT_LOGD holds the logarithm of the degree: five bits are enough for it. -/
theorem mcfgCompute_degree {s : State} (hp : s.params.wf) {st : Staging}
    (checks : mcfgChecks s.params st = .ok ()) : (mcfgCompute s st).ctxDegree = st.degree.toNat := by
  obtain ⟨pow2, limit, _⟩ := mcfgChecks_ok.1 checks
  have degree := toNat_eq_two_pow_log2 pow2
  have small : st.degree.toNat.log2 ≤ 16 := by
    rw [degree] at limit
    exact ((Nat.pow_le_pow_iff_right (by decide)).1 limit).trans hp.1
  have logd : (mcfgCompute s st).actLogd.toNat = st.degree.toNat.log2 := by
    simp only [mcfgCompute, BitVec.toNat_ofNat]
    omega
  rw [State.ctxDegree, logd, ← degree]

/-- Settles O17: the compute phase builds a modular context of the operands, and writes only its tables. -/
theorem mcfgBuildsTheTables : Obligations.McfgBuildsTheTables := by
  intro s hp pass
  have checks := mcfgChecks_ok_of_checksPass pass
  have degree := mcfgCompute_degree hp checks
  obtain ⟨ha, _, _, _, _, _, _, _, _, tables, bk, mu⟩ := mcfgCompute_modularTables hp checks
  obtain ⟨_, _, low, high⟩ := bitLength_bounds ha s.latch.s0.modulus.isLt
  rw [degree] at tables
  rw [← bk] at mu low high
  exact ⟨_, exec_next.2 (.inl ⟨_, except_map_ok.2 ⟨(), checks, rfl⟩, rfl⟩), rfl, rfl, rfl, rfl, degree, ⟨low, high⟩,
    mu, tables, fun _ => get_mcfgCompute_outside⟩

end Sys2Proof.Machine
end

section
/-! PROOF. NTT_CORE: which table entries it reads, and what it does stage by stage (41_modular.md R255, R256). -/

namespace Sys2Proof.Machine

/-! ### The twiddle index -/

theorem twiddleIndex_eq (k st i : Nat) : twiddleIndex k st i = i * 2 ^ (1 + k - st) := Nat.shiftLeft_eq i _

section
variable {k st i : Nat}

theorem twiddleIndex_eq_double (h2 : st ≤ k) : twiddleIndex k st i = 2 * (i * 2 ^ (k - st)) := by
  rw [twiddleIndex_eq, Nat.add_sub_assoc h2, pow_add, pow_one, Nat.mul_left_comm]

/-- The next index of the stage is still at most n. -/
theorem twiddleIndex_add_le (h1 : 1 ≤ st) (h2 : st ≤ k) (hi : i < 2 ^ (st - 1)) :
    twiddleIndex k st i + 2 ^ (k - st + 1) ≤ 2 ^ k := by
  calc twiddleIndex k st i + 2 ^ (k - st + 1) = (i + 1) * 2 ^ (k - st + 1) := by
        rw [twiddleIndex_eq, Nat.add_comm 1 k, Nat.sub_add_comm h2, Nat.succ_mul]
    _ ≤ 2 ^ (st - 1) * 2 ^ (k - st + 1) := Nat.mul_le_mul_right _ hi
    _ = 2 ^ k := by rw [← pow_add]; congr 1; omega

theorem twiddleIndex_add_two_le (h1 : 1 ≤ st) (h2 : st ≤ k) (hi : i < 2 ^ (st - 1)) :
    twiddleIndex k st i + 2 ≤ 2 ^ k := by
  have step := twiddleIndex_add_le h1 h2 hi
  have two : 2 ^ 1 ≤ 2 ^ (k - st + 1) := Nat.pow_le_pow_right (by decide) (by omega)
  omega

end

/-! ### Only the even entries are read -/

theorem runPairs_congr {α τ : Type} {tw tw' : Nat → Except Stop τ} {bfly : τ → α → α → α × α}
    {ps : List (Nat × Nat × Nat)} (A : List α) (h : ∀ p ∈ ps, tw p.2.2 = tw' p.2.2) :
    runPairs tw bfly ps A = runPairs tw' bfly ps A := by
  induction ps generalizing A with
  | nil => rfl
  | cons p ps ih =>
    obtain ⟨e, o, i⟩ := p
    obtain ⟨head, tail⟩ := List.forall_mem_cons.1 h
    simp only [runPairs, head, ih _ tail]

theorem runStages_congr {α τ : Type} {tw tw' : Nat → Nat → Except Stop τ} {bfly : τ → α → α → α × α} {k : Nat}
    {ss : List Nat} (A : List α) (h : ∀ s ∈ ss, ∀ p ∈ stagePairs k s, tw s p.2.2 = tw' s p.2.2) :
    runStages tw bfly k ss A = runStages tw' bfly k ss A := by
  induction ss generalizing A with
  | nil => rfl
  | cons s ss ih =>
    obtain ⟨head, tail⟩ := List.forall_mem_cons.1 h
    simp only [runStages, runPairs_congr A head, ih _ tail]

theorem nttCore_congr {a k : Nat} {T U : Nat → Except Stop Nat} (x : List Nat)
    (h : ∀ j, 2 * j + 2 ≤ 2 ^ k → T (2 * j) = U (2 * j)) : nttCore a k T x = nttCore a k U x := by
  refine runStages_congr _ fun st hst p hp => ?_
  obtain ⟨h1, h2⟩ := mem_stagesUp.1 hst
  have inside := twiddleIndex_add_two_le h1 h2 ((stagePairs_index h1 h2).1 ⟨p, hp, rfl⟩)
  rw [twiddleIndex_eq_double h2] at inside ⊢
  exact h _ inside

/-- Settles O23: the index is a multiple of 2^(k-s+1), which is at least 2, below n. -/
theorem twiddleIndexStaysInTheTable : Obligations.TwiddleIndexStaysInTheTable := by
  refine ⟨fun k st i h1 h2 hi => ?_, fun k j hk hj => ⟨j, ?_, twiddleIndex_last k j⟩, fun a k T U x => nttCore_congr x⟩
  · refine ⟨twiddleIndex_eq k st i, Nat.le_sub_of_add_le (twiddleIndex_add_le h1 h2 hi),
      Nat.le_sub_of_add_le (twiddleIndex_add_two_le h1 h2 hi), ?_⟩
    rw [twiddleIndex_eq_double h2, Nat.mul_mod_right]
  · have half := Nat.two_pow_pred_add_two_pow_pred hk
    have pos := Nat.two_pow_pos (k - 1)
    omega

/-! ### Stage by stage -/

theorem runStages_append {α τ : Type} {tw : Nat → Nat → Except Stop τ} {bfly : τ → α → α → α × α} {k : Nat}
    (ss ts : List Nat) (A : List α) :
    runStages tw bfly k (ss ++ ts) A = runStages tw bfly k ss A >>= runStages tw bfly k ts := by
  induction ss generalizing A with
  | nil => rfl
  | cons s ss ih => simp only [List.cons_append, runStages, ih, bind_assoc]

/-- Stages whose twiddles can all be read run to their end. -/
theorem runStages_completes {α τ : Type} {tw : Nat → Nat → Except Stop τ} {bfly : τ → α → α → α × α} {k : Nat}
    (ss : List Nat) (A : List α) (h : ∀ st i, ∃ w, tw st i = .ok w) : ∃ B, runStages tw bfly k ss A = .ok B := by
  cases hr : runStages tw bfly k ss A with
  | ok B => exact ⟨B, rfl⟩
  | error r =>
    obtain ⟨st, _, p, _, stops⟩ := runStages_error hr
    obtain ⟨w, hw⟩ := h st p.2.2
    cases hw.symm.trans stops

theorem stagesUp_succ (n : Nat) : stagesUp (n + 1) = stagesUp n ++ [n + 1] := by
  rw [stagesUp, List.range_succ, List.map_append]
  rfl

theorem runStages_stagesUp_succ {α τ : Type} {tw : Nat → Nat → Except Stop τ} {bfly : τ → α → α → α × α}
    {k n : Nat} {A B C : List α} (hB : runStages tw bfly k (stagesUp n) A = .ok B)
    (hC : runStages tw bfly k (stagesUp (n + 1)) A = .ok C) :
    runPairs (tw (n + 1)) bfly (stagePairs k (n + 1)) B = .ok C := by
  rw [stagesUp_succ, runStages_append, hB] at hC
  have last : runStages tw bfly k [n + 1] B = .ok C := hC
  obtain ⟨D, hD, same⟩ := except_bind_ok.1 last
  exact hD.trans same

theorem msub_eq_mod {a y : Nat} (x : Nat) (hy : y ≤ a) : msub a x y = (x + (a - y)) % a := by
  have wrap : ((x + (a - y) : Nat) : Int) = x - y + a := by omega
  rw [msub, ← Int.add_emod_right, ← wrap]
  exact Int.toNat_natCast _

theorem map_range_getD {n : Nat} {A : List Nat} (hA : A.length = n) :
    (List.range n).map (fun j => A.getD j 0) = A := by
  subst hA
  exact List.ext_getElem (by simp) fun j _ hj => by simp [hj]

/-- Settles O21: `S st` is the buffer after stages 1 .. st, and one more stage acts on each of its pairs. -/
theorem nttCoreStageByStage : Obligations.NttCoreStageByStage := by
  intro a k T x ha hx
  choose B hB using fun st => runStages_completes (k := k) (bfly := mbfly a)
    (tw := fun st i => .ok (T (twiddleIndex k st i))) (stagesUp st) (brevVec k x) fun st i => ⟨_, rfl⟩
  have length (st : Nat) : (B st).length = 2 ^ k := (runStages_length (hB st)).trans (brevVec_length hx)
  refine ⟨fun st j => (B st).getD j 0, fun j hj => ?_, fun st blk i h1 h2 hb hi => ?_, ?_⟩
  · have start : brevVec k x = B 0 := Except.ok.inj (hB 0)
    have inside : j < (B 0).length := length 0 ▸ hj
    rw [← brevVec_getElem? hx hj, start, List.getElem?_eq_getElem inside]
    exact congrArg some (List.getD_eq_getElem _ _ inside).symm
  · obtain ⟨n, rfl⟩ := Nat.exists_eq_add_of_le' h1
    obtain ⟨C, hC, _, pointwise⟩ := stageOfButterfliesPointwise Nat Nat (mbfly a)
      (fun i => T (twiddleIndex k (n + 1) i)) k (n + 1) (B n) (length n) h1 h2
    obtain rfl : C = B (n + 1) := Except.ok.inj (hC.symm.trans (runStages_stagesUp_succ (hB n) (hB (n + 1))))
    obtain ⟨u, v, hu, hv, he, ho⟩ := pointwise blk i hb hi
    rw [Nat.add_sub_cancel] at hv ho
    have reduced := (Nat.mod_lt (T (twiddleIndex k (n + 1) i) * v) ha).le
    simp only [Nat.add_sub_cancel, List.getD_eq_getElem?_getD, hu, hv, he, ho, Option.getD_some, mbfly, mmul, madd,
      ← twiddleIndex_eq, msub_eq_mod u reduced, and_self]
  · rw [map_range_getD (length k)]
    exact hB k

end Sys2Proof.Machine
end

section
/-! PROOF. The modular commands over a residue buffer: ntt.fwd, ntt.inv, ntt.usr, fttf and ftti write NTT_CORE of
their input (41_modular.md R252 to R254). -/

namespace Sys2Proof.Machine

/-! ### NTT_CORE over a table that reads as a function -/

theorem nttOf_completes (a k : Nat) (T : Nat → Nat) (x : List Nat) : ∃ A, nttOf a k T x = .ok A :=
  runStages_completes _ _ fun _ _ => ⟨_, rfl⟩

/-- Of a table only the even entries have to read as `T` (41_modular.md R256; log 10). -/
theorem nttCore_eq_nttOf {a k : Nat} {read : Nat → Except Stop Nat} {T : Nat → Nat} (x : List Nat)
    (h : ∀ j, 2 * j + 2 ≤ 2 ^ k → read (2 * j) = .ok (T (2 * j))) : nttCore a k read x = nttOf a k T x :=
  nttCore_congr x h

theorem twist_eq_mapIdx {a : Nat} {read : Nat → Except Stop Nat} {T : Nat → Nat} {x : List Nat}
    (h : ∀ j < x.length, read j = .ok (T j)) : twist a read 0 x = .ok (x.mapIdx fun i v => v * T i % a) := by
  refine twist_ok.2 ⟨List.length_mapIdx, fun j v hv => ?_⟩
  obtain ⟨hj, _⟩ := List.getElem?_eq_some_iff.1 hv
  rw [Nat.zero_add, List.getElem?_mapIdx, hv]
  exact ⟨T j, h j hj, rfl⟩

/-! ### The commands -/

section
variable {k : Nat} {s : State} {x A : List Nat} {i : Instr}

/-- A modular command whose checks pass writes what its core computes of the residues it reads. -/
theorem exec_residueTransform {core : List Nat → Except Stop (List Nat)} (hi : i ∈ bufferCommands k)
    (body : bufferBody s i = s.residueTransform k core) (pass : checksPass s i) (full : x.length = 2 ^ k)
    (residues : residuesAt s s.latch.src.toNat s.ctxMod x) (hA : core x = .ok A) :
    exec i s = .next (s.wrote (A.map residueEntry)) := by
  refine exec_of_bufferBody hi pass (body.trans ?_)
  rw [State.residueTransform, residueInputs_ok full residues]
  exact except_bind_ok.2 ⟨x, rfl, except_bind_ok.2 ⟨A, hA, rfl⟩⟩

/-- 41_modular.md R253. -/
theorem exec_fttf {T : Nat → Nat} (pass : checksPass s (.fttf k)) (full : x.length = 2 ^ k)
    (residues : residuesAt s s.latch.src.toNat s.ctxMod x) (table : ∀ j, j < 2 ^ k → s.fwdAt j = .ok (T j))
    (hA : fttForward s.ctxMod k T x = .ok A) : exec (.fttf k) s = .next (s.wrote (A.map residueEntry)) := by
  refine exec_residueTransform (k := k) (by simp [bufferCommands]) rfl pass full residues ?_
  rw [twist_eq_mapIdx (T := T) (full ▸ table)]
  exact (nttCore_eq_nttOf _ fun j hj => table _ (by omega)).trans hA

/-- 41_modular.md R254. -/
theorem exec_ftti {T S : Nat → Nat} (pass : checksPass s (.ftti k)) (full : x.length = 2 ^ k)
    (residues : residuesAt s s.latch.src.toNat s.ctxMod x)
    (inv : ∀ j, 2 * j + 2 ≤ 2 ^ k → s.invAt (2 * j) = .ok (T (2 * j))) (sinv : ∀ j, j < 2 ^ k → s.sinvAt j = .ok (S j))
    (hA : fttInverse s.ctxMod k T S x = .ok A) : exec (.ftti k) s = .next (s.wrote (A.map residueEntry)) := by
  obtain ⟨z, hz, rfl⟩ := except_map_ok.1 hA
  refine exec_residueTransform (k := k) (by simp [bufferCommands]) rfl pass full residues ?_
  rw [nttCore_eq_nttOf x inv, hz]
  exact twist_eq_mapIdx ((nttCore_length full hz).symm ▸ sinv)

end

/-- Settles O19: the residue checks pass, and NTT_CORE over the table that is read is that over `T`. -/
theorem nttWritesTheTransform : Obligations.NttWritesTheTransform := by
  refine ⟨fun k s x T i read hi pass full residues table => ?_, fun k s x y pass full fullTable residues table => ?_⟩
  · obtain ⟨A, hA⟩ := nttOf_completes s.ctxMod k T x
    have core := (nttCore_eq_nttOf x table).trans hA
    refine ⟨A, _, hA, ?_, writesBuffer_wrote s _⟩
    rcases hi with ⟨rfl, rfl⟩ | ⟨rfl, rfl⟩ <;>
      exact exec_residueTransform (k := k) (by simp [bufferCommands]) rfl pass full residues core
  · obtain ⟨A, hA⟩ := nttOf_completes s.ctxMod k (fun j => y.getD j 0) x
    refine ⟨A, _, hA, ?_, writesBuffer_wrote s _⟩
    refine exec_residueTransform (k := k) (by simp [bufferCommands]) rfl pass full residues ?_
    refine except_bind_ok.2 ⟨y, checkResidues_ok.2 ⟨fullTable, table⟩, ?_⟩
    refine (nttCore_eq_nttOf x fun j hj => ?_).trans hA
    have inside : 2 * j < y.length := by omega
    rw [List.getD_eq_getElem _ _ inside]
    exact (table _ _ (List.getElem?_eq_getElem inside)).1

/-- Settles O20: the two twists and NTT_CORE are those of the tables that are read. -/
theorem fttWritesTheTwistedTransform : Obligations.FttWritesTheTwistedTransform := by
  refine ⟨fun k s x T pass full residues table => ?_, fun k s x T S pass full residues inv sinv => ?_⟩
  · obtain ⟨A, hA⟩ := nttOf_completes s.ctxMod k T (x.mapIdx fun i v => v * T i % s.ctxMod)
    exact ⟨A, _, hA, exec_fttf pass full residues table hA, writesBuffer_wrote s _⟩
  · obtain ⟨A, hA⟩ := nttOf_completes s.ctxMod k T x
    exact ⟨A, _, hA, exec_ftti pass full residues inv sinv (except_map_ok.2 ⟨A, hA, rfl⟩), writesBuffer_wrote s _⟩

end Sys2Proof.Machine
end

section
/-! PROOF. NTT_CORE over the powers of w as a function over a commutative ring: it halves in time and in frequency,
is inverted by the powers of the inverse of w, and is the cyclic transform where w^n = -1 (41_modular.md R257, R258). -/

namespace Sys2Proof.Machine

/-- The lowest bit of the index is the highest of the reversed one. -/
theorem brev_low_bit (k j : Nat) : brev (k + 1) j = j % 2 * 2 ^ k + brev k (j / 2) := by
  rw [brev, List.range_succ_eq_map, List.map_cons, List.sum_cons, List.map_map, brev, Nat.add_sub_cancel, Nat.sub_zero]
  congr 1
  · rw [Nat.testBit_zero]
    rcases Nat.mod_two_eq_zero_or_one j with h | h <;> simp [h]
  · congr 1
    refine List.map_congr_left fun b hb => ?_
    simp only [Function.comp_apply, Nat.succ_eq_add_one, Nat.testBit_succ]
    congr 2
    omega

/-! ### The butterflies over a ring -/

section
variable {R : Type} [CommRing R]

/-- NTT_CORE of 2^k elements over the powers of `w`, by halving the input in time: the transforms of the elements at
even and at odd indices, joined by the butterflies of the last stage (41_modular.md R255). -/
def ringNtt : Nat → R → (Nat → R) → Nat → R
  | 0, _, x, _ => x 0
  | k + 1, w, x, m =>
    ringNtt k (w ^ 2) (fun j => x (2 * j)) (m % 2 ^ k) +
      (-1) ^ (m / 2 ^ k) * w ^ (2 * (m % 2 ^ k)) * ringNtt k (w ^ 2) (fun j => x (2 * j + 1)) (m % 2 ^ k)

theorem ringNtt_congr {k : Nat} {w : R} {x y : Nat → R} {m : Nat} (h : ∀ j < 2 ^ k, x j = y j) :
    ringNtt k w x m = ringNtt k w y m := by
  induction k generalizing w x y m with
  | zero => exact h 0 (by decide)
  | succ k ih =>
    rw [pow_succ] at h
    rw [ringNtt, ringNtt, ih fun j hj => h (2 * j) (by omega), ih fun j hj => h (2 * j + 1) (by omega)]

theorem ringNtt_smul (k : Nat) (w c : R) (x : Nat → R) (m : Nat) :
    ringNtt k w (fun j => c * x j) m = c * ringNtt k w x m := by
  induction k generalizing w x m with
  | zero => rfl
  | succ k ih =>
    rw [ringNtt, ringNtt, ih, ih]
    ring

/-- The last stage on its pair `i` (41_modular.md R255). -/
theorem ringNtt_pair {k i : Nat} (w : R) (x : Nat → R) (hi : i < 2 ^ k) :
    ringNtt (k + 1) w x i = ringNtt k (w ^ 2) (fun j => x (2 * j)) i +
        w ^ (2 * i) * ringNtt k (w ^ 2) (fun j => x (2 * j + 1)) i ∧
      ringNtt (k + 1) w x (i + 2 ^ k) = ringNtt k (w ^ 2) (fun j => x (2 * j)) i -
        w ^ (2 * i) * ringNtt k (w ^ 2) (fun j => x (2 * j + 1)) i := by
  constructor
  · rw [ringNtt, Nat.mod_eq_of_lt hi, Nat.div_eq_of_lt hi]
    ring
  · rw [ringNtt, Nat.add_mod_right, Nat.mod_eq_of_lt hi, Nat.add_div_right _ (Nat.two_pow_pos k), Nat.div_eq_of_lt hi]
    ring

/-- The same transform halves in frequency: outputs at even indices come from the sums of the elements half the
length apart, those at odd indices from their differences, twisted. -/
theorem ringNtt_frequency (k : Nat) (w : R) (x : Nat → R) (m : Nat) :
    ringNtt (k + 1) w x (2 * m) = ringNtt k (w ^ 2) (fun j => x j + x (j + 2 ^ k)) m ∧
      ringNtt (k + 1) w x (2 * m + 1) = ringNtt k (w ^ 2) (fun j => w ^ (2 * j) * (x j - x (j + 2 ^ k))) m := by
  induction k generalizing w x m with
  | zero => simp [ringNtt, Nat.mod_one, pow_succ, pow_mul, sub_eq_add_neg]
  | succ k ih =>
    have ⟨evenBlock, oddBlock⟩ : 2 * m / 2 ^ (k + 1) = m / 2 ^ k ∧ (2 * m + 1) / 2 ^ (k + 1) = m / 2 ^ k := by
      rw [pow_succ', ← Nat.div_div_eq_div_mul, ← Nat.div_div_eq_div_mul]
      constructor <;> congr 1 <;> omega
    have ⟨evenPair, oddPair⟩ : 2 * m % 2 ^ (k + 1) = 2 * (m % 2 ^ k) ∧ (2 * m + 1) % 2 ^ (k + 1) = 2 * (m % 2 ^ k) + 1 := by
      rw [pow_succ', Nat.mod_mul, Nat.mod_mul, Nat.mul_div_cancel_left m two_pos, show (2 * m + 1) / 2 = m by omega]
      omega
    have evenIndex (j : Nat) : 2 * (j + 2 ^ k) = 2 * j + 2 ^ (k + 1) := by rw [pow_succ']; ring
    constructor
    · rw [ringNtt, evenBlock, evenPair, (ih _ _ _).1, (ih _ _ _).1, ringNtt]
      simp only [evenIndex, Nat.add_right_comm _ (2 ^ (k + 1)) 1]
      ring
    · have twisted : (fun j => w ^ (2 * (2 * j + 1)) * (x (2 * j + 1) - x (2 * j + 1 + 2 ^ (k + 1)))) =
          fun j => w ^ 2 * ((w ^ 2) ^ (2 * j) * (x (2 * j + 1) - x (2 * j + 1 + 2 ^ (k + 1)))) := by
        funext j
        ring
      rw [ringNtt, oddBlock, oddPair, (ih _ _ _).2, (ih _ _ _).2, ringNtt, twisted, ringNtt_smul]
      simp only [evenIndex, Nat.add_right_comm _ (2 ^ (k + 1)) 1, pow_mul]
      ring

/-- The transform by the inverse root undoes the transform, but for the factor n (41_modular.md R258): it joins in
time what the other split in frequency. -/
theorem ringNtt_ringNtt {w wi : R} (inverse : w * wi = 1) {k m : Nat} (x : Nat → R) (hm : m < 2 ^ k) :
    ringNtt k wi (ringNtt k w x) m = 2 ^ k * x m := by
  induction k generalizing w wi x m with
  | zero =>
    obtain rfl : m = 0 := by omega
    simp [ringNtt]
  | succ k ih =>
    have squares : w ^ 2 * wi ^ 2 = 1 := by rw [← mul_pow, inverse, one_pow]
    have twiddles (i : Nat) : wi ^ (2 * i) * w ^ (2 * i) = 1 := by rw [← mul_pow, mul_comm, inverse, one_pow]
    have joined {i : Nat} (hi : i < 2 ^ k) :
        ringNtt k (wi ^ 2) (fun j => ringNtt (k + 1) w x (2 * j)) i = 2 ^ k * (x i + x (i + 2 ^ k)) ∧
          wi ^ (2 * i) * ringNtt k (wi ^ 2) (fun j => ringNtt (k + 1) w x (2 * j + 1)) i =
            2 ^ k * (x i - x (i + 2 ^ k)) := by
      simp only [ringNtt_frequency]
      rw [ih squares _ hi, ih squares _ hi]
      exact ⟨rfl, by linear_combination 2 ^ k * (x i - x (i + 2 ^ k)) * twiddles i⟩
    rcases Nat.lt_or_ge m (2 ^ k) with low | high
    · rw [(ringNtt_pair wi _ low).1, (joined low).1, (joined low).2]
      ring
    · obtain ⟨i, rfl⟩ := Nat.exists_eq_add_of_le' high
      have hi : i < 2 ^ k := by rw [pow_succ] at hm; omega
      rw [(ringNtt_pair wi _ hi).2, (joined hi).1, (joined hi).2]
      ring

theorem sum_range_double (f : Nat → R) (n : Nat) :
    ∑ j ∈ Finset.range (2 * n), f j = ∑ j ∈ Finset.range n, f (2 * j) + ∑ j ∈ Finset.range n, f (2 * j + 1) := by
  induction n with
  | zero => simp
  | succ n ih =>
    rw [Nat.mul_succ, Finset.sum_range_succ, Finset.sum_range_succ, ih, Finset.sum_range_succ, Finset.sum_range_succ]
    ring

/-- With w^n = -1 it is the cyclic transform with root w^2 (41_modular.md R257). -/
theorem ringNtt_eq_sum {k : Nat} {w : R} (half : w ^ 2 ^ k = -1) (x : Nat → R) (m : Nat) :
    ringNtt k w x m = ∑ j ∈ Finset.range (2 ^ k), x j * (w ^ (2 * m)) ^ j := by
  induction k generalizing w x m with
  | zero => simp [ringNtt]
  | succ k ih =>
    have halfSquare : (w ^ 2) ^ 2 ^ k = -1 := by rw [← pow_mul, ← pow_succ', half]
    have root : w ^ (2 * m) = (-1) ^ (m / 2 ^ k) * w ^ (2 * (m % 2 ^ k)) := by
      conv_lhs => rw [← Nat.div_add_mod m (2 ^ k)]
      rw [mul_add, pow_add, ← mul_assoc, ← pow_succ', pow_mul, half]
    have squared : (w ^ 2) ^ (2 * (m % 2 ^ k)) = (w ^ (2 * m)) ^ 2 := by
      rw [root, mul_pow, pow_right_comm (-1), neg_one_sq, one_pow, one_mul, pow_right_comm]
    rw [ringNtt, ih halfSquare, ih halfSquare, squared, ← root, pow_succ' 2 k, sum_range_double, Finset.mul_sum]
    congr 1
    · exact Finset.sum_congr rfl fun j _ => by ring
    · exact Finset.sum_congr rfl fun j _ => by ring

/-! ### Stage by stage -/

/-- The law of 41_modular.md R255 over a ring: stage st + 1 acts on the pairs of block `blk`, whose halves are the
blocks 2 blk and 2 blk + 1 of the stage before. -/
def ringStages (k : Nat) (w : R) (S : Nat → Nat → R) : Prop :=
  ∀ st blk i, st < k → blk < 2 ^ (k - (st + 1)) → i < 2 ^ st →
    S (st + 1) (blk * 2 ^ (st + 1) + i) =
        S st (2 * blk * 2 ^ st + i) + w ^ (i * 2 ^ (k - st)) * S st ((2 * blk + 1) * 2 ^ st + i) ∧
      S (st + 1) (blk * 2 ^ (st + 1) + (i + 2 ^ st)) =
        S st (2 * blk * 2 ^ st + i) - w ^ (i * 2 ^ (k - st)) * S st ((2 * blk + 1) * 2 ^ st + i)

/-- After stage st each block holds the transform of the elements that bit reversal put there: those whose index is
the reversed block number modulo 2^(k-st). -/
theorem ringStages.eq_ringNtt {k : Nat} {w : R} {S : Nat → Nat → R} (stages : ringStages k w S) {x : Nat → R}
    (start : ∀ j < 2 ^ k, S 0 j = x (brev k j)) {st blk m : Nat} (h : st ≤ k) (hb : blk < 2 ^ (k - st))
    (hm : m < 2 ^ st) : S st (blk * 2 ^ st + m) =
      ringNtt st (w ^ 2 ^ (k - st)) (fun j => x (j * 2 ^ (k - st) + brev (k - st) blk)) m := by
  induction st generalizing blk m with
  | zero =>
    obtain rfl : m = 0 := by omega
    simpa [ringNtt] using start blk hb
  | succ st ih =>
    obtain ⟨r, rfl⟩ := Nat.exists_eq_add_of_le h
    have below : st + 1 + r - st = r + 1 := by omega
    rw [Nat.add_sub_cancel_left] at hb ⊢
    rw [below, pow_succ'] at ih
    have evens (j : Nat) : 2 * j * 2 ^ r + brev r blk = j * (2 * 2 ^ r) + brev (r + 1) (2 * blk) := by
      rw [brev_low_bit, Nat.mul_mod_right, Nat.mul_div_cancel_left _ two_pos]
      ring
    have odds (j : Nat) : (2 * j + 1) * 2 ^ r + brev r blk = j * (2 * 2 ^ r) + brev (r + 1) (2 * blk + 1) := by
      rw [brev_low_bit, Nat.mul_add_mod, show (2 * blk + 1) / 2 = blk by omega]
      ring
    have root : (w ^ 2 ^ r) ^ 2 = w ^ (2 * 2 ^ r) := by rw [← pow_mul, mul_comm]
    have twiddle (i : Nat) : (w ^ 2 ^ r) ^ (2 * i) = w ^ (i * 2 ^ (st + 1 + r - st)) := by
      rw [← pow_mul, below]
      congr 1
      ring
    have pair {i : Nat} (hi : i < 2 ^ st) := ringNtt_pair (w ^ 2 ^ r) (fun j => x (j * 2 ^ r + brev r blk)) hi
    have law {i : Nat} (hi : i < 2 ^ st) := stages st blk i h (by rwa [Nat.add_sub_cancel_left]) hi
    simp only [root, twiddle, evens, odds] at pair
    have halves {i : Nat} (hi : i < 2 ^ st) :=
      And.intro (ih (blk := 2 * blk) (by omega) (by omega) hi) (ih (blk := 2 * blk + 1) (by omega) (by omega) hi)
    rcases Nat.lt_or_ge m (2 ^ st) with low | high
    · rw [(law low).1, (halves low).1, (halves low).2, (pair low).1]
    · obtain ⟨i, rfl⟩ := Nat.exists_eq_add_of_le' high
      have hi : i < 2 ^ st := by rw [pow_succ] at hm; omega
      rw [(law hi).2, (halves hi).1, (halves hi).2, (pair hi).2]

end

end Sys2Proof.Machine
end

section
/-! PROOF. NTT_CORE over the powers of w, on residues: it is the ring transform, so it is the cyclic transform where
w^n = -1, and it is invertible (41_modular.md R257). -/

namespace Sys2Proof.Machine

/-! ### Residue buffers -/

/-- A buffer of 2^k residues of `a`. -/
def residueBuffer (a k : Nat) (x : List Nat) : Prop := x.length = 2 ^ k ∧ ∀ v ∈ x, v < a

/-- A buffer as a function into the ring of residues. -/
def inRing (a : Nat) (x : List Nat) (j : Nat) : ZMod a := (x.getD j 0 : Nat)

section
variable {a k : Nat} {x y : List Nat}

theorem residueBuffer.ext (hx : residueBuffer a k x) (hy : residueBuffer a k y)
    (h : ∀ j < 2 ^ k, inRing a x j = inRing a y j) : x = y := by
  obtain ⟨lx, rx⟩ := hx
  obtain ⟨ly, ry⟩ := hy
  refine List.ext_getElem (lx.trans ly.symm) fun j hj hj' => ?_
  have same := h j (lx ▸ hj)
  rw [inRing, inRing, List.getD_eq_getElem _ _ hj, List.getD_eq_getElem _ _ hj', ZMod.natCast_eq_natCast_iff',
    Nat.mod_eq_of_lt (rx _ (List.getElem_mem hj)), Nat.mod_eq_of_lt (ry _ (List.getElem_mem hj'))] at same
  exact same

theorem residueBuffer_map_range {f : Nat → Nat} (h : ∀ j < 2 ^ k, f j < a) :
    residueBuffer a k ((List.range (2 ^ k)).map f) :=
  ⟨by simp, by simpa using h⟩

theorem inRing_map_range {f : Nat → Nat} {j : Nat} (hj : j < 2 ^ k) :
    inRing a ((List.range (2 ^ k)).map f) j = f j := by
  rw [inRing, List.getD_eq_getElem _ _ (by simpa using hj)]
  simp

/-- The twist by a table (41_modular.md R253, R254). -/
theorem residueBuffer_twist (ha : 0 < a) (hx : x.length = 2 ^ k) (T : Nat → Nat) :
    residueBuffer a k (x.mapIdx fun i v => v * T i % a) := by
  refine ⟨List.length_mapIdx.trans hx, fun v hv => ?_⟩
  obtain ⟨_, _, rfl⟩ := List.mem_mapIdx.1 hv
  exact Nat.mod_lt _ ha

theorem inRing_twist (hx : x.length = 2 ^ k) (T : Nat → Nat) {j : Nat} (hj : j < 2 ^ k) :
    inRing a (x.mapIdx fun i v => v * T i % a) j = inRing a x j * T j := by
  have inside : j < x.length := hx ▸ hj
  rw [inRing, inRing, List.getD_eq_getElem _ _ (by simpa using inside), List.getD_eq_getElem _ _ inside,
    List.getElem_mapIdx, ZMod.natCast_mod, Nat.cast_mul]

end

theorem cast_pow_mod (a w j : Nat) : ((w ^ j % a : Nat) : ZMod a) = (w : ZMod a) ^ j := by
  rw [ZMod.natCast_mod, Nat.cast_pow]

theorem cast_eq_one_of_mod {a n : Nat} (h : n % a = 1) : (n : ZMod a) = 1 := by
  rw [← ZMod.natCast_mod, h, Nat.cast_one]

theorem cast_eq_neg_one_of_mod {a n : Nat} (ha : 0 < a) (h : n % a = a - 1) : (n : ZMod a) = -1 := by
  rw [← ZMod.natCast_mod, h, Nat.cast_sub ha, ZMod.natCast_self, Nat.cast_one, zero_sub]

/-! ### NTT_CORE over the powers of w -/

section
variable {a k w : Nat} {x A : List Nat}

theorem cast_add_sub_mod {a t : Nat} (u : Nat) (ht : t ≤ a) : (((u + (a - t)) % a : Nat) : ZMod a) = u - t := by
  rw [ZMod.natCast_mod, Nat.cast_add, Nat.cast_sub ht, ZMod.natCast_self, zero_sub, sub_eq_add_neg]

/-- The last stage writes remainders; without a stage the input is the output. -/
theorem nttOf_residues (ha : 0 < a) (hx : residueBuffer a k x) {T : Nat → Nat} (hA : nttOf a k T x = .ok A) :
    residueBuffer a k A := by
  obtain ⟨full, residues⟩ := hx
  obtain ⟨S, start, stage, result⟩ := nttCoreStageByStage a k T x ha full
  obtain rfl := Except.ok.inj (hA.symm.trans result)
  refine residueBuffer_map_range fun m hm => ?_
  cases k with
  | zero =>
    obtain rfl : m = 0 := by omega
    exact residues _ (List.mem_of_getElem? (start 0 hm))
  | succ k =>
    have last (i : Nat) (hi : i < 2 ^ k) := stage (k + 1) 0 i (Nat.succ_pos k) le_rfl (by simp) hi
    simp only [Nat.zero_mul, Nat.zero_add, Nat.add_sub_cancel] at last
    rcases Nat.lt_or_ge m (2 ^ k) with low | high
    · exact (last m low).1 ▸ Nat.mod_lt _ ha
    · obtain ⟨i, rfl⟩ := Nat.exists_eq_add_of_le' high
      exact (last i (by rw [pow_succ] at hm; omega)).2 ▸ Nat.mod_lt _ ha

/-- NTT_CORE over the powers of `w` is the ring transform, on residues. -/
theorem nttOf_powers (ha : 0 < a) (hx : residueBuffer a k x) :
    ∃ A, nttOf a k (fun j => w ^ j % a) x = .ok A ∧ residueBuffer a k A ∧
      ∀ m < 2 ^ k, inRing a A m = ringNtt k (w : ZMod a) (inRing a x) m := by
  obtain ⟨S, start, stage, result⟩ := nttCoreStageByStage a k (fun j => w ^ j % a) x ha hx.1
  have stages : ringStages k (w : ZMod a) fun st j => (S st j : ZMod a) := by
    intro st blk i hst hb hi
    obtain ⟨even, odd⟩ := stage (st + 1) blk i (Nat.succ_pos st) hst hb hi
    have before : blk * 2 ^ (st + 1) + i = 2 * blk * 2 ^ st + i ∧
        blk * 2 ^ (st + 1) + (i + 2 ^ st) = 2 * blk * 2 ^ st + i + 2 ^ st ∧
        (2 * blk + 1) * 2 ^ st + i = 2 * blk * 2 ^ st + i + 2 ^ st := by
      rw [pow_succ']
      refine ⟨?_, ?_, ?_⟩ <;> ring
    have shift : 1 + k - (st + 1) = k - st := by omega
    obtain ⟨e, o, o'⟩ := before
    rw [Nat.add_sub_cancel, e, shift] at even odd
    beta_reduce
    rw [e, o, o', even, odd, ZMod.natCast_mod, cast_add_sub_mod _ (Nat.mod_lt _ ha).le]
    push_cast [ZMod.natCast_mod]
    exact ⟨rfl, rfl⟩
  have input (j : Nat) (hj : j < 2 ^ k) : (S 0 j : ZMod a) = inRing a x (brev k j) := by
    rw [inRing, List.getD_eq_getElem?_getD, start j hj, Option.getD_some]
  refine ⟨_, result, nttOf_residues ha hx result, fun m hm => ?_⟩
  have last := stages.eq_ringNtt input (st := k) (blk := 0) le_rfl (by simp) hm
  rw [inRing_map_range hm]
  simpa [brev] using last

end

end Sys2Proof.Machine
end

section
/-! PROOF. What the modular transforms compute over a table of powers: the cyclic transform, the round trip of fttf and
ftti, and the negacyclic product (41_modular.md R257 to R259). -/

namespace Sys2Proof.Machine

open Sys2Proof.Stated

/-! ### The cyclic transform -/

/-- The transform by a unit `w` is injective where n is a unit too. -/
theorem eq_of_ringNtt_eq {R : Type} [CommRing R] {k : Nat} {w wi di : R} (inverse : w * wi = 1)
    (unit : 2 ^ k * di = 1) {x y : Nat → R} (h : ∀ m < 2 ^ k, ringNtt k w x m = ringNtt k w y m) {j : Nat}
    (hj : j < 2 ^ k) : x j = y j := by
  have same : 2 ^ k * x j = 2 ^ k * y j := by
    rw [← ringNtt_ringNtt inverse x hj, ← ringNtt_ringNtt inverse y hj, ringNtt_congr h]
  linear_combination di * same + (y j - x j) * unit

section
variable {a k w wi di : Nat}

theorem cast_inverse (h : w * wi % a = 1) : (w : ZMod a) * wi = 1 := by
  exact_mod_cast cast_eq_one_of_mod h

theorem cast_length_inverse (h : 2 ^ k % a * di % a = 1) : (2 : ZMod a) ^ k * di = 1 := by
  have := cast_eq_one_of_mod h
  push_cast [ZMod.natCast_mod] at this
  exact this

theorem cast_half (ha : 0 < a) (h : w ^ 2 ^ k % a = a - 1) : (w : ZMod a) ^ 2 ^ k = -1 := by
  exact_mod_cast cast_eq_neg_one_of_mod ha h

end

/-- Settles O24: on residues NTT_CORE is the ring transform, which is the cyclic one where w^n = -1 and is undone by
the powers of the inverse of w. -/
theorem nttCoreIsTheCyclicTransform : Obligations.NttCoreIsTheCyclicTransform := by
  refine ⟨fun a k w x ha half full residues => ⟨fun st i _ h2 => ?_, ?_⟩,
    fun a k w wi di x y ha inverse unit fullX fullY resX resY same => ?_⟩
  · rw [twiddleIndex_eq_double h2, Nat.pow_div h2 two_pos]
  · have pos : 0 < a := by omega
    obtain ⟨A, hA, buffer, value⟩ := nttOf_powers (w := w) pos ⟨full, residues⟩
    rw [hA]
    refine congrArg _ (buffer.ext (residueBuffer_map_range fun m _ => Nat.mod_lt _ pos) fun m hm => ?_)
    rw [value m hm, ringNtt_eq_sum (cast_half pos half), inRing_map_range hm, ZMod.natCast_mod]
    push_cast
    refine Finset.sum_congr rfl fun j _ => ?_
    rw [inRing, ← pow_mul, mul_assoc, mul_comm m j]
  · have pos : 0 < a := by omega
    obtain ⟨A, hA, _, valueA⟩ := nttOf_powers (w := w) pos ⟨fullX, resX⟩
    obtain ⟨B, hB, _, valueB⟩ := nttOf_powers (w := w) pos ⟨fullY, resY⟩
    obtain rfl : A = B := Except.ok.inj (hA.symm.trans (same.trans hB))
    exact residueBuffer.ext ⟨fullX, resX⟩ ⟨fullY, resY⟩ fun j hj =>
      eq_of_ringNtt_eq (cast_inverse inverse) (cast_length_inverse unit)
        (fun m hm => (valueA m hm).symm.trans (valueB m hm)) hj

/-! ### The round trip -/

section
variable {a k w wi di : Nat} {x P : List Nat}

/-- fttf over the powers of `w` on residues (41_modular.md R253). -/
theorem fttForward_powers (ha : 0 < a) (hx : residueBuffer a k x) :
    ∃ P, fttForward a k (fun j => w ^ j % a) x = .ok P ∧ residueBuffer a k P ∧
      ∀ m < 2 ^ k, inRing a P m = ringNtt k (w : ZMod a) (fun j => inRing a x j * (w : ZMod a) ^ j) m := by
  obtain ⟨P, hP, buffer, value⟩ := nttOf_powers (w := w) ha
    (residueBuffer_twist ha hx.1 fun j => w ^ j % a)
  refine ⟨P, hP, buffer, fun m hm => (value m hm).trans (ringNtt_congr fun j hj => ?_)⟩
  rw [inRing_twist hx.1 _ hj, cast_pow_mod]

/-- ftti over the powers of `wi` on residues (41_modular.md R254). -/
theorem fttInverse_powers (ha : 0 < a) (hx : residueBuffer a k x) :
    ∃ r, fttInverse a k (fun j => wi ^ j % a) (fun j => di * wi ^ j % a) x = .ok r ∧ residueBuffer a k r ∧
      ∀ m < 2 ^ k, inRing a r m = ringNtt k (wi : ZMod a) (inRing a x) m * (di * (wi : ZMod a) ^ m) := by
  obtain ⟨z, hz, ⟨full, _⟩, value⟩ := nttOf_powers (w := wi) ha hx
  refine ⟨_, except_map_ok.2 ⟨z, hz, rfl⟩, residueBuffer_twist ha full _, fun m hm => ?_⟩
  rw [inRing_twist full _ hm, value m hm, ZMod.natCast_mod, Nat.cast_mul, Nat.cast_pow]

/-- 41_modular.md R258. -/
theorem fttInverse_fttForward (ha : 0 < a) (inverse : w * wi % a = 1) (unit : 2 ^ k % a * di % a = 1)
    (hx : residueBuffer a k x) (hP : fttForward a k (fun j => w ^ j % a) x = .ok P) :
    fttInverse a k (fun j => wi ^ j % a) (fun j => di * wi ^ j % a) P = .ok x := by
  obtain ⟨Q, hQ, bufferQ, forward⟩ := fttForward_powers (w := w) ha hx
  obtain rfl := Except.ok.inj (hP.symm.trans hQ)
  obtain ⟨r, hr, buffer, backward⟩ := fttInverse_powers (wi := wi) (di := di) ha bufferQ
  rw [hr]
  refine congrArg _ (buffer.ext hx fun m hm => ?_)
  have one := cast_inverse inverse
  have twists : (w : ZMod a) ^ m * (wi : ZMod a) ^ m = 1 := by rw [← mul_pow, one, one_pow]
  rw [backward m hm, ringNtt_congr forward, ringNtt_ringNtt one _ hm]
  linear_combination inRing a x m * (di * 2 ^ k) * twists + inRing a x m * cast_length_inverse unit

end

/-! ### The negacyclic product -/

section
variable {R : Type} [CommRing R] {n : Nat} {z : R}

/-- Coefficient m of the product modulo x^n + 1. -/
def negacyclicCoeff (n : Nat) (p q : Nat → R) (m : Nat) : R :=
  ∑ i ∈ Finset.range n, ∑ j ∈ Finset.range n,
    if i + j = m then p i * q j else if i + j = m + n then -(p i * q j) else 0

/-- x^s modulo x^n + 1 has one coefficient, which is negative from s = n on. -/
theorem sum_folded (root : z ^ n = -1) (c : R) {s : Nat} (hs : s < 2 * n) :
    ∑ m ∈ Finset.range n, (if s = m then c else if s = m + n then -c else 0) * z ^ m = c * z ^ s := by
  rcases Nat.lt_or_ge s n with low | high
  · rw [Finset.sum_eq_single_of_mem s (Finset.mem_range.2 low) fun m hm ne => ?_, if_pos rfl]
    rw [if_neg ne.symm, if_neg (by omega), zero_mul]
  · obtain ⟨r, rfl⟩ := Nat.exists_eq_add_of_le' high
    have hr : r ∈ Finset.range n := Finset.mem_range.2 (by omega)
    rw [Finset.sum_eq_single_of_mem r hr fun m hm ne => ?_, if_neg (by omega), if_pos rfl, pow_add, root]
    · ring
    · rw [Finset.mem_range] at hm
      rw [if_neg (by omega), if_neg (by omega), zero_mul]

/-- At a root of x^n + 1 the negacyclic product has the value of the product (41_modular.md R259). -/
theorem eval_negacyclic (root : z ^ n = -1) (p q : Nat → R) :
    ∑ m ∈ Finset.range n, negacyclicCoeff n p q m * z ^ m =
      (∑ i ∈ Finset.range n, p i * z ^ i) * ∑ j ∈ Finset.range n, q j * z ^ j := by
  rw [Finset.sum_mul_sum]
  simp only [negacyclicCoeff, Finset.sum_mul]
  rw [Finset.sum_comm]
  refine Finset.sum_congr rfl fun i hi => ?_
  rw [Finset.sum_comm]
  refine Finset.sum_congr rfl fun j hj => ?_
  rw [Finset.mem_range] at hi hj
  rw [sum_folded root (p i * q j) (by omega), pow_add]
  ring

/-- The twisted transform gives the values at the odd powers of w (41_modular.md R253). -/
theorem ringNtt_twisted {k : Nat} {w : R} (half : w ^ 2 ^ k = -1) (x : Nat → R) (m : Nat) :
    ringNtt k w (fun j => x j * w ^ j) m = ∑ j ∈ Finset.range (2 ^ k), x j * (w ^ (2 * m + 1)) ^ j := by
  rw [ringNtt_eq_sum half]
  exact Finset.sum_congr rfl fun j _ => by ring

end

section
variable {a k w : Nat} {p q P Q : List Nat}

theorem residueBuffer_negacyclic (ha : 0 < a) (p q : List Nat) : residueBuffer a k (negacyclic a (2 ^ k) p q) := by
  refine residueBuffer_map_range fun m _ => ?_
  have modulus : (0 : Int) < a := by omega
  exact (Int.toNat_lt (Int.emod_nonneg _ modulus.ne')).2 (Int.emod_lt_of_pos _ modulus)

theorem inRing_negacyclic (ha : 0 < a) (p q : List Nat) {m : Nat} (hm : m < 2 ^ k) :
    inRing a (negacyclic a (2 ^ k) p q) m = negacyclicCoeff (2 ^ k) (inRing a p) (inRing a q) m := by
  rw [negacyclic, inRing_map_range hm, ZMod.natCast_toNat _ (Int.emod_nonneg _ (by omega)), ZMod.intCast_mod]
  push_cast
  rfl

theorem residueBuffer_pointwise (ha : 0 < a) (hP : P.length = 2 ^ k) (hQ : Q.length = 2 ^ k) :
    residueBuffer a k (pointwise a P Q) := by
  refine ⟨by simp [pointwise, hP, hQ], fun v hv => ?_⟩
  obtain ⟨i, hi, rfl⟩ := List.getElem_of_mem hv
  simp only [pointwise, List.getElem_zipWith]
  exact Nat.mod_lt _ ha

theorem inRing_pointwise (hP : P.length = 2 ^ k) (hQ : Q.length = 2 ^ k) {m : Nat} (hm : m < 2 ^ k) :
    inRing a (pointwise a P Q) m = inRing a P m * inRing a Q m := by
  have insideP : m < P.length := hP ▸ hm
  have insideQ : m < Q.length := hQ ▸ hm
  rw [inRing, inRing, inRing, pointwise, List.getD_eq_getElem _ _ (by simp [insideP, insideQ]),
    List.getD_eq_getElem _ _ insideP, List.getD_eq_getElem _ _ insideQ, List.getElem_zipWith, ZMod.natCast_mod,
    Nat.cast_mul]

/-- With w^d = -1 the pointwise product of two transforms is the transform of the negacyclic product. -/
theorem fttForward_negacyclic (ha : 0 < a) (half : w ^ 2 ^ k % a = a - 1) (hp : residueBuffer a k p)
    (hq : residueBuffer a k q) (hP : fttForward a k (fun j => w ^ j % a) p = .ok P)
    (hQ : fttForward a k (fun j => w ^ j % a) q = .ok Q) :
    fttForward a k (fun j => w ^ j % a) (negacyclic a (2 ^ k) p q) = .ok (pointwise a P Q) := by
  obtain ⟨P', hP', ⟨fullP, _⟩, valueP⟩ := fttForward_powers (w := w) ha hp
  obtain ⟨Q', hQ', ⟨fullQ, _⟩, valueQ⟩ := fttForward_powers (w := w) ha hq
  obtain rfl := Except.ok.inj (hP.symm.trans hP')
  obtain rfl := Except.ok.inj (hQ.symm.trans hQ')
  obtain ⟨N, hN, buffer, value⟩ := fttForward_powers (w := w) ha (residueBuffer_negacyclic (k := k) ha p q)
  rw [hN]
  refine congrArg _ (buffer.ext (residueBuffer_pointwise ha fullP fullQ) fun m hm => ?_)
  have minus := cast_half ha half
  have root : ((w : ZMod a) ^ (2 * m + 1)) ^ 2 ^ k = -1 := by
    rw [pow_right_comm, minus]
    exact Odd.neg_one_pow ⟨m, rfl⟩
  rw [inRing_pointwise fullP fullQ hm, valueP m hm, valueQ m hm, value m hm, ringNtt_twisted minus,
    ringNtt_twisted minus, ringNtt_twisted minus, ← eval_negacyclic root]
  refine Finset.sum_congr rfl fun j hj => ?_
  rw [inRing_negacyclic ha p q (Finset.mem_range.1 hj)]

end

/-- Modulo a prime the square roots of 1 are 1 and -1. -/
theorem pow_eq_pred_of_prime {a d w : Nat} (ha : a.Prime) (order : w ^ (2 * d) % a = 1) (least : w ^ d % a ≠ 1) :
    w ^ d % a = a - 1 := by
  have := Fact.mk ha
  have square : ((w ^ d : Nat) : ZMod a) * (w ^ d : Nat) = 1 := by
    rw [← Nat.cast_mul, ← pow_add, ← two_mul]
    exact cast_eq_one_of_mod order
  rcases mul_self_eq_one_iff.1 square with one | minus
  · rw [← Nat.cast_one, ZMod.natCast_eq_natCast_iff', Nat.mod_eq_of_lt ha.one_lt] at one
    exact absurd one least
  · rw [← cast_eq_neg_one_of_mod ha.pos (Nat.mod_eq_of_lt (Nat.pred_lt ha.ne_zero)),
      ZMod.natCast_eq_natCast_iff'] at minus
    exact minus.trans (Nat.mod_eq_of_lt (Nat.pred_lt ha.ne_zero))

/-- Settles O26: the pointwise product is the transform of the negacyclic product, which the inverse restores; modulo
15 both sides are computed for p = q = x. -/
theorem negacyclicConvolution : Obligations.NegacyclicConvolution := by
  refine ⟨fun a d w => pow_eq_pred_of_prime, fun a k w wi di p q ha half inverse unit lp lq rp rq => ?_, ?_⟩
  · have pos : 0 < a := by omega
    obtain ⟨P, hP, _⟩ := fttForward_powers (w := w) pos ⟨lp, rp⟩
    obtain ⟨Q, hQ, _⟩ := fttForward_powers (w := w) pos ⟨lq, rq⟩
    exact ⟨P, Q, hP, hQ, fttInverse_fttForward pos inverse unit (residueBuffer_negacyclic pos p q)
      (fttForward_negacyclic pos half ⟨lp, rp⟩ ⟨lq, rq⟩ hP hQ)⟩
  · exact ⟨[0, 1], [0, 1], [2, 13], [2, 13], [4, 0], rfl, rfl, by decide, by decide, rfl, rfl, rfl, by decide⟩

end Sys2Proof.Machine
end

section
/-! PROOF. fttf and then ftti over one buffer restore its residues, in every modular context (41_modular.md R258). -/

namespace Sys2Proof.Machine

open Sys2Proof.Stated

theorem low_residueEntry (v : Nat) : (residueEntry v).extractLsb' 0 64 = BitVec.ofNat 64 v := by
  apply BitVec.eq_of_getLsbD_eq
  intro i hi
  rw [BitVec.getLsbD_extractLsb', residueEntry, BitVec.getLsbD_setWidth]
  simp [hi, show i < 128 by omega]

section
variable {s : State} {x : List Nat} {base a : Nat}

theorem residuesAt.lt (h : residuesAt s base a x) : ∀ v ∈ x, v < a := by
  intro v hv
  obtain ⟨j, hj⟩ := List.mem_iff_getElem?.1 hv
  exact (h j v hj).2

/-- What a modular command wrote reads back as residues (10_state.md R61). -/
theorem residuesAt_of_entriesAt (ha : a < 2 ^ 64) (residues : ∀ v ∈ x, v < a)
    (h : entriesAt s base (x.map residueEntry)) : residuesAt s base a x := by
  intro j v hv
  have lt := residues v (List.mem_of_getElem? hv)
  have entry := h j (residueEntry v) (by rw [List.getElem?_map, hv]; rfl)
  have low := (State.loadEntry_ok.1 entry).1
  rw [low_residueEntry] at low
  rw [State.dReadResidue, low, Except.map, BitVec.toNat_ofNat, Nat.mod_eq_of_lt (lt.trans ha)]
  exact ⟨rfl, lt⟩

end

theorem ctxDegree_of_fttf {s : State} {k : Nat} (pass : checksPass s (.fttf k)) : 2 ^ k = s.ctxDegree := by
  have length := firstFailing_eq_none.1 pass (decide (2 ^ k ≠ 2 ^ s.actLogd.toNat), .len, 0) (by simp [checkList])
  exact not_not.1 (of_decide_eq_false length)

/-- A command that writes an output buffer leaves the modular context and its tables (20_memory.md R101). -/
theorem State.keepsModular_wrote (s : State) (out : List Entry) : s.keepsModular (s.wrote out) where
  valid := id
  params := rfl
  actMod := rfl
  actLogd := rfl
  bk := rfl
  mu := rfl
  mem b hb := Memory.get_writeEntries_other _ _ _ (by simp only [rotgAddr, dmemAddr] at *; omega)

/-- Settles O25: the second command finds the residues and the tables of the first, whose transform it undoes. -/
theorem fttRoundTrip : Obligations.FttRoundTrip := by
  intro s k w wi di x e hp tables pass full residues pass'
  obtain ⟨ha, logd, _, _, _, _, _, inverse, unit, entries, _, _⟩ := tables
  have degree := ctxDegree_of_fttf pass
  have pos : 0 < s.ctxMod := by omega
  rw [← degree] at unit entries
  obtain ⟨P, hP, ⟨fullP, ltP⟩, _⟩ := fttForward_powers (w := w) pos ⟨full, residues.lt⟩
  have first := exec_fttf pass full residues (fun j hj => (entries j hj).1) hP
  have written := residuesAt_of_entriesAt s.actMod.isLt ltP (s.entriesAt_wrote (P.map residueEntry))
  have small (j : Nat) (hj : j < 2 ^ k) : j < 2 ^ 16 :=
    (degree ▸ hj : j < s.ctxDegree).trans_le (Nat.pow_le_pow_right two_pos (logd.trans hp.1))
  have kept (j : Nat) (hj : j < 2 ^ k) := (s.keepsModular_wrote (P.map residueEntry)).tables (small j hj)
  have second := exec_ftti
    (s := { s.wrote (P.map residueEntry) with latch := { s.latch with src := s.latch.dst, dst := e } }) pass' fullP
    written
    (fun j hj => (kept _ (by omega)).2.1.trans (entries _ (by omega)).2.1)
    (fun j hj => (kept j hj).2.2.trans (entries j hj).2.2)
    (fttInverse_fttForward pos inverse unit ⟨full, residues.lt⟩ hP)
  exact ⟨_, _, first, s.endsWell_wrote _, second, rfl, State.entriesAt_wrote _ _⟩

end Sys2Proof.Machine
end

section
/-! PROOF. ccfg: its word, its two checks, and the rotation group it builds (42_complex.md R300). -/

namespace Sys2Proof.Machine

/-- A command has one word. -/
theorem decode_eq_ok_iff_eq {w v : Word} {i : Instr} (value : isWordOf v i) : decode w = .ok i ↔ w = v := by
  have mask : (0xFFFFFFFF : Word) = BitVec.allOnes 32 := by decide
  rw [decode_eq_ok_iff, ← and_allOnes_eq_iff value, mask, BitVec.and_allOnes]

theorem isPow2_iff {x : Word} : (x ≠ 0 ∧ x &&& (x - 1) = 0) ↔ ∃ e, x.toNat = 2 ^ e := by
  refine ⟨fun h => ⟨_, toNat_eq_two_pow_log2 h⟩, fun ⟨e, he⟩ => isPow2_of_toNat_eq ?_⟩
  rw [he, Nat.log2_two_pow]

/-- ACT_LOGM holds the logarithm of M: five bits are enough for it. -/
theorem ccfgCompute_ctxLen {s : State} (hp : s.params.wf) {clen : Word}
    (checks : ccfgChecks s.params clen = .ok ()) : (ccfgCompute s clen).ctxLen = clen.toNat := by
  obtain ⟨pow2, _, limit⟩ := ccfgChecks_ok.1 checks
  obtain ⟨_, ⟨_, hlogm⟩, _⟩ := hp
  have len := toNat_eq_two_pow_log2 pow2
  have small : clen.toNat.log2 ≤ 17 := by
    rw [len] at limit
    exact ((Nat.pow_le_pow_iff_right (by decide)).1 limit).trans hlogm
  have logm : (ccfgCompute s clen).actLogm.toNat = clen.toNat.log2 := by
    simp only [ccfgCompute, BitVec.toNat_ofNat]
    omega
  rw [State.ctxLen, logm, ← len]

theorem five_pow_mod_odd {M : Nat} (even : 2 ∣ M) (j : Nat) : 5 ^ j % M % 2 = 1 := by
  rw [Nat.mod_mod_of_dvd _ even]
  exact Nat.odd_iff.1 (Odd.pow (by decide))

/-- Settles O18: the two checks in turn, and then the compute phase, which builds a complex context of M. -/
theorem ccfgBuildsTheRotationGroup : Obligations.CcfgBuildsTheRotationGroup := by
  refine ⟨fun w => decode_eq_ok_iff_eq ⟨rfl, rfl, rfl, rfl⟩, fun s hp => ?_⟩
  have raised {e : ErrCode} (h : ccfgChecks s.params s.latch.s0.clen = .error (.raise e 0)) :
      exec .ccfg s = .next (s.afterError .ccfg e 0) :=
    exec_next.2 (.inr ⟨e, 0, except_map_error.2 h, rfl⟩)
  refine ⟨fun other => raised ?_, fun pow2 outside => raised ?_, fun pow2 four limit => ?_⟩
  · have fails := mt isPow2_iff.1 (not_exists.2 other)
    exact except_bind_error.2 (.inl (require_error.2 ⟨fails, rfl⟩))
  · refine except_bind_error.2 (.inr ⟨(), require_ok.2 (isPow2_iff.2 pow2), require_error.2 ⟨?_, rfl⟩⟩)
    omega
  · have checks := ccfgChecks_ok.2 ⟨isPow2_iff.2 pow2, four, limit⟩
    have len := ccfgCompute_ctxLen hp checks
    obtain ⟨_, _, rotg⟩ := ccfgCompute_complexContext hp checks rfl
    rw [len] at rotg
    have even : 2 ∣ s.latch.s0.clen.toNat := by
      obtain ⟨e, he⟩ := pow2
      rw [he] at four ⊢
      exact dvd_pow_self 2 fun zero => by simp [zero] at four
    refine ⟨_, exec_next.2 (.inl ⟨_, except_map_ok.2 ⟨(), checks, rfl⟩, rfl⟩), rfl, rfl, rfl, len,
      fun j hj => ⟨rotg j hj, five_pow_mod_odd even j⟩, fun b hb => ?_⟩
    exact Memory.get_writeWords_other _ _ _ (by rwa [rotationTable_length])

end Sys2Proof.Machine
end

section
/-! PROOF. The roots of the complex transforms: which CROOT entry a pair of a stage uses (42_complex.md R302, R303,
R305, R306). -/

namespace Sys2Proof.Machine

section
variable {L st j : Nat}

theorem fftfIndex_pow (h2 : st ≤ L) : fftfIndex (2 ^ L) st j = j * 2 ^ (L - st) := by
  rw [fftfIndex, Nat.pow_div h2 two_pos]

theorem fftiIndex_pow (h2 : st ≤ L) : fftiIndex (2 ^ L) st j = (2 ^ st - j) * 2 ^ (L - st) := by
  rw [fftiIndex, Nat.pow_div h2 two_pos]

theorem two_pow_eq_mul_gap (h2 : st ≤ L) : 2 ^ L = 2 ^ st * 2 ^ (L - st) := by
  rw [← pow_add, Nat.add_sub_cancel' h2]

theorem half_table_eq (h1 : 1 ≤ st) (h2 : st ≤ L) : 2 ^ L / 2 = 2 ^ (st - 1) * 2 ^ (L - st) := by
  rw [two_pow_eq_mul_gap h2, ← Nat.two_pow_pred_mul_two h1, Nat.mul_right_comm, Nat.mul_div_cancel _ two_pos]

end

section
variable (M st r : Nat)

theorem embIndex_eq : embIndex M st r = r % (4 * 2 ^ st) * (M / (4 * 2 ^ st)) := by
  rw [embIndex, Nat.shiftLeft_eq, Nat.mul_comm (2 ^ st)]

theorem embiIndex_eq : embiIndex M st r = (4 * 2 ^ st - r % (4 * 2 ^ st)) * (M / (4 * 2 ^ st)) := by
  rw [embiIndex, Nat.shiftLeft_eq, Nat.mul_comm (2 ^ st)]

end

/-- Settles O39: the table is as many gaps as the stage has roots, so an index is bounded by its number of gaps. -/
theorem rootIndicesStayInTheTable : Obligations.RootIndicesStayInTheTable := by
  refine ⟨fun L st j h1 h2 hj => ?_, fun k st r h1 h2 odd => ?_⟩
  · have half := Nat.two_pow_pred_add_two_pow_pred h1
    have pos := Nat.two_pow_pos (L - st)
    rw [fftfIndex_pow h2, fftiIndex_pow h2, fftiIndex_pow h2, half_table_eq h1 h2, two_pow_eq_mul_gap h2]
    exact ⟨Nat.mul_lt_mul_of_pos_right hj pos, Nat.mul_lt_mul_of_pos_right (by omega) pos,
      Nat.mul_le_mul_right _ (Nat.sub_le _ _), rfl⟩
  · intro M gap
    have dvd : 4 * 2 ^ st ∣ M := by
      have table : M = 4 * 2 ^ k := (pow_add 2 k 2).trans (Nat.mul_comm _ _)
      exact table ▸ Nat.mul_dvd_mul_left 4 (pow_dvd_pow 2 h2)
    have full : 4 * 2 ^ st * gap = M := Nat.mul_div_cancel' dvd
    have pos : 0 < gap := Nat.div_pos (Nat.le_of_dvd (Nat.two_pow_pos _) dvd) (by positivity)
    have below : r % (4 * 2 ^ st) < 4 * 2 ^ st := Nat.mod_lt _ (by positivity)
    have residue : r % (4 * 2 ^ st) % 2 = 1 :=
      (Nat.mod_mod_of_dvd r (Dvd.dvd.mul_right (by decide) _)).trans odd
    have last : M - gap = (4 * 2 ^ st - 1) * gap := by rw [Nat.sub_one_mul, full]
    rw [embIndex_eq, embiIndex_eq, last]
    exact ⟨pos, rfl, (Nat.mul_lt_mul_of_pos_right below pos).trans_eq full, rfl, Nat.le_mul_of_pos_left _ (by omega),
      Nat.mul_le_mul_right _ (by omega)⟩

end Sys2Proof.Machine
end

section
/-! PROOF. The complex transforms: fft, fftf, ffti, emb and embi write the stages over the roots they read, and fft over
the roots of fftf is fftf (42_complex.md R301 to R303, R305 to R307). -/

namespace Sys2Proof.Machine

/-! ### Stages over the roots that are read -/

/-- Stages inside the buffer depend on the roots of their own pairs only. -/
theorem runStages_congr_index {α τ : Type} {tw tw' : Nat → Nat → Except Stop τ} {bfly : τ → α → α → α × α} {k : Nat}
    {ss : List Nat} (A : List α) (inside : ∀ st ∈ ss, 1 ≤ st ∧ st ≤ k)
    (same : ∀ st j, 1 ≤ st → st ≤ k → j < 2 ^ (st - 1) → tw st j = tw' st j) :
    runStages tw bfly k ss A = runStages tw' bfly k ss A := by
  refine runStages_congr A fun st hst p hp => ?_
  obtain ⟨h1, h2⟩ := inside st hst
  exact same st _ h1 h2 ((stagePairs_index h1 h2).1 ⟨p, hp, rfl⟩)

section
variable {k : Nat} {s : State} {x : List Cplx} {i : Instr} {tw : Nat → Nat → Except Stop Cplx} {C : Nat → Nat → Cplx}
  {bfly : Cplx → Cplx → Cplx → Cplx × Cplx} {ss : List Nat} {pre post : List Cplx → List Cplx}

/-- A complex command whose checks pass, and that finds its input and the roots `C`, writes what its stages compute
over them. -/
theorem exec_cplxTransform (hi : i ∈ bufferCommands k) (body : bufferBody s i = s.cplxTransform k tw bfly ss pre post)
    (inside : ∀ st ∈ ss, 1 ≤ st ∧ st ≤ k) (pass : checksPass s i) (full : x.length = 2 ^ k)
    (input : cplxAt s s.latch.src.toNat x)
    (roots : ∀ st j, 1 ≤ st → st ≤ k → j < 2 ^ (st - 1) → tw st j = .ok (C st j)) :
    ∃ A t, runStages (fun st j => .ok (C st j)) bfly k ss (pre x) = .ok A ∧ exec i s = .next t ∧
      writesBuffer s t (cplxEntries (post A)) := by
  obtain ⟨A, hA⟩ := runStages_completes (tw := fun st j => .ok (C st j)) (bfly := bfly) (k := k) ss (pre x)
    fun _ _ => ⟨_, rfl⟩
  have stages := (runStages_congr_index (pre x) inside roots).trans hA
  have out : bufferBody s i = .ok (cplxEntries (post A)) :=
    body.trans (except_bind_ok.2 ⟨x, readFrom_ok.2 ⟨full, input⟩, except_bind_ok.2 ⟨A, stages, rfl⟩⟩)
  exact ⟨A, _, hA, exec_of_bufferBody hi pass out, writesBuffer_wrote s _⟩

end

/-- Settles O36: the entry a pair uses is an even one below n. -/
theorem fftWritesTheStages : Obligations.FftWritesTheStages := by
  intro k s x T pass full input table
  refine exec_cplxTransform (post := id) (by simp [bufferCommands]) rfl (fun st => mem_stagesUp.1) pass full input
    fun st j h1 h2 hj => ?_
  rw [← twiddleIndex_eq, twiddleIndex_eq_double h2]
  exact table _ (twiddleIndex_eq_double h2 ▸ twiddleIndex_add_two_le h1 h2 hj)

theorem cplxEntries_scaled (k : Nat) (A : List Cplx) :
    cplxEntries (A.map (cscale k)) = A.map fun z => (cscale k z).toEntry := List.map_map

/-- Settles O37: fftf and ffti differ in the root of a pair, and in the scaling. -/
theorem fftfAndFftiWriteTheStages : Obligations.FftfAndFftiWriteTheStages := by
  refine ⟨fun k s x C pass full input roots => ?_, fun k s x C pass full input roots => ?_⟩
  · exact exec_cplxTransform (post := id) (by simp [bufferCommands]) rfl (fun st => mem_stagesUp.1) pass full input roots
  · simp only [← cplxEntries_scaled]
    exact exec_cplxTransform (by simp [bufferCommands]) rfl (fun st => mem_stagesUp.1) pass full input roots

/-- emb and embi read ROTG[j] for j below n = M/4 only, where it is 5^j mod M. -/
theorem rotatedRoot_of_context {k st j : Nat} {s : State} {i : Instr} (hi : i ∈ [.emb k, .embi k])
    (ctx : s.complexContext) (pass : checksPass s i) (index : Nat → Nat → Nat → Nat) (h2 : st ≤ k)
    (hj : j < 2 ^ (st - 1)) : s.rotatedRoot index st j = s.crootAt (index s.ctxLen st (5 ^ j % s.ctxLen)) := by
  have buffer : i ∈ bufferCommands k := (show _ ⊆ bufferCommands k by simp [bufferCommands]) hi
  have checks : s.embChecks k = .ok () := by fin_cases hi <;> exact (bufferChecks_ok buffer).2 pass
  simp only [State.embChecks, State.chkChecks, State.checkCcfg, check_then_ok, require_ok] at checks
  obtain ⟨⟨valid, _, len⟩, _⟩ := checks
  obtain ⟨_, _, rotg⟩ := ctx valid
  have inside : j < s.ctxLen / 4 :=
    len ▸ hj.trans_le (Nat.pow_le_pow_right two_pos ((Nat.sub_le st 1).trans h2))
  rw [State.rotatedRoot, rotg j inside]
  rfl

/-- Settles O38: ROTG gives each pair its root, by the complex context. -/
theorem embAndEmbiWriteTheStages : Obligations.EmbAndEmbiWriteTheStages := by
  refine ⟨fun k s x C ctx pass full input roots => ?_, fun k s x C ctx pass full input roots => ?_⟩
  · refine exec_cplxTransform (post := id) (by simp [bufferCommands]) rfl (fun st => mem_stagesUp.1) pass full input
      fun st j h1 h2 hj => ?_
    rw [rotatedRoot_of_context (by simp) ctx pass _ h2 hj, embIndex_eq]
    exact roots st j h1 h2 hj
  · simp only [← cplxEntries_scaled]
    refine exec_cplxTransform (pre := id) (by simp [bufferCommands]) rfl (fun st => mem_stagesDown.1) pass full input
      fun st j h1 h2 hj => ?_
    rw [rotatedRoot_of_context (by simp) ctx pass _ h2 hj, embiIndex_eq]
    exact roots st j h1 h2 hj

/-! ### fft over the roots of fftf -/

/-- Buffer commands of one size whose bodies agree complete in the same way, once their checks have passed. -/
theorem exec_eq_of_bufferBody_eq {k : Nat} {s : State} {i j : Instr} (hi : i ∈ bufferCommands k)
    (hj : j ∈ bufferCommands k) (passI : checksPass s i) (passJ : checksPass s j)
    (effect : errorEffect i = errorEffect j) (same : bufferBody s i = bufferBody s j) : exec i s = exec j s := by
  rw [exec_eq_finish, exec_eq_finish, phases_eq_bufferBody hi, phases_eq_bufferBody hj, (bufferChecks_ok hi).2 passI,
    (bufferChecks_ok hj).2 passJ, effect, same]

/-- Over the n entries that are every (M/2n)-th root, entry t of the stage is the root fftf uses. -/
theorem twiddleIndex_mul_gap {L k st j : Nat} (h2 : st ≤ k) (hL : k + 1 ≤ L) :
    twiddleIndex k st j * (2 ^ L / (2 * 2 ^ k)) = fftfIndex (2 ^ L) st j := by
  rw [twiddleIndex_eq, fftfIndex_pow (by omega), ← pow_succ', Nat.pow_div hL two_pos, Nat.mul_assoc, ← pow_add]
  congr 2
  omega

/-- Settles O40: the two commands have the same input and stages, and their roots agree pair by pair. -/
theorem fftAgreesWithFftf : Obligations.FftAgreesWithFftf := by
  intro k s passFft passFftf hlen table
  have hL : k + 1 ≤ s.actLogm.toNat := (Nat.pow_le_pow_iff_right (a := 2) (by decide)).1 (pow_succ' 2 k ▸ hlen)
  refine exec_eq_of_bufferBody_eq (k := k) (by simp [bufferCommands]) (by simp [bufferCommands]) passFft passFftf rfl ?_
  refine congrArg (s.cplxInputs k >>= ·) (funext fun x => ?_)
  refine congrArg (· >>= _) (runStages_congr_index _ (fun st => mem_stagesUp.1) fun st j h1 h2 hj => ?_)
  have below := twiddleIndex_add_two_le h1 h2 hj
  obtain ⟨v, fftRoot, fftfRoot⟩ := table (twiddleIndex k st j) (by omega)
  rw [State.ctxLen, twiddleIndex_mul_gap h2 hL] at fftfRoot
  exact fftRoot.trans fftfRoot.symm

end Sys2Proof.Machine
end

section
/-! PROOF. The checks a command makes are its list of checks in order, and a residue check reports the first element
that is no residue (60_exceptions.md R402, 40_common.md R206 to R209). -/

namespace Sys2Proof.Machine

open Sys2Proof.Stated

/-! ### A list of checks as a result -/

/-- The result of a list of checks made in order. -/
def runChecks (cs : List Check) : Except Stop Unit :=
  match firstFailing cs with
  | none => .ok ()
  | some (e, info) => .error (.raise e info)

theorem runChecks_of_firstFailing {cs : List Check} {e : ErrCode} {info : Word}
    (h : firstFailing cs = some (e, info)) : runChecks cs = .error (.raise e info) := by
  rw [runChecks, h]

/-- Simplification goes into the condition of a check. -/
@[congr] theorem require_congr {c d : Prop} {dec : Decidable c} [Decidable d] (h : c = d) (e : ErrCode) (info : Word) :
    require c e info = require d e info := if_congr (iff_of_eq h) rfl rfl

@[simp] theorem runChecks_nil : runChecks [] = pure () := rfl

@[simp] theorem runChecks_cons (fails : Bool) (e : ErrCode) (info : Word) (cs : List Check) :
    runChecks ((fails, e, info) :: cs) = (require (fails = false) e info >>= fun _ => runChecks cs) := by
  cases fails <;> rfl

@[simp] theorem runChecks_append (cs ds : List Check) :
    runChecks (cs ++ ds) = (runChecks cs >>= fun _ => runChecks ds) := by
  induction cs with
  | nil => rfl
  | cons c cs ih =>
    obtain ⟨fails, e, info⟩ := c
    rw [List.cons_append, runChecks_cons, ih, runChecks_cons, bind_assoc]

/-! ### The checks of each command -/

@[simp] theorem runChecks_limitCheck (s : State) (k : Nat) (cs : List Check) :
    runChecks (limitCheck s k :: cs) = (s.checkLimit k >>= fun _ => runChecks cs) := by
  rw [limitCheck, runChecks_cons, State.checkLimit, ← lognMax]
  simp only [decide_eq_false_iff_not, gt_iff_lt, not_lt]

@[simp] theorem runChecks_rangeChecks (s : State) (n : Nat) (useTbl : Bool) :
    runChecks (rangeChecks s n useTbl) = s.checkRange n useTbl := by
  unfold State.checkRange dmemSize
  simp [rangeChecks]

@[simp] theorem runChecks_overlapChecks (s : State) (n : Nat) (useTbl : Bool) :
    runChecks (overlapChecks s n useTbl) = s.checkOverlap n useTbl := by
  simp [State.checkOverlap, overlapChecks, rangesMeet_eq_false, or_iff_not_imp_left]

/-- The test of a power of two in mcfg and ccfg is that of the list. -/
theorem isPow2_iff_notPow2 {x : Word} : (x ≠ 0 ∧ x &&& (x - 1) = 0) ↔ notPow2 x.toNat = false := by
  rw [notPow2, decide_eq_false_iff_not, not_not]
  exact ⟨toNat_eq_two_pow_log2, isPow2_of_toNat_eq⟩

theorem mcfgChecks_eq_runChecks (s : State) : mcfgChecks s.params s.latch.s0 = runChecks (checkList s .mcfg) := by
  simp only [mcfgChecks, isPow2_iff_notPow2, checkList, mcfgCheckList, runChecks_cons, runChecks_nil, bind_pure_unit,
    decide_eq_false_iff_not, not_not, gt_iff_lt, ge_iff_le, not_lt, not_le, ne_eq]

theorem ccfgChecks_eq_runChecks (s : State) :
    ccfgChecks s.params s.latch.s0.clen = runChecks (checkList s .ccfg) := by
  simp only [ccfgChecks, isPow2_iff_notPow2]
  simp [checkList]

theorem chkChecks_eq_runChecks (s : State) (k : Nat) : s.chkChecks k = runChecks (checkList s (.chk k)) := by
  unfold State.chkChecks State.ctxLen
  simp [State.checkCcfg, checkList]

theorem fftChecks_eq_runChecks (s : State) (k : Nat) : s.fftChecks k = runChecks (checkList s (.fftf k)) := by
  unfold State.fftChecks State.ctxLen
  simp [State.checkCcfg, checkList]

theorem bufferChecks_eq_runChecks {k : Nat} {i : Instr} (hi : i ∈ bufferCommands k) (s : State) :
    bufferChecks s i = runChecks (checkList s i) := by
  fin_cases hi
  all_goals
    simp [bufferChecks, fftChecks_eq_runChecks, State.embChecks, chkChecks_eq_runChecks, State.checkMcfg, checkList,
      State.ctxDegree]

/-- The checks of the list come before all else a command does (60_exceptions.md R402). -/
theorem phases_of_runChecks_error {i : Instr} {s : State} {r : Stop} (h : runChecks (checkList s i) = .error r) :
    phases i s = .error r := by
  rcases instr_cases_buffer i with rfl | rfl | rfl | ⟨k, rfl⟩ | ⟨k, hi⟩
  · cases h
  · exact except_map_error.2 ((mcfgChecks_eq_runChecks s).trans h)
  · exact except_map_error.2 ((ccfgChecks_eq_runChecks s).trans h)
  · exact except_map_error.2 ((chkChecks_eq_runChecks s k).trans h)
  · rw [phases_eq_bufferBody hi, except_map_error, bufferChecks_eq_runChecks hi, h]
    rfl

/-! ### The residue check -/

/-- A residue check reports the first element that is no residue, when the buffer is written (40_common.md R209). -/
theorem checkResidues_of_firstNonResidue {f : Nat → Except Stop Nat} {a : Nat} {tag : Word} {base : Nat}
    {x : List Nat} : ∀ {j l : Nat}, (∀ i v, x[i]? = some v → f (base + j + i) = .ok v) → firstNonResidue a x l →
      checkResidues f a tag base j x.length = .error (.raise .operand (tag ||| BitVec.ofNat 32 (j + l))) := by
  induction x with
  | nil =>
    rintro j l _ ⟨⟨v, hv, _⟩, _⟩
    cases hv
  | cons u x ih =>
    rintro j l reads ⟨⟨v, hv, large⟩, below⟩
    refine except_bind_error.2 (.inr ⟨u, reads 0 u rfl, ?_⟩)
    cases l with
    | zero =>
      cases hv
      exact except_bind_error.2 (.inl (require_error.2 ⟨not_lt.2 large, rfl⟩))
    | succ l =>
      obtain ⟨_, head, small⟩ := below 0 l.succ_pos
      cases head
      refine except_bind_error.2 (.inr ⟨(), require_ok.2 small, except_bind_error.2 (.inl ?_)⟩)
      rw [← Nat.add_assoc, Nat.add_right_comm j l 1]
      refine ih (fun i w hw => ?_) ⟨⟨v, hv, large⟩, fun i hi => below (i + 1) (Nat.succ_lt_succ hi)⟩
      rw [← Nat.add_assoc, Nat.add_right_comm _ 1 i]
      exact reads (i + 1) w hw

section
variable {s : State} {k j : Nat} {i : Instr} {x : List Nat}

theorem residueCheck_of_firstNonResidue {base : Nat} (tag : Word) (full : x.length = 2 ^ k)
    (written : numbersAt s base x) (first : firstNonResidue s.ctxMod x j) :
    checkResidues s.dReadResidue s.ctxMod tag base 0 (2 ^ k) =
      .error (.raise .operand (tag ||| BitVec.ofNat 32 j)) := by
  have raised := checkResidues_of_firstNonResidue (f := s.dReadResidue) (tag := tag) (j := 0) written first
  rwa [full, Nat.zero_add] at raised

theorem residueInputs_of_firstNonResidue (full : x.length = 2 ^ k) (written : numbersAt s s.latch.src.toNat x)
    (first : firstNonResidue s.ctxMod x j) :
    s.residueInputs k = .error (.raise .operand (BitVec.ofNat 32 j)) := by
  rw [State.residueInputs, residueCheck_of_firstNonResidue 0 full written first]
  simp

theorem bufferBody_of_residueInputs_error {r : Stop} (hi : i ∈ modularCommands k)
    (h : s.residueInputs k = .error r) : bufferBody s i = .error r := by
  fin_cases hi <;> exact except_bind_error.2 (.inl h)

theorem modularCommands_subset : modularCommands k ⊆ bufferCommands k := by
  simp [modularCommands, bufferCommands]

/-- A command whose checks pass completes with the error that its body raises. -/
theorem exec_of_bufferBody_error {e : ErrCode} {info : Word} (hi : i ∈ bufferCommands k) (pass : checksPass s i)
    (body : bufferBody s i = .error (.raise e info)) : exec i s = .next (s.afterError i e info) := by
  refine exec_next.2 (.inr ⟨e, info, ?_, rfl⟩)
  rw [phases_eq_bufferBody hi, except_map_error]
  exact except_bind_error.2 (.inr ⟨(), (bufferChecks_ok hi).2 pass, body⟩)

end

theorem completion_illegal {s : State} {r : Reject} (h : decode s.latch.cmd = .error r) :
    completion s = .next (s.afterError .nop .illegal 0) :=
  (completion_of_reject h).trans (congrArg _ (fail_eq_afterError s .nop .illegal 0))

/-- Settles O12: the list of checks comes first, then the input is checked element by element, then the table. -/
theorem checksRunInTheListedOrder : Obligations.ChecksRunInTheListedOrder := by
  refine ⟨fun s i e info failing => ?_, fun s k j i x hi pass full written first => ?_,
    fun s k j x y pass full residues fullTable written first => ?_, fun s r rejected => completion_illegal rejected⟩
  · have raised := phases_of_runChecks_error (runChecks_of_firstFailing failing)
    exact exec_next.2 (.inr ⟨e, info, raised, rfl⟩)
  · have input := residueInputs_of_firstNonResidue full written first
    exact exec_of_bufferBody_error (modularCommands_subset hi) pass (bufferBody_of_residueInputs_error hi input)
  · have input := residueInputs_ok full residues
    have table : s.residueTable k = .error (.raise .operand (tableTag ||| BitVec.ofNat 32 j)) :=
      residueCheck_of_firstNonResidue tableTag fullTable written first
    refine exec_of_bufferBody_error (k := k) (by simp [bufferCommands]) pass ?_
    refine except_bind_error.2 (.inr ⟨x, input, except_bind_error.2 (.inl ?_)⟩)
    exact except_bind_error.2 (.inl table)

end Sys2Proof.Machine
end

section
/-! PROOF. What a completion with an error changes, and which events set a bit of IRQ_STATUS (60_exceptions.md R405,
R409). -/

namespace Sys2Proof.Machine

open Sys2Proof.Stated

/-! ### Completion -/

theorem completion_decoded {s : State} {i : Instr} (h : decode s.latch.cmd = .ok i) : completion s = exec i s := by
  rw [completion, h]

theorem sequencerTurn_running {s : State} (running : s.status.busy = true) : sequencerTurn s = completion s :=
  if_pos running

/-- A command that succeeds leaves ERR as it was. -/
theorem succeed_err {i : Instr} {s u : State} (h : phases i s = .ok u) : u.succeed.status.err = s.status.err := by
  obtain ⟨_, _, err, _⟩ := phases_ok_record h
  exact err

/-- Settles O8: only a completion with an error sets ERR, so the command has raised one, or its word is illegal. -/
theorem errorCompletionEffects : Obligations.ErrorCompletionEffects := by
  intro s t clear completed failed
  refine ⟨fun i decoded => ?_, fun r rejected => ?_⟩
  · rw [completion_decoded decoded] at completed
    rcases exec_next_ends completed with ⟨u, ok, rfl⟩ | raised
    · cases clear.symm.trans ((succeed_err ok).symm.trans failed)
    · exact raised
  · cases (completion_illegal rejected).symm.trans completed
    rfl

/-! ### The bits of IRQ_STATUS -/

/-- Every bit of `b` is set in `c`. -/
def IrqBits.within (b c : IrqBits) : Prop :=
  (b.done = true → c.done = true) ∧ (b.err = true → c.err = true) ∧ (b.ovr = true → c.ovr = true)

@[simp] theorem IrqBits.within_refl (b : IrqBits) : b.within b := ⟨id, id, id⟩

@[simp] theorem IrqBits.reset_within (b : IrqBits) : IrqBits.reset.within b := ⟨nofun, nofun, nofun⟩

theorem IrqBits.clear_within (b : IrqBits) (v : Word) : (b.clear v).within b := by
  simp +contextual [IrqBits.within, IrqBits.clear]

/-- Only a refused CMD write sets a bit by way of a register (40_common.md R201). -/
theorem writeReg_irqStatus (s : State) (r : Reg) (v : Word) :
    (s.writeReg r v).irqStatus.within s.irqStatus ∨
      (r = .cmd ∧ s.status.busy = true ∧ s.writeReg r v = s.overrun) := by
  cases r
  case irqStatus => exact .inl (s.irqStatus.clear_within v)
  case ctrl =>
    simp only [State.writeReg]
    split
    · exact .inl (IrqBits.reset_within _)
    · exact .inl (IrqBits.within_refl _)
  case cmd =>
    simp only [State.writeReg, State.writeCmd]
    split
    · next running => exact .inr ⟨trivial, running, rfl⟩
    · exact .inl (IrqBits.within_refl _)
  all_goals exact .inl (IrqBits.within_refl _)

theorem rstN_of_serve {s t : State} {a : Access} (h : serve a s = .next t) : s.rstN = true := by
  by_contra low
  cases (if_pos (eq_false_of_ne_true low)).symm.trans h

theorem serveRead_irqStatus {s t : State} {a : Nat} (h : serveRead s a = .next t) : t.irqStatus = s.irqStatus := by
  by_cases refused : readRefused s a
  · cases (serveRead_refused refused).symm.trans h
    rfl
  · obtain ⟨v, rfl⟩ := serveRead_okay refused h
    rfl

theorem regAt_eq_cmd {a : Nat} (h : regAt a = some .cmd) : a = 0x010 := by
  have := List.find?_some h
  exact (beq_iff_eq.1 this).symm

/-- What a write that is served makes of IRQ_STATUS. -/
theorem serveWrite_irqStatus {s t : State} {a : Nat} {v : Word} (h : serveWrite s a v = .next t) :
    t.irqStatus.within s.irqStatus ∨
      (a = 0x010 ∧ s.status.busy = true ∧ t.irqStatus = s.overrun.irqStatus) := by
  by_cases refused : writeRefused s a
  · cases (serveWrite_refused refused v).symm.trans h
    exact .inl (IrqBits.within_refl _)
  · rcases not_writeRefused refused with regs | ⟨memory, idle⟩
    · cases (serveWrite_regs regs v).symm.trans h
      unfold State.writeRegs
      split
      · next r atR =>
        refine (writeReg_irqStatus s r v).imp_right ?_
        rintro ⟨rfl, running, overrun⟩
        exact ⟨regAt_eq_cmd atR, running, by rw [State.respond_irqStatus, overrun]⟩
      · exact .inl (IrqBits.within_refl _)
    · cases (serveWrite_memory memory idle v).symm.trans h
      exact .inl (IrqBits.within_refl _)

theorem serve_irqStatus {s t : State} {a : Access} (h : serve a s = .next t) :
    t.irqStatus.within s.irqStatus ∨
      ((∃ v, a = .write 0x000010 .word v 0xF) ∧ s.status.busy = true ∧ t.irqStatus = s.overrun.irqStatus) := by
  have live : s.rstN = true := rstN_of_serve h
  by_cases legal : a.legal = true
  case neg =>
    cases (serve_illegal live legal).symm.trans h
    exact .inl (IrqBits.within_refl _)
  case pos =>
    cases a with
    | read addr size =>
      rw [serve_legal_read live legal] at h
      rw [serveRead_irqStatus h]
      exact .inl (IrqBits.within_refl _)
    | write addr size v strobes =>
      rw [serve_legal_write live legal] at h
      refine (serveWrite_irqStatus h).imp_right fun ⟨atCmd, overrun⟩ => ⟨⟨v, ?_⟩, overrun⟩
      obtain ⟨rfl, _, rfl⟩ := wholeWord_iff_legal.2 legal
      rw [show addr = 0x000010 from BitVec.eq_of_toNat_eq atCmd]

/-- An event sets a bit of IRQ_STATUS only when a running command completes or a CMD write is refused. -/
theorem happen_irqStatus {s t : State} {e : Event} (h : happen e s = .next t) :
    t.irqStatus.within s.irqStatus ∨
      (e = .sequencer ∧ s.status.busy = true ∧ completion s = .next t) ∨
      ((∃ v, e = .access (.write 0x000010 .word v 0xF)) ∧ s.status.busy = true ∧
        t.irqStatus = s.overrun.irqStatus) := by
  cases e with
  | access a =>
    refine (serve_irqStatus h).imp_right ?_
    rintro ⟨⟨v, rfl⟩, overrun⟩
    exact .inr ⟨⟨v, rfl⟩, overrun⟩
  | sequencer =>
    cases running : s.status.busy with
    | false =>
      cases (sequencerTurn_idle running).symm.trans h
      exact .inl (IrqBits.within_refl _)
    | true => exact .inr (.inl ⟨rfl, rfl, (sequencerTurn_running running).symm.trans h⟩)
  | rst level =>
    cases h
    unfold State.resetPin
    split
    · exact .inl (IrqBits.within_refl _)
    · exact .inl (IrqBits.reset_within _)
  | powerCycle =>
    cases h
    exact .inl (IrqBits.reset_within _)

/-- A completion sets DONE; it sets ERR when the command ends with an error, and otherwise keeps both ERR bits. -/
theorem completion_irqStatus {s t : State} (h : completion s = .next t) :
    (t.irqStatus = { s.irqStatus with done := true } ∧ t.status.err = s.status.err) ∨
      (t.irqStatus = { s.irqStatus with done := true, err := true } ∧ t.status.err = true) := by
  cases decoded : decode s.latch.cmd with
  | error r =>
    cases (completion_illegal decoded).symm.trans h
    exact .inr ⟨rfl, rfl⟩
  | ok i =>
    rw [completion_decoded decoded] at h
    rcases exec_next.1 h with ⟨u, ok, rfl⟩ | ⟨e, info, _, rfl⟩
    · refine .inl ⟨?_, succeed_err ok⟩
      cases phases_ok ok <;> rfl
    · exact .inr ⟨rfl, rfl⟩

/-- Settles O49: a bit that an event sets is one of the three sources, and each source sets its bit. -/
theorem interruptSources : Obligations.InterruptSources := by
  refine ⟨fun s t e h => ?_, fun s t running h => ?_, fun s t v running h => ?_⟩
  · rcases happen_irqStatus h with ⟨done, err, ovr⟩ | ⟨rfl, running, completed⟩ | ⟨write, running, irq⟩
    · exact ⟨.inl ∘ done, .inl ∘ err, .inl ∘ ovr⟩
    · refine ⟨fun _ => .inr ⟨rfl, running⟩, ?_⟩
      rcases completion_irqStatus completed with ⟨irq, _⟩ | ⟨irq, failed⟩ <;> rw [irq]
      · exact ⟨.inl, .inl⟩
      · exact ⟨fun _ => .inr ⟨rfl, running, failed⟩, .inl⟩
    · rw [irq]
      exact ⟨.inl, .inl, fun _ => .inr ⟨running, write⟩⟩
  · have completed : completion s = .next t := (sequencerTurn_running running).symm.trans h
    rcases completion_irqStatus completed with ⟨irq, kept⟩ | ⟨irq, _⟩ <;> rw [irq]
    · exact ⟨rfl, fun clear failed => nomatch clear.symm.trans (kept.symm.trans failed)⟩
    · exact ⟨rfl, fun _ _ => rfl⟩
  · cases (portWrite_cmd_running (rstN_of_serve (a := .write 0x000010 .word v 0xF) h) running v).symm.trans h
    rfl

end Sys2Proof.Machine
end

section
/-! PROOF. An abort erases the entries that the running command could have written, and no others, and a soft reset
clears the record of commands (70_reset_and_hazards.md R452, R453). -/

namespace Sys2Proof.Machine

open Sys2Proof.Stated

/-! ### Erasing a list of ranges -/

/-- Every byte of the ranges becomes unwritten. -/
def Memory.eraseAll (m : Memory) (rs : List (Nat × Nat)) : Memory := rs.foldl (fun m r => m.erase r.1 r.2) m

@[simp] theorem Memory.eraseAll_cons (m : Memory) (r : Nat × Nat) (rs : List (Nat × Nat)) :
    m.eraseAll (r :: rs) = (m.erase r.1 r.2).eraseAll rs := rfl

theorem inRanges_cons {r : Nat × Nat} {rs : List (Nat × Nat)} {a : Nat} :
    inRanges (r :: rs) a ↔ (r.1 ≤ a ∧ a < r.1 + r.2) ∨ inRanges rs a := List.exists_mem_cons_iff _ _ _

theorem Memory.get_eraseAll_outside {rs : List (Nat × Nat)} {a : Nat} (h : ¬inRanges rs a) (m : Memory) :
    (m.eraseAll rs).get a = m.get a := by
  induction rs generalizing m with
  | nil => rfl
  | cons r rs ih =>
    obtain ⟨head, rest⟩ := not_or.1 (inRanges_cons.not.1 h)
    rw [eraseAll_cons, ih rest, Memory.get_erase, if_neg head]

/-- An unwritten byte stays unwritten. -/
theorem Memory.get_eraseAll_none (rs : List (Nat × Nat)) {m : Memory} {a : Nat} (h : m.get a = none) :
    (m.eraseAll rs).get a = none := by
  induction rs generalizing m with
  | nil => exact h
  | cons r rs ih => exact ih (by rw [Memory.get_erase, h, ite_self])

theorem Memory.get_eraseAll_inside {rs : List (Nat × Nat)} {a : Nat} (h : inRanges rs a) (m : Memory) :
    (m.eraseAll rs).get a = none := by
  induction rs generalizing m with
  | nil => exact absurd h (by simp [inRanges])
  | cons r rs ih =>
    rcases inRanges_cons.1 h with head | rest
    · exact get_eraseAll_none rs (by rw [Memory.get_erase, if_pos head])
    · exact ih rest _

/-! ### The memory after an abort -/

section
variable {s u : State} {i : Instr}

theorem abortedMem_of_decoded (decoded : decode s.latch.cmd = .ok i) :
    abortedMem s = if failsChecks s then s.mem else s.mem.eraseAll (mayHaveWritten s i) := by
  have ranges : abortedRanges s i = mayHaveWritten s i := by cases i <;> rfl
  rw [abortedMem, decoded, ← ranges]
  rfl

theorem abortedMem_of_illegal {r : Reject} (rejected : decode s.latch.cmd = .error r) : abortedMem s = s.mem := by
  rw [abortedMem, rejected]

theorem failsChecks_of_completion (completed : completion s = .next u) : failsChecks s = u.status.err := by
  rw [failsChecks, completed]

theorem get_abortedMem_outside {a : Nat} (decoded : decode s.latch.cmd = .ok i)
    (outside : ¬inRanges (mayHaveWritten s i) a) : (abortedMem s).get a = s.mem.get a := by
  rw [abortedMem_of_decoded decoded]
  split
  · rfl
  · exact Memory.get_eraseAll_outside outside _

theorem abortedMem_of_failing (decoded : decode s.latch.cmd = .ok i) (completed : completion s = .next u)
    (failed : u.status.err = true) : abortedMem s = s.mem := by
  rw [abortedMem_of_decoded decoded, failsChecks_of_completion completed, if_pos failed]

theorem get_abortedMem_inside {a : Nat} (decoded : decode s.latch.cmd = .ok i) (completed : completion s = .next u)
    (succeeded : u.status.err = false) (inside : inRanges (mayHaveWritten s i) a) : (abortedMem s).get a = none := by
  rw [abortedMem_of_decoded decoded, failsChecks_of_completion completed, succeeded, if_neg Bool.false_ne_true]
  exact Memory.get_eraseAll_inside inside _

end

/-! ### The resets of a running command and of an idle core -/

theorem State.abortIfBusy_of_idle {s : State} (idle : s.status.busy = false) : s.abortIfBusy = s :=
  if_neg (ne_true_of_eq_false idle)

theorem State.abortIfBusy_of_running {s : State} (running : s.status.busy = true) : s.abortIfBusy = s.abort :=
  if_pos running

theorem State.softReset_mem (s : State) : s.softReset.mem = s.abortIfBusy.mem := rfl

/-- What a soft reset and a falling rst_n have in common while a command runs (70_reset_and_hazards.md R453). -/
theorem aborted_fields {s t : State} (running : s.status.busy = true) (h : t = s.softReset ∨ t = s.resetPin false) :
    t.status = Status.reset ∧ t.irqStatus = IrqBits.reset ∧ t.mem = abortedMem s := by
  have mem : s.abortIfBusy.mem = abortedMem s := by rw [State.abortIfBusy_of_running running, State.abort_mem]
  rcases h with rfl | rfl
  · exact ⟨rfl, rfl, mem⟩
  · exact ⟨rfl, rfl, mem⟩

/-- Settles O51: both resets leave the memory that the abort makes, and a clear record. -/
theorem abortedCommand : Obligations.AbortedCommand := by
  intro s t i running decoded h
  obtain ⟨status, irqStatus, mem⟩ := aborted_fields running h
  rw [status, irqStatus, mem]
  exact ⟨rfl, rfl, rfl, rfl, rfl, fun _ => get_abortedMem_outside decoded,
    fun _ => abortedMem_of_failing decoded,
    fun _ completed succeeded _ => get_abortedMem_inside decoded completed succeeded⟩

/-- A soft reset keeps what only the host writes (70_reset_and_hazards.md R452). -/
theorem State.softReset_keeps (s : State) :
    s.softReset.responses = s.responses ∧ s.softReset.irqEnable = s.irqEnable ∧ s.softReset.srcBase = s.srcBase ∧
      s.softReset.dstBase = s.dstBase ∧ s.softReset.tblBase = s.tblBase ∧ s.softReset.staging = s.staging := by
  rcases s.abortIfBusy_cases with h | h <;> simp [State.softReset, h]

/-- Whatever holds of the memory as it is and of the memory after an abort holds after a soft reset. -/
theorem softReset_mem_induction {P : Memory → Prop} {s : State} (kept : P s.mem) (aborted : P (abortedMem s)) :
    P s.softReset.mem := by
  rcases s.abortIfBusy_mem with h | h <;> rwa [State.softReset_mem, h]

/-- CTRL keeps nothing of what is written: bit 0 asks for a soft reset (10_state.md R35). -/
theorem portWrite_ctrl {s : State} (live : s.rstN = true) (v : Word) :
    portWrite 0x00C v s = .next ((if v.getLsbD 0 then s.softReset else s).respond .writeOkay) :=
  portWrite_register live .ctrl v

/-- STATUS and the interrupt registers read 0 after a reset (10_state.md R37 to R39). -/
@[simp] theorem Status.word_reset : Status.reset.word = 0 := rfl
@[simp] theorem IrqBits.word_reset : IrqBits.reset.word = 0 := by decide

/-- Settles O50: the write of 1 is the soft reset, whose memory is the aborted one if a command runs. -/
theorem softReset : Obligations.SoftReset := by
  refine ⟨fun s v live set => ?_, fun s v live clear => ?_⟩
  · have write : portWrite 0x00C v s = .next (s.softReset.respond .writeOkay) := by
      rw [portWrite_ctrl live, if_pos set]
    obtain ⟨responses, irqEnable, srcBase, dstBase, tblBase, staging⟩ := s.softReset_keeps
    refine ⟨_, write, Status.word_reset, rfl, congrArg _ responses, rfl, rfl, rfl, rfl, rfl, rfl, IrqBits.word_reset,
      rfl, rfl, rfl, rfl, rfl, rfl, rfl, irqEnable, srcBase, dstBase, tblBase, staging, fun idle => ?_,
      fun i decoded a outside => ?_, fun r rejected => ?_⟩
    · rw [State.respond_mem, State.softReset_mem, State.abortIfBusy_of_idle idle]
    · exact softReset_mem_induction (P := fun m => m.get a = s.mem.get a) rfl
        (get_abortedMem_outside decoded outside)
    · exact softReset_mem_induction (P := fun m => m = s.mem) rfl (abortedMem_of_illegal rejected)
  · rw [portWrite_ctrl live, if_neg (ne_true_of_eq_false clear)]
    rfl

end Sys2Proof.Machine
end

section
/-! PROOF. What every register reads after a reset, by the pin rst_n or by the power supply, and what commands and
invariants make of the state after reset (70_reset_and_hazards.md R450, R451, 60_exceptions.md R417). -/

namespace Sys2Proof.Machine

open Sys2Proof.Stated

/-! ### The reset values of the registers -/

@[simp] theorem lowWord_zero : lowWord 0#64 = 0#32 := rfl
@[simp] theorem highWord_zero : highWord 0#64 = 0#32 := by decide

/-- The reset value of every register (10_state.md R31): CAP is that of the parameters. -/
theorem readReg_reset (p : Config.Params) (r : Reg) : State.readReg { State.reset with params := p } r =
    if r = .id then 0x4E545446 else if r = .version then 0x00010000 else if r = .cap then capWord p else 0 := by
  cases r <;> simp [State.readReg, State.reset, Staging.reset, Latch.reset, idWord, versionWord]

theorem readReg_resetRegisters (s : State) (level : Bool) (m : Memory) (r : Reg) :
    State.readReg { s.resetRegisters with rstN := level, mem := m } r =
      State.readReg { State.reset with params := s.params } r := by
  cases r <;> rfl

/-- The three resets of 70_reset_and_hazards.md R450 and 60_exceptions.md R417 differ in rst_n and the memory. -/
theorem resets_eq_resetRegisters {s t : State}
    (h : t = s.resetPin false ∨ (s.rstN = false ∧ t = s.resetPin true) ∨ t = s.powerCycle) :
    ∃ (u : State) (level : Bool) (m : Memory), t = { u.resetRegisters with rstN := level, mem := m } ∧
      u.params = s.params ∧ u.responses = s.responses := by
  rcases h with rfl | ⟨low, rfl⟩ | rfl
  · exact ⟨s.abortIfBusy, false, _, rfl, s.abortIfBusy_params, s.abortIfBusy_responses⟩
  · have release : s.resetPin true = { s.abortIfBusy.resetRegisters with rstN := true } :=
      if_neg (by rw [low]; decide)
    exact ⟨s.abortIfBusy, true, _, release, s.abortIfBusy_params, s.abortIfBusy_responses⟩
  · exact ⟨s, s.rstN, [], rfl, rfl, rfl⟩

/-- A high level changes nothing while rst_n is high (log 23). -/
theorem State.resetPin_high {s : State} (high : s.rstN = true) : s.resetPin true = s := if_pos high

theorem State.resetPin_rstN (s : State) (level : Bool) : (s.resetPin level).rstN = level := by
  unfold State.resetPin
  split
  · next h =>
    obtain ⟨rfl, high⟩ := Bool.and_eq_true_iff.1 h
    exact high
  · rfl

theorem State.resetPin_mem_of_idle {s : State} (idle : s.status.busy = false) (level : Bool) :
    (s.resetPin level).mem = s.mem := by
  unfold State.resetPin
  split
  · rfl
  · rw [State.abortIfBusy_of_idle idle, State.resetRegisters_mem]

/-- Settles O52: every reset gives the registers the values of the state after reset, with the parameters kept. -/
theorem resetPin : Obligations.ResetPin := by
  refine ⟨fun s t h => ?_, fun s level idle => State.resetPin_mem_of_idle idle level, State.resetPin_rstN,
    fun s => rfl, fun s => State.resetPin_high, fun s a low => if_pos low⟩
  obtain ⟨u, level, m, rfl, params, responses⟩ := resets_eq_resetRegisters h
  refine ⟨fun r => ?_, rfl, rfl, rfl, rfl, rfl, params, responses⟩
  rw [readReg_resetRegisters, params, readReg_reset]
  rfl

/-! ### The state after reset -/

/-- The first check of a modular command (41_modular.md R252 to R254). -/
theorem exec_of_no_modular_context {s : State} {k : Nat} {i : Instr} (hi : i ∈ modularCommands k)
    (invalid : s.status.mcfgValid = false) : exec i s = .next (s.afterError i .nomcfg 0) := by
  refine checksRunInTheListedOrder.1 s i .nomcfg 0 ?_
  fin_cases hi <;> simp [checkList, firstFailing, invalid]

/-- The first check of a complex command that needs ccfg (42_complex.md R302 to R306). -/
theorem exec_of_no_complex_context {s : State} {k : Nat} {i : Instr}
    (hi : i ∈ [Instr.fftf k, .ffti k, .chk k, .emb k, .embi k]) (invalid : s.status.ccfgValid = false) :
    exec i s = .next (s.afterError i .noccfg 0) := by
  refine checksRunInTheListedOrder.1 s i .noccfg 0 ?_
  fin_cases hi <;> simp [checkList, firstFailing, invalid]

/-- Settles O53: the reset values under the default parameters, and no context to compute in. -/
theorem resetStateReads : Obligations.ResetStateReads :=
  ⟨fun r => capWord_defaults ▸ readReg_reset Config.defaults r, rfl,
    fun _ _ hi => exec_of_no_modular_context hi rfl, fun _ _ hi => exec_of_no_complex_context hi rfl⟩

/-- Settles O59: no byte is written and no context is valid, so the invariants of the memory and of the contexts hold
vacuously, and the error record is clear. -/
theorem resetMeetsTheInvariants : Obligations.ResetMeetsTheInvariants :=
  ⟨by decide, .nil, consistent_of_reset rfl rfl, List.forall_mem_nil _, nofun, nofun⟩

end Sys2Proof.Machine
end
